-- ==== Sys2Proof/Word.lean ====
section
/-! DEFINITION. The machine word and the byte of the TaC core (00_scope.md R6, R9). -/

namespace Sys2Proof

/-- A 16-bit word: a register's content, an address, an operand, an instruction word (R6, R9). -/
abbrev Word := BitVec 16

/-- An 8-bit byte: the unit of memory and the flag byte (R6, R9). -/
abbrev Byte := BitVec 8

end Sys2Proof
end

