-- ==== Sys2Proof/Syntax.lean ====
section
/-! DEFINITION. The instruction set as syntax: registers, operand modes, and one constructor of `Instr` per row of
spec/opcode_table.json. Fields the spec calls ignored (30_encoding.md R105, R106, R109) are not part of the syntax
(log 18). -/

namespace Sys2Proof

/-- What a 4-bit register field names (10_state.md R21, R23 to R26). -/
inductive Reg where
  /-- G0..G11, indices 0 to 11 (R21). -/
  | g (n : Fin 12)
  /-- Index 12 (R23). -/
  | fp
  /-- Index 13, the active stack pointer (R24). -/
  | sp
  /-- Index 14, the user stack pointer in every mode (R25). -/
  | usp
  /-- Index 15, the flag byte (R26). -/
  | flag
deriving DecidableEq, Repr

/-- The eight addressing modes with the operand data each of them reads (30_encoding.md R102, R106, R111). -/
inductive Operand where
  /-- Mode 0: the address is the extension word. -/
  | direct (ext : Word)
  /-- Mode 1: the address is the extension word plus a register. -/
  | indexed (ext : Word) (rx : Reg)
  /-- Mode 2: the operand is the extension word. -/
  | immediate (ext : Word)
  /-- Mode 3: the address is FP plus `disp` bytes, `disp` even in -16..14. -/
  | fpRel (disp : Int)
  /-- Mode 4: the operand is a register. -/
  | register (rx : Reg)
  /-- Mode 5: the operand is `v`, in -8..7. -/
  | shortImm (v : Int)
  /-- Mode 6: the address is a register, the operand a word. -/
  | indirect (rx : Reg)
  /-- Mode 7: the address is a register, the operand a byte. -/
  | byteIndirect (rx : Reg)
deriving DecidableEq, Repr

/-- The instructions, one constructor per row of spec/opcode_table.json (30_encoding.md R104, R107, R108, R112, R113). -/
inductive Instr where
  | nop
  | ld (rd : Reg) (src : Operand)
  | st (rd : Reg) (dst : Operand)
  | add (rd : Reg) (src : Operand)
  | sub (rd : Reg) (src : Operand)
  | cmp (rd : Reg) (src : Operand)
  | and (rd : Reg) (src : Operand)
  | or (rd : Reg) (src : Operand)
  | xor (rd : Reg) (src : Operand)
  | adds (rd : Reg) (src : Operand)
  | mul (rd : Reg) (src : Operand)
  | div (rd : Reg) (src : Operand)
  | mod (rd : Reg) (src : Operand)
  | shla (rd : Reg) (src : Operand)
  | shll (rd : Reg) (src : Operand)
  | shra (rd : Reg) (src : Operand)
  | shrl (rd : Reg) (src : Operand)
  | jz (dst : Operand)
  | jc (dst : Operand)
  | jm (dst : Operand)
  | jo (dst : Operand)
  | jgt (dst : Operand)
  | jge (dst : Operand)
  | jle (dst : Operand)
  | jlt (dst : Operand)
  | jnz (dst : Operand)
  | jnc (dst : Operand)
  | jnm (dst : Operand)
  | jno (dst : Operand)
  | jhi (dst : Operand)
  | jls (dst : Operand)
  | jmp (dst : Operand)
  | call (dst : Operand)
  | ioIn (rd : Reg) (port : Operand)
  | ioOut (rd : Reg) (port : Operand)
  | push (rd : Reg)
  | pop (rd : Reg)
  | ret
  | reti
  | svc
  | halt
  /-- Undefined opcodes (R112). -/
  | undefOp13 (rd : Reg) (src : Operand)
  | undefOp14 (rd : Reg) (src : Operand)
  | undefOp15 (rd : Reg) (src : Operand)
  | undefOp25 (rd : Reg) (src : Operand)
  | undefOp27 (rd : Reg) (src : Operand)
  | undefOp28 (rd : Reg) (src : Operand)
  | undefOp29 (rd : Reg) (src : Operand)
  /-- The jump group with condition 14 (R113). -/
  | undefJump14 (dst : Operand)
  /-- Op 24 (PUSH/POP) with a reserved mode (R113). -/
  | undefStack1 (rd rx : Reg)
  | undefStack2 (rd rx : Reg)
  | undefStack3 (rd rx : Reg)
  | undefStack5 (rd rx : Reg)
  | undefStack6 (rd rx : Reg)
  | undefStack7 (rd rx : Reg)
  /-- Op 26 (RET/RETI) with a reserved mode (R113). -/
  | undefReturn1 (rd rx : Reg)
  | undefReturn2 (rd rx : Reg)
  | undefReturn3 (rd rx : Reg)
  | undefReturn5 (rd rx : Reg)
  | undefReturn6 (rd rx : Reg)
  | undefReturn7 (rd rx : Reg)
deriving DecidableEq, Repr

end Sys2Proof
end

