-- ==== Sys2Proof/WellFormed.lean ====
section
/-! DEFINITION. The static checks on an instruction: a displacement and a short immediate must fit the 4-bit field that
holds them (30_encoding.md R106, R111). -/

namespace Sys2Proof

/-- A short immediate is in -8..7; an FP-relative displacement is even and in -16..14 (R111, 00_scope.md R13). -/
def Operand.wellFormed : Operand → Bool
  | .direct _ => true
  | .indexed _ _ => true
  | .immediate _ => true
  | .fpRel d => decide (-16 ≤ d) && decide (d ≤ 14) && decide (d % 2 = 0)
  | .register _ => true
  | .shortImm v => decide (-8 ≤ v) && decide (v ≤ 7)
  | .indirect _ => true
  | .byteIndirect _ => true

/-- An instruction is well formed when its operand is. -/
def Instr.wellFormed : Instr → Bool
  | .ld _ o | .st _ o | .add _ o | .sub _ o | .cmp _ o | .and _ o | .or _ o | .xor _ o | .adds _ o | .mul _ o
  | .div _ o | .mod _ o | .shla _ o | .shll _ o | .shra _ o | .shrl _ o => o.wellFormed
  | .jz o | .jc o | .jm o | .jo o | .jgt o | .jge o | .jle o | .jlt o | .jnz o | .jnc o | .jnm o | .jno o | .jhi o
  | .jls o | .jmp o | .call o => o.wellFormed
  | .ioIn _ o | .ioOut _ o => o.wellFormed
  | .undefOp13 _ o | .undefOp14 _ o | .undefOp15 _ o | .undefOp25 _ o | .undefOp27 _ o | .undefOp28 _ o
  | .undefOp29 _ o | .undefJump14 o => o.wellFormed
  | .nop | .push _ | .pop _ | .ret | .reti | .svc | .halt => true
  | .undefStack1 _ _ | .undefStack2 _ _ | .undefStack3 _ _ | .undefStack5 _ _ | .undefStack6 _ _
  | .undefStack7 _ _ => true
  | .undefReturn1 _ _ | .undefReturn2 _ _ | .undefReturn3 _ _ | .undefReturn5 _ _ | .undefReturn6 _ _
  | .undefReturn7 _ _ => true

end Sys2Proof
end

