-- ==== Sys2Proof/Decode.lean ====
section
/-! DEFINITION. The decoder (30_encoding.md R100 to R116) and, after it, the encoder. Decoding is total on words: every
first word is one row of the opcode table (R115). On bytes the one refusal is a list too short for the instruction. -/

namespace Sys2Proof

/-! ### Fields -/

/-- Bits 15..11 of the first word (R100). -/
def opField (w : Word) : BitVec 5 := w.extractLsb' 11 5

/-- Bits 10..8 (R100). -/
def modeField (w : Word) : BitVec 3 := w.extractLsb' 8 3

/-- Bits 7..4 (R100). -/
def rdField (w : Word) : BitVec 4 := w.extractLsb' 4 4

/-- Bits 3..0 (R100). -/
def rxField (w : Word) : BitVec 4 := w.extractLsb' 0 4

/-- The register a 4-bit index names (10_state.md R21, R23 to R26). -/
def Reg.ofBits (b : BitVec 4) : Reg :=
  if h : b.toNat < 12 then .g ⟨b.toNat, h⟩
  else if b.toNat = 12 then .fp
  else if b.toNat = 13 then .sp
  else if b.toNat = 14 then .usp
  else .flag

/-- The operand of a mode number, an rx field and an extension word (R102, R106, R111). -/
def Operand.ofFields (mode : BitVec 3) (rx : BitVec 4) (ext : Word) : Operand :=
  match mode.toNat with
  | 0 => .direct ext
  | 1 => .indexed ext (Reg.ofBits rx)
  | 2 => .immediate ext
  | 3 => .fpRel (rx.toInt * 2)
  | 4 => .register (Reg.ofBits rx)
  | 5 => .shortImm rx.toInt
  | 6 => .indirect (Reg.ofBits rx)
  | _ => .byteIndirect (Reg.ofBits rx)

/-! ### Length -/

/-- The one-word operations NOP, PUSH/POP, RET/RETI, SVC and HALT (R109). -/
def isOneWordOp (op : BitVec 5) : Bool :=
  op.toNat == 0 || op.toNat == 24 || op.toNat == 26 || op.toNat == 30 || op.toNat == 31

/-- Whether an extension word follows the first word (R101, R110). -/
def hasExtension (w : Word) : Bool :=
  !isOneWordOp (opField w) && decide ((modeField w).toNat ≤ 2)

/-! ### Decoding -/

/-- The jump group, selected by the rd field (R107, R113). -/
def decodeJump (cond : BitVec 4) (dst : Operand) : Instr :=
  match cond.toNat with
  | 0 => .jz dst
  | 1 => .jc dst
  | 2 => .jm dst
  | 3 => .jo dst
  | 4 => .jgt dst
  | 5 => .jge dst
  | 6 => .jle dst
  | 7 => .jlt dst
  | 8 => .jnz dst
  | 9 => .jnc dst
  | 10 => .jnm dst
  | 11 => .jno dst
  | 12 => .jhi dst
  | 13 => .jls dst
  | 14 => .undefJump14 dst
  | _ => .jmp dst

/-- Op 24: PUSH in mode 0, POP in mode 4, undefined in the others (R108, R113). -/
def decodeStack (mode : BitVec 3) (rd rx : Reg) : Instr :=
  match mode.toNat with
  | 0 => .push rd
  | 1 => .undefStack1 rd rx
  | 2 => .undefStack2 rd rx
  | 3 => .undefStack3 rd rx
  | 4 => .pop rd
  | 5 => .undefStack5 rd rx
  | 6 => .undefStack6 rd rx
  | _ => .undefStack7 rd rx

/-- Op 26: RET in mode 0, RETI in mode 4, undefined in the others (R108, R113). -/
def decodeReturn (mode : BitVec 3) (rd rx : Reg) : Instr :=
  match mode.toNat with
  | 0 => .ret
  | 1 => .undefReturn1 rd rx
  | 2 => .undefReturn2 rd rx
  | 3 => .undefReturn3 rd rx
  | 4 => .reti
  | 5 => .undefReturn5 rd rx
  | 6 => .undefReturn6 rd rx
  | _ => .undefReturn7 rd rx

/-- The instruction of a first word and the word after it (R104, R116). The second word counts only where
`hasExtension` says that the instruction has one. -/
def decodeWords (w ext : Word) : Instr :=
  let rd := Reg.ofBits (rdField w)
  let rx := Reg.ofBits (rxField w)
  let opnd := Operand.ofFields (modeField w) (rxField w) ext
  match (opField w).toNat with
  | 0 => .nop
  | 1 => .ld rd opnd
  | 2 => .st rd opnd
  | 3 => .add rd opnd
  | 4 => .sub rd opnd
  | 5 => .cmp rd opnd
  | 6 => .and rd opnd
  | 7 => .or rd opnd
  | 8 => .xor rd opnd
  | 9 => .adds rd opnd
  | 10 => .mul rd opnd
  | 11 => .div rd opnd
  | 12 => .mod rd opnd
  | 13 => .undefOp13 rd opnd
  | 14 => .undefOp14 rd opnd
  | 15 => .undefOp15 rd opnd
  | 16 => .shla rd opnd
  | 17 => .shll rd opnd
  | 18 => .shra rd opnd
  | 19 => .shrl rd opnd
  | 20 => decodeJump (rdField w) opnd
  | 21 => .call opnd
  | 22 => .ioIn rd opnd
  | 23 => .ioOut rd opnd
  | 24 => decodeStack (modeField w) rd rx
  | 25 => .undefOp25 rd opnd
  | 26 => decodeReturn (modeField w) rd rx
  | 27 => .undefOp27 rd opnd
  | 28 => .undefOp28 rd opnd
  | 29 => .undefOp29 rd opnd
  | 30 => .svc
  | _ => .halt

/-- Why bytes do not decode. -/
inductive DecodeError where
  /-- The list ends before the instruction does. -/
  | truncated
deriving DecidableEq, Repr

/-- The word of two bytes, the first one at the lower address (20_memory.md R68). -/
def wordOfBytes (hi lo : Byte) : Word := hi ++ lo

/-- The two bytes of a word, in address order (R68). -/
def bytesOfWord (w : Word) : List Byte := [w.extractLsb' 8 8, w.extractLsb' 0 8]

/-- Decode the instruction at the head of a list of bytes and give the rest (R110, R116). -/
def decode : List Byte → Except DecodeError (Instr × List Byte)
  | b0 :: b1 :: rest =>
    let w := wordOfBytes b0 b1
    if hasExtension w then
      match rest with
      | b2 :: b3 :: rest' => .ok (decodeWords w (wordOfBytes b2 b3), rest')
      | _ => .error .truncated
    else .ok (decodeWords w 0, rest)
  | _ => .error .truncated

/-- The decoder on an instruction given as the opcode table numbers its bits: the first word in bits 15..0, the
extension word in bits 31..16, every bit above `nbits` zero. -/
def decodeTableWord (nbits w : Nat) : Option Instr :=
  let v := w % 2 ^ nbits
  match decode (bytesOfWord (BitVec.ofNat 16 v) ++ bytesOfWord (BitVec.ofNat 16 (v / 2 ^ 16))) with
  | .ok (i, _) => some i
  | .error _ => none

/-! ### Encoding -/

/-- The index of a register (10_state.md R21, R23 to R26). -/
def Reg.toBits : Reg → BitVec 4
  | .g n => BitVec.ofNat 4 n.val
  | .fp => 12
  | .sp => 13
  | .usp => 14
  | .flag => 15

/-- A first word from its four fields (R100). -/
def firstWord (op : BitVec 5) (mode : BitVec 3) (rd rx : BitVec 4) : Word := op ++ mode ++ rd ++ rx

/-- The mode number of an operand (R102). -/
def Operand.mode : Operand → BitVec 3
  | .direct _ => 0
  | .indexed _ _ => 1
  | .immediate _ => 2
  | .fpRel _ => 3
  | .register _ => 4
  | .shortImm _ => 5
  | .indirect _ => 6
  | .byteIndirect _ => 7

/-- The rx field of an operand (R106, R111); zero where the mode ignores it. -/
def Operand.rxBits : Operand → BitVec 4
  | .direct _ => 0
  | .indexed _ rx => rx.toBits
  | .immediate _ => 0
  | .fpRel d => BitVec.ofInt 4 (d / 2)
  | .register rx => rx.toBits
  | .shortImm v => BitVec.ofInt 4 v
  | .indirect rx => rx.toBits
  | .byteIndirect rx => rx.toBits

/-- The extension word of an operand, if its mode has one (R101). -/
def Operand.extWords : Operand → List Word
  | .direct e => [e]
  | .indexed e _ => [e]
  | .immediate e => [e]
  | .fpRel _ => []
  | .register _ => []
  | .shortImm _ => []
  | .indirect _ => []
  | .byteIndirect _ => []

/-- The words of an operation with an operand: the first word, then the extension word if there is one. -/
def operandWords (op : BitVec 5) (rd : BitVec 4) (o : Operand) : List Word :=
  firstWord op o.mode rd o.rxBits :: o.extWords

/-- The words of an instruction (R104, R107, R108, R117). Ignored fields are zero, but for HALT, whose canonical word
is 0xFF00. -/
def encode : Instr → List Word
  | .nop => [firstWord 0 0 0 0]
  | .ld rd o => operandWords 1 rd.toBits o
  | .st rd o => operandWords 2 rd.toBits o
  | .add rd o => operandWords 3 rd.toBits o
  | .sub rd o => operandWords 4 rd.toBits o
  | .cmp rd o => operandWords 5 rd.toBits o
  | .and rd o => operandWords 6 rd.toBits o
  | .or rd o => operandWords 7 rd.toBits o
  | .xor rd o => operandWords 8 rd.toBits o
  | .adds rd o => operandWords 9 rd.toBits o
  | .mul rd o => operandWords 10 rd.toBits o
  | .div rd o => operandWords 11 rd.toBits o
  | .mod rd o => operandWords 12 rd.toBits o
  | .shla rd o => operandWords 16 rd.toBits o
  | .shll rd o => operandWords 17 rd.toBits o
  | .shra rd o => operandWords 18 rd.toBits o
  | .shrl rd o => operandWords 19 rd.toBits o
  | .jz o => operandWords 20 0 o
  | .jc o => operandWords 20 1 o
  | .jm o => operandWords 20 2 o
  | .jo o => operandWords 20 3 o
  | .jgt o => operandWords 20 4 o
  | .jge o => operandWords 20 5 o
  | .jle o => operandWords 20 6 o
  | .jlt o => operandWords 20 7 o
  | .jnz o => operandWords 20 8 o
  | .jnc o => operandWords 20 9 o
  | .jnm o => operandWords 20 10 o
  | .jno o => operandWords 20 11 o
  | .jhi o => operandWords 20 12 o
  | .jls o => operandWords 20 13 o
  | .jmp o => operandWords 20 15 o
  | .call o => operandWords 21 0 o
  | .ioIn rd o => operandWords 22 rd.toBits o
  | .ioOut rd o => operandWords 23 rd.toBits o
  | .push rd => [firstWord 24 0 rd.toBits 0]
  | .pop rd => [firstWord 24 4 rd.toBits 0]
  | .ret => [firstWord 26 0 0 0]
  | .reti => [firstWord 26 4 0 0]
  | .svc => [firstWord 30 0 0 0]
  | .halt => [firstWord 31 7 0 0]
  | .undefOp13 rd o => operandWords 13 rd.toBits o
  | .undefOp14 rd o => operandWords 14 rd.toBits o
  | .undefOp15 rd o => operandWords 15 rd.toBits o
  | .undefOp25 rd o => operandWords 25 rd.toBits o
  | .undefOp27 rd o => operandWords 27 rd.toBits o
  | .undefOp28 rd o => operandWords 28 rd.toBits o
  | .undefOp29 rd o => operandWords 29 rd.toBits o
  | .undefJump14 o => operandWords 20 14 o
  | .undefStack1 rd rx => [firstWord 24 1 rd.toBits rx.toBits]
  | .undefStack2 rd rx => [firstWord 24 2 rd.toBits rx.toBits]
  | .undefStack3 rd rx => [firstWord 24 3 rd.toBits rx.toBits]
  | .undefStack5 rd rx => [firstWord 24 5 rd.toBits rx.toBits]
  | .undefStack6 rd rx => [firstWord 24 6 rd.toBits rx.toBits]
  | .undefStack7 rd rx => [firstWord 24 7 rd.toBits rx.toBits]
  | .undefReturn1 rd rx => [firstWord 26 1 rd.toBits rx.toBits]
  | .undefReturn2 rd rx => [firstWord 26 2 rd.toBits rx.toBits]
  | .undefReturn3 rd rx => [firstWord 26 3 rd.toBits rx.toBits]
  | .undefReturn5 rd rx => [firstWord 26 5 rd.toBits rx.toBits]
  | .undefReturn6 rd rx => [firstWord 26 6 rd.toBits rx.toBits]
  | .undefReturn7 rd rx => [firstWord 26 7 rd.toBits rx.toBits]

/-- The bytes of an instruction in address order (20_memory.md R68). -/
def encodeBytes (i : Instr) : List Byte := (encode i).flatMap bytesOfWord

end Sys2Proof
end

