-- ==== Sys2Proof/Config.lean ====
section
/-! DEFINITION. The parameters the spec leaves to the implementation (00_scope.md R7) and the free values of the
environment (60_exceptions.md R340, 20_memory.md R88). A machine carries its `Config` beside its state (log 1), so a
statement about every state is a statement about every choice of the parameters. -/

namespace Sys2Proof

/-- A slot of the interrupt controller, 0..15 (10_state.md R36). -/
abbrev IntrNum := Fin 16

/-- `NOEA_POLICY` (40_cycle.md R140): what ST, a jump, CALL, IN or OUT does in a mode without an effective address. -/
inductive NoEaPolicy where
  | literal
  | undefinedTrap
deriving DecidableEq, Repr

/-- `SHIFT_C_TEST` (42_alu.md R203): which value is compared with 1 before a shift sets C. -/
inductive ShiftCTest where
  | count
  | operand
deriving DecidableEq, Repr

/-- `SUB_V_RULE` (42_alu.md R201): the overflow formula of SUB and CMP. -/
inductive SubVRule where
  | standard
  | addFormula
deriving DecidableEq, Repr

/-- `PC_OVERFLOW` (10_state.md R35): what an advance of pc past 0xFFFF does. -/
inductive PcOverflow where
  | wrap
  | fault
deriving DecidableEq, Repr

/-- The device read operations a slot can be bound to (20_memory.md R85). `other` stands for an operation of a platform
whose `IO_MAP` is not the informative table, and for the source's read-only identification and mode registers. -/
inductive DeviceRead where
  | timer0Counter
  | timer0Flag
  | timer1Counter
  | timer1Flag
  | serialReceive
  | serialStatus
  | storageStatus
  | storageBufferAddress
  | storageSectorHigh
  | storageSectorLow
  | consoleDataSwitches
  | consoleAddressRegister
  | consoleRotarySwitch
  | consoleFunctionSwitch
  | other (n : Nat)
deriving DecidableEq, Repr

/-- The device write operations a slot can be bound to (20_memory.md R85). -/
inductive DeviceWrite where
  | timer0Cycle
  | timer0Control
  | timer1Cycle
  | timer1Control
  | serialSend
  | serialControl
  | storageControl
  | storageBufferAddress
  | storageSectorHigh
  | storageSectorLow
  | consoleDataLeds
  | other (n : Nat)
deriving DecidableEq, Repr

/-- A row of `IO_MAP`: a slot address with at most one read and at most one write operation (20_memory.md R81). -/
structure IoSlot where
  addr  : Word
  read  : Option DeviceRead
  write : Option DeviceWrite
deriving DecidableEq, Repr

/-- The named parameters of 00_scope.md R7. `iplImage` lists the words of `IPL_IMAGE` from word 0 on; the words it does
not reach are zero and words past 4096 are not part of the image (log 4). `iplDetach` may be any 16-bit I/O address, odd or
at or above 0x100 too (DESIGN CHOICE, log 24). -/
structure Config where
  noEaPolicy  : NoEaPolicy
  shiftCTest  : ShiftCTest
  subVRule    : SubVRule
  pcOverflow  : PcOverflow
  excFirst    : IntrNum
  intrZdiv    : IntrNum
  intrPriv    : IntrNum
  intrUndef   : IntrNum
  intrSvc     : IntrNum
  ioPrivCheck : Bool
  ioMap       : List IoSlot
  iplImage    : List Word
  iplDetach   : Option Word
deriving DecidableEq, Repr

namespace Config

/-- The informative slot map of 20_memory.md R85 (marked "unverified" there; log 13). -/
def informativeIoMap : List IoSlot :=
  [ ⟨0x00, some .timer0Counter, some .timer0Cycle⟩,
    ⟨0x02, some .timer0Flag, some .timer0Control⟩,
    ⟨0x04, some .timer1Counter, some .timer1Cycle⟩,
    ⟨0x06, some .timer1Flag, some .timer1Control⟩,
    ⟨0x08, some .serialReceive, some .serialSend⟩,
    ⟨0x0A, some .serialStatus, some .serialControl⟩,
    ⟨0x10, some .storageStatus, some .storageControl⟩,
    ⟨0x12, some .storageBufferAddress, some .storageBufferAddress⟩,
    ⟨0x14, some .storageSectorHigh, some .storageSectorHigh⟩,
    ⟨0x16, some .storageSectorLow, some .storageSectorLow⟩,
    ⟨0xF8, some .consoleDataSwitches, some .consoleDataLeds⟩,
    ⟨0xFA, some .consoleAddressRegister, none⟩,
    ⟨0xFC, some .consoleRotarySwitch, none⟩,
    ⟨0xFE, some .consoleFunctionSwitch, none⟩ ]

/-- The defaults of 00_scope.md R7. `IPL_IMAGE` has no default in the spec: the all-zero image is the model's
(DESIGN CHOICE, log 4). -/
def default : Config where
  noEaPolicy  := .literal
  shiftCTest  := .count
  subVRule    := .standard
  pcOverflow  := .wrap
  excFirst    := 11
  intrZdiv    := 12
  intrPriv    := 13
  intrUndef   := 14
  intrSvc     := 15
  ioPrivCheck := true
  ioMap       := informativeIoMap
  iplImage    := []
  iplDetach   := none

/-- An even address below 0x100: the only addresses that can be bound (20_memory.md R81, R84). -/
def isSlotAddress (a : Word) : Bool :=
  a.toNat < 0x100 && a.toNat % 2 == 0

/-- The ranges R7 gives its parameters: `EXC_FIRST` in 8..12, the four exception numbers distinct and at least
`EXC_FIRST`, every row of `IO_MAP` at a slot address and no address twice, an image of at most 4096 words. `IPL_DETACH` is
not bounded: the spec leaves open whether it may be odd or at or above 0x100 (DESIGN CHOICE, log 24). -/
def wf (c : Config) : Bool :=
  decide (8 ≤ c.excFirst.val) && decide (c.excFirst.val ≤ 12)
    && [c.intrZdiv, c.intrPriv, c.intrUndef, c.intrSvc].all (fun n => decide (c.excFirst ≤ n))
    && decide [c.intrZdiv, c.intrPriv, c.intrUndef, c.intrSvc].Nodup
    && c.ioMap.all (fun r => isSlotAddress r.addr)
    && decide (c.ioMap.map IoSlot.addr).Nodup
    && decide (c.iplImage.length ≤ 4096)

/-- FREE VALUE: the word the `n`-th draw of a run returns for a device read (R82, R340, U11; log 6). -/
opaque deviceWord : DeviceRead → Nat → Word

/-- FREE VALUE: the byte the `n`-th draw returns for the serial receive operation, whose contract is
`receive() -> byte` (R89, R340; log 7). -/
opaque serialByte : Nat → Byte

/-- FREE VALUE: whether the OUT to a storage slot that makes the `n`-th draw moves a sector into memory, and its bytes
(R88, D22, U12; log 8). -/
opaque sectorTransfer : Nat → Option (Vector Byte 512)

end Config

end Sys2Proof
end

