-- ==== Sys2Proof/Machine/Memory.lean ====
section
/-! DEFINITION. Memory as plain data: the list of the (address, byte) pairs that are not zero, addresses strictly rising
(20_memory.md R60). An address that is not listed reads as zero (DESIGN CHOICE for RAM after power-on, log 3). These are
the raw operations on the array; the boot overlay and the 16-bit address wrap are in Ops.lean. -/

namespace Sys2Proof.Machine

open Sys2Proof

/-- The 65536 bytes of memory (R60). -/
abbrev Memory := List Host.Cell

namespace Memory

/-- What an address that is not listed reads as (log 3). -/
def blankByte : Byte := 0

/-- The byte at an address: the listed one, or `blankByte`. -/
def read : Memory → Nat → Byte
  | [], _ => blankByte
  | (b, v) :: rest, a => if a = b then v else read rest a

/-- Drop every pair at address `a`, so that it reads as `blankByte`. -/
def erase (m : Memory) (a : Nat) : Memory := m.filter (fun c => !(c.1 == a))

/-- List `v` at address `a`, which must not be listed yet, in its place. -/
def insert : Memory → Nat → Byte → Memory
  | [], a, v => [(a, v)]
  | (b, u) :: rest, a, v => if a < b then (a, v) :: (b, u) :: rest else (b, u) :: insert rest a v

/-- Store a byte and keep the canonical form. -/
def write (m : Memory) (a : Nat) (v : Byte) : Memory :=
  if v = blankByte then erase m a else insert (erase m a) a v

/-- Zero every byte at or above `a` (20_memory.md R65). -/
def zeroFrom (m : Memory) (a : Nat) : Memory := m.filter (fun c => decide (c.1 < a))

/-- Store words one after the other from address `a` on, high byte first (20_memory.md R64, R68). -/
def loadWords (m : Memory) (a : Nat) : List Word → Memory
  | [] => m
  | w :: ws => loadWords ((m.write a (w.extractLsb' 8 8)).write (a + 1) (w.extractLsb' 0 8)) (a + 2) ws

/-- The first address of the boot window (20_memory.md R62). -/
def windowBase : Nat := 0xE000

/-- `LoadIpl` on the array (20_memory.md R64): the 4096 words of the image over the whole window. -/
def loadIpl (m : Memory) (image : List Word) : Memory :=
  (m.zeroFrom windowBase).loadWords windowBase (image.take 4096)

/-- The canonical form: addresses inside the space and strictly rising, no entry equal to what an unlisted address
reads as. -/
def wf : Memory → Bool
  | [] => true
  | [(a, v)] => decide (a < 0x10000) && decide (v ≠ blankByte)
  | (a, v) :: (b, u) :: rest => decide (a < b) && decide (v ≠ blankByte) && wf ((b, u) :: rest)

end Memory

end Sys2Proof.Machine
end

