-- ==== Sys2Proof/Machine/State.lean ====
section
/-! DEFINITION. The state of the machine (10_state.md R20), the ways a step can stop, and the state after reset
(10_state.md R39). -/

namespace Sys2Proof.Machine

open Sys2Proof

/-- An access of the core to a bound I/O slot, as the device sees it (20_memory.md R82, R83; log 10). -/
inductive IoEvent where
  | read (slot : Word) (op : DeviceRead) (value : Word)
  | write (slot : Word) (op : DeviceWrite) (value : Word)
deriving DecidableEq, Repr

/-- The environment as the core meets it: the model's own fields, not the spec's state.
`draws` counts the values drawn from devices so far (log 6).
`arrivals` lists, for each coming cycle in order, the slots devices request before it (60_exceptions.md R341; log 9).
`ioTrace` lists the device accesses performed, the latest first (log 10).
`storageBuffer` is the storage controller's buffer address: what an OUT last wrote to its slot (20_memory.md R88; log 8). -/
structure Env where
  draws         : Nat
  arrivals      : List (List IntrNum)
  ioTrace       : List IoEvent
  storageBuffer : Word
deriving DecidableEq, Repr

/-- The architectural state (R20) with the parameters `cfg` (00_scope.md R7, log 1) and the environment `env`. -/
structure State where
  /-- G0..G11 (R21). -/
  g       : Vector Word 12
  /-- The frame pointer (R23). -/
  fp      : Word
  /-- The supervisor stack pointer (R24). -/
  ssp     : Word
  /-- The user stack pointer (R24, R25). -/
  usp     : Word
  /-- The program counter (R29). -/
  pc      : Word
  /-- The flag byte (R31). -/
  flags   : Byte
  /-- Memory (20_memory.md R60). -/
  mem     : Memory
  /-- The boot overlay flag (R37). -/
  iplMode : Bool
  /-- The pending slots (R36). -/
  pend    : Vector Bool 16
  /-- Set by HALT (R38). -/
  halted  : Bool
  /-- The parameters of the machine; no step changes them. -/
  cfg     : Config
  /-- The environment. -/
  env     : Env
deriving DecidableEq, Repr

/-- The ways a step stops without a next state. No instruction raises one: both come from `step` itself. -/
inductive Fault where
  /-- Raised by `step` on a halted core: it takes no step until reset (70_reset_and_hazards.md R353, behaviour U27
  "stuck"; log 11). Safe: nothing is claimed of the run after it. -/
  | halted
  /-- Raised by `step` when an advance of pc would pass 0xFFFF and `PC_OVERFLOW` is `fault` (10_state.md R35, U7;
  log 12). Safe: the spec gives no outcome there. -/
  | pcOverflow
deriving DecidableEq, Repr

/-- The reasons for which a step has no meaning. -/
inductive Refusal where
  /-- Raised by an arm of `exec` whose instruction has no meaning in the model; no arm is left that raises it. Safe:
  nothing is claimed of such an instruction. -/
  | notModelled (mnemonic : String)
deriving DecidableEq, Repr

namespace State

/-! ### Updates of one field -/

def setG (s : State) (n : Fin 12) (v : Word) : State := { s with g := s.g.set n v }
def setFp (s : State) (v : Word) : State := { s with fp := v }
def setSsp (s : State) (v : Word) : State := { s with ssp := v }
def setUsp (s : State) (v : Word) : State := { s with usp := v }
def setPc (s : State) (v : Word) : State := { s with pc := v }
def setFlags (s : State) (b : Byte) : State := { s with flags := b }
def setMem (s : State) (m : Memory) : State := { s with mem := m }
def setIplMode (s : State) (b : Bool) : State := { s with iplMode := b }
def setPend (s : State) (p : Vector Bool 16) : State := { s with pend := p }
def setHalted (s : State) (b : Bool) : State := { s with halted := b }
def setEnv (s : State) (e : Env) : State := { s with env := e }

/-- The state right after reset (10_state.md R39, 70_reset_and_hazards.md R350). The spec leaves G0..G11, FP, SSP, USP
and RAM below 0xE000 unspecified (zero here: DESIGN CHOICE, log 2 and log 3) and IPL_IMAGE to the model's user (all zero
here, so nothing is listed: DESIGN CHOICE, log 4). The fields of `env` at reset are DESIGN CHOICE too (logs 6, 8, 9, 10). -/
def reset : State where
  g       := Vector.replicate 12 0
  fp      := 0
  ssp     := 0
  usp     := 0
  pc      := 0xE000
  flags   := 0x40
  mem     := []
  iplMode := true
  pend    := Vector.replicate 16 false
  halted  := false
  cfg     := Config.default
  env     := { draws := 0, arrivals := [], ioTrace := [], storageBuffer := 0 }

end State

end Sys2Proof.Machine
end

