-- ==== Sys2Proof/Machine/Flags.lean ====
section
/-! DEFINITION. The flag byte (10_state.md R31 to R34) and the ALU's integer function and flag update (42_alu.md R180 to
R186, R200 to R203). -/

namespace Sys2Proof.Machine

open Sys2Proof

/-! ### The flag byte -/

/-- The seven named flags and the reserved bit (R31). -/
inductive Flag where
  | e
  | p
  | i
  | reserved
  | v
  | c
  | s
  | z
deriving DecidableEq, Repr

/-- The bit position of a flag (R31). -/
def Flag.bit : Flag → Nat
  | .e => 7
  | .p => 6
  | .i => 5
  | .reserved => 4
  | .v => 3
  | .c => 2
  | .s => 1
  | .z => 0

/-- A flag of a flag byte (R31). -/
def flagIn (b : Byte) (f : Flag) : Bool := b.getLsbD f.bit

/-- A flag of the machine. -/
def State.flag (s : State) (f : Flag) : Bool := flagIn s.flags f

/-- Privileged mode: P = 1 (60_exceptions.md R335). -/
def State.privileged (s : State) : Bool := s.flag .p

/-- The byte with V, C, S and Z written and the upper nibble kept (42_alu.md R200). -/
def withVCSZ (b : Byte) (v c s z : Bool) : Byte :=
  (b &&& 0xF0) ||| (bif v then 0x08 else 0) ||| (bif c then 0x04 else 0) ||| (bif s then 0x02 else 0)
    ||| (bif z then 0x01 else 0)

/-- `WriteFlags(b)` on a flag byte: the whole byte when P = 1, only V, C, S and Z when P = 0; the mask is chosen by the P
before the write (10_state.md R33). -/
def maskedFlags (old new : Byte) : Byte :=
  if flagIn old .p then new else (old &&& 0xF0) ||| (new &&& 0x0F)

/-- The flag byte after interrupt entry: E cleared, P set, the rest kept (60_exceptions.md R320). -/
def entryFlags (b : Byte) : Byte := (b &&& 0x7F) ||| 0x40

/-! ### The ALU -/

/-- The operations of the ALU group (42_alu.md R182). -/
inductive AluOp where
  | add
  | sub
  | cmp
  | and
  | or
  | xor
  | adds
  | mul
  | div
  | mod
  | shla
  | shll
  | shra
  | shrl
deriving DecidableEq, Repr

/-- The shift count: the low 4 bits of the second operand (R181, R183). -/
def shiftCount (v2 : Word) : Nat := (v2.extractLsb' 0 4).toNat

/-- The full-precision result of an operation (R180, R182, R186). -/
def aluResult (op : AluOp) (v1 v2 : Word) : Int :=
  match op with
  | .add => v1.toNat + v2.toNat
  | .sub => v1.toNat - v2.toNat
  | .cmp => v1.toNat - v2.toNat
  | .and => (v1 &&& v2).toNat
  | .or => (v1 ||| v2).toNat
  | .xor => (v1 ^^^ v2).toNat
  | .adds => v1.toNat + v2.toNat * 2
  | .mul => v1.toNat * v2.toNat
  | .div => if v2 = 0 then 0 else v1.toNat / v2.toNat
  | .mod => if v2 = 0 then 0 else v1.toNat - v2.toNat * (v1.toNat / v2.toNat)
  | .shla => v1.toNat * 2 ^ shiftCount v2
  | .shll => v1.toNat * 2 ^ shiftCount v2
  | .shra => v1.toInt / 2 ^ shiftCount v2
  | .shrl => v1.toNat / 2 ^ shiftCount v2

/-- `trunc16` (00_scope.md R9). -/
def trunc16 (r : Int) : Word := BitVec.ofInt 16 r

/-- `bit16` (R9): bit 16 of the two's-complement representation. -/
def bit16 (r : Int) : Bool := r / 65536 % 2 == 1

/-- Whether DIV or MOD has a zero divisor (R184). -/
def dividesByZero (op : AluOp) (v2 : Word) : Bool :=
  match op with
  | .div => v2 == 0
  | .mod => v2 == 0
  | .add | .sub | .cmp | .and | .or | .xor | .adds | .mul | .shla | .shll | .shra | .shrl => false

/-- The V flag of an operation whose truncated result is `t` (R200, R201). -/
def overflowOf (rule : SubVRule) (op : AluOp) (v1 v2 t : Word) : Bool :=
  match op with
  | .add => v1.msb == v2.msb && t.msb != v1.msb
  | .sub | .cmp =>
    match rule with
    | .standard => v1.msb != v2.msb && t.msb != v1.msb
    | .addFormula => v1.msb == v2.msb && t.msb != v1.msb
  | .and | .or | .xor | .adds | .mul | .div | .mod | .shla | .shll | .shra | .shrl => false

/-- Whether a shift's operand passes the count-is-one test (R203). -/
def shiftCountIsOne (test : ShiftCTest) (v2 : Word) : Bool :=
  match test with
  | .count => shiftCount v2 == 1
  | .operand => v2 == 1

/-- The C flag of an operation whose full-precision result is `r` (R200, R203). -/
def carryOf (test : ShiftCTest) (op : AluOp) (v2 : Word) (r : Int) : Bool :=
  match op with
  | .add | .sub | .cmp => bit16 r
  | .shla | .shll | .shra | .shrl => shiftCountIsOne test v2 && bit16 r
  | .and | .or | .xor | .adds | .mul | .div | .mod => false

/-- `FlagUpdate` on a flag byte (R200). -/
def flagUpdate (cfg : Config) (op : AluOp) (v1 v2 : Word) (r : Int) (b : Byte) : Byte :=
  let t := trunc16 r
  withVCSZ b (overflowOf cfg.subVRule op v1 v2 t) (carryOf cfg.shiftCTest op v2 r) t.msb (t == 0)

end Sys2Proof.Machine
end

