-- ==== Sys2Proof/Machine/Ops.lean ====
section
/-! DEFINITION. The named operations over the state: registers, memory under the boot overlay, the stack, the interrupt
controller, trap entry and return, the I/O space, pc, reset. -/

namespace Sys2Proof.Machine

open Sys2Proof

namespace State

/-! ### Registers (10_state.md R21 to R28) -/

/-- `x[r]`: index 13 reads the bank P selects, index 15 the zero-extended flag byte (R24, R26, R27). -/
def readReg (s : State) : Reg → Word
  | .g n => s.g[n.val]
  | .fp => s.fp
  | .sp => if s.privileged then s.ssp else s.usp
  | .usp => s.usp
  | .flag => s.flags.setWidth 16

/-- `WriteFlags(b)` (R33). -/
def writeFlags (s : State) (b : Byte) : State := s.setFlags (maskedFlags s.flags b)

/-- `x[r] <- v`: index 13 writes the bank P selects, index 15 performs `WriteFlags(v[7:0])` (R24, R26, R27). -/
def writeReg (s : State) (r : Reg) (v : Word) : State :=
  match r with
  | .g n => s.setG n v
  | .fp => s.setFp v
  | .sp => if s.privileged then s.setSsp v else s.setUsp v
  | .usp => s.setUsp v
  | .flag => s.writeFlags (v.extractLsb' 0 8)

/-! ### Memory (20_memory.md R61 to R70) -/

/-- `MemRead(a, 1)` (R61). -/
def readByte (s : State) (a : Word) : Byte := s.mem.read a.toNat

/-- `MemRead(a, 2)`: big-endian, the second address wraps (R61, R68, R70). -/
def readWord (s : State) (a : Word) : Word := wordOfBytes (s.readByte a) (s.readByte (a + 1))

/-- Whether the boot overlay rejects a write to `a` (R63). -/
def writeRejected (s : State) (a : Word) : Bool := s.iplMode && decide (Memory.windowBase ≤ a.toNat)

/-- `MemWrite(a, 1, b)` (R63, R67). -/
def writeByte (s : State) (a : Word) (b : Byte) : State :=
  if s.writeRejected a then s else s.setMem (s.mem.write a.toNat b)

/-- `MemWrite(a, 2, v)`: two byte writes, each checked on its own (R67). -/
def writeWord (s : State) (a v : Word) : State :=
  (s.writeByte a (v.extractLsb' 8 8)).writeByte (a + 1) (v.extractLsb' 0 8)

/-- Byte writes to consecutive addresses, wrapping (R88 through R67). -/
def writeBytes (s : State) (a : Word) : List Byte → State
  | [] => s
  | b :: bs => (s.writeByte a b).writeBytes (a + 1) bs

/-! ### The stack (44_stack.md R270, R271) -/

/-- `Push(v)` on the active stack (R270). -/
def pushWord (s : State) (v : Word) : State :=
  let sp := s.readReg .sp - 2
  (s.writeReg .sp sp).writeWord sp v

/-- `Pop()` from the active stack: the value and the state after it (R271). -/
def popWord (s : State) : Word × State :=
  let sp := s.readReg .sp
  (s.readWord sp, s.writeReg .sp (sp + 2))

/-! ### The interrupt controller (60_exceptions.md R311 to R318) -/

/-- `raise Exc(n)` (R311). -/
def raise (s : State) (n : IntrNum) : State := s.setPend (s.pend.set n true)

/-- Every slot, in ascending order. -/
def slots : List IntrNum := [0, 1, 2, 3, 4, 5, 6, 7, 8, 9, 10, 11, 12, 13, 14, 15]

/-- The order in which slots are looked at: the exception slots ascending, then the ordinary slots ascending (R313). -/
def scanOrder (cfg : Config) : List IntrNum :=
  slots.filter (fun n => decide (cfg.excFirst ≤ n)) ++ slots.filter (fun n => decide (n < cfg.excFirst))

/-- `ExceptionPending()` (R312). -/
def exceptionPending (s : State) : Bool :=
  slots.any (fun n => decide (s.cfg.excFirst ≤ n) && s.pend[n.val])

/-- The slot `CheckIntrNum()` returns, if any (R313). -/
def nextIntr (s : State) : Option IntrNum := (scanOrder s.cfg).find? (fun n => s.pend[n.val])

/-- `CheckIntrNum()`: the slot it returns and the state with that slot cleared (R313). -/
def checkIntrNum (s : State) : Option IntrNum × State :=
  match s.nextIntr with
  | some n => (some n, s.setPend (s.pend.set n false))
  | none => (none, s)

/-- The address of a slot's vector (R321). -/
def vectorAddress (n : IntrNum) : Word := 0xFFE0 + BitVec.ofNat 16 (2 * n.val)

/-- The push of interrupt entry, on the supervisor stack whatever P is (R320). -/
def pushSupervisor (s : State) (v : Word) : State :=
  let sp := s.ssp - 2
  (s.setSsp sp).writeWord sp v

/-- `Enter(n)`: push the flags, then pc, on the supervisor stack; clear E, set P; jump through the vector (R320). -/
def enter (s : State) (n : IntrNum) : State :=
  let s1 := (s.pushSupervisor (s.flags.setWidth 16)).pushSupervisor s.pc
  let s2 := s1.setFlags (entryFlags s1.flags)
  s2.setPc (s2.readWord (vectorAddress n))

/-- The return from a trap: pop pc, pop the flags word, write it through the mask (43_control.md R252, R331). -/
def returnFromTrap (s : State) : State :=
  let pc := s.popWord
  let f := pc.2.popWord
  (f.2.setPc pc.1).writeFlags (f.1.extractLsb' 0 8)

/-- `InterruptCheck()`: E lets every slot through, an exception is taken whatever E is (R316). -/
def interruptCheck (s : State) : State :=
  if s.flag .e || s.exceptionPending then
    match s.checkIntrNum.1 with
    | some n => s.checkIntrNum.2.enter n
    | none => s.checkIntrNum.2
  else s

/-! ### Device requests (R341; log 9) -/

/-- A device requests slot `n`: devices set ordinary slots only. -/
def deviceRequest (s : State) (n : IntrNum) : State :=
  if n < s.cfg.excFirst then s.raise n else s

/-- Several requests, in order. -/
def deviceRequests (s : State) : List IntrNum → State
  | [] => s
  | n :: ns => (s.deviceRequest n).deviceRequests ns

/-- Apply the requests that arrive before this cycle (R370 "apply queued device requests"). -/
def takeArrivals (s : State) : State :=
  match s.env.arrivals with
  | [] => s
  | ns :: rest => (s.setEnv { s.env with arrivals := rest }).deviceRequests ns

/-! ### The boot overlay and reset (20_memory.md R64, R65; 70_reset_and_hazards.md R350) -/

/-- `DetachIpl()` (R65). -/
def detachIpl (s : State) : State :=
  (s.setMem (s.mem.zeroFrom Memory.windowBase)).setIplMode false

/-- `Reset()` on a machine in any state: what the spec leaves unspecified keeps its value (R350; log 21). -/
def performReset (s : State) : State :=
  (((((s.setMem (s.mem.loadIpl s.cfg.iplImage)).setIplMode true).setPc 0xE000).setFlags 0x40).setPend
    (Vector.replicate 16 false)).setHalted false

/-! ### The I/O space (20_memory.md R80 to R87) -/

/-- The row of `IO_MAP` for an I/O address; an odd address or one at or above 0x100 has none (R81, R84). -/
def ioSlot (s : State) (a : Word) : Option IoSlot :=
  if Config.isSlotAddress a then s.cfg.ioMap.find? (fun r => r.addr == a) else none

/-- The device read bound at an I/O address. -/
def boundRead (s : State) (a : Word) : Option DeviceRead := (s.ioSlot a).bind IoSlot.read

/-- The device write bound at an I/O address. -/
def boundWrite (s : State) (a : Word) : Option DeviceWrite := (s.ioSlot a).bind IoSlot.write

/-- The free value a device read returns on draw `n`: a byte for the serial receive operation, a word for the others
(R82, R89, R340; log 6 and log 7). -/
def deviceValue (op : DeviceRead) (n : Nat) : Word :=
  match op with
  | .serialReceive => (Config.serialByte n).setWidth 16
  | op => Config.deviceWord op n

/-- Whether a device write is one of the storage controller's (R85, R88). -/
def isStorageWrite : DeviceWrite → Bool
  | .storageControl | .storageBufferAddress | .storageSectorHigh | .storageSectorLow => true
  | .timer0Cycle | .timer0Control | .timer1Cycle | .timer1Control | .serialSend | .serialControl | .consoleDataLeds
  | .other _ => false

/-- `IoRead(a)`: the value and the state after the device read (R82, R84). -/
def ioRead (s : State) (a : Word) : Word × State :=
  match s.boundRead a with
  | some op =>
    let v := deviceValue op s.env.draws
    (v, s.setEnv { s.env with draws := s.env.draws + 1, ioTrace := .read a op v :: s.env.ioTrace })
  | none => (0, s)

/-- The device side of a write: it is recorded, and a write of the buffer-address slot sets the storage controller's buffer
address (R83, R88; log 8 and log 10). -/
def recordWrite (s : State) (a : Word) (op : DeviceWrite) (v : Word) : State :=
  s.setEnv { s.env with
    ioTrace := .write a op v :: s.env.ioTrace
    storageBuffer := if op = .storageBufferAddress then v else s.env.storageBuffer }

/-- The sector a storage write may move into memory at the controller's buffer address; whether it does, and the bytes, are a
free value (R88, U12; log 8). -/
def sectorEffect (s : State) (op : DeviceWrite) : State :=
  if isStorageWrite op then
    let s1 := s.setEnv { s.env with draws := s.env.draws + 1 }
    match Config.sectorTransfer s.env.draws with
    | some bytes => s1.writeBytes s.env.storageBuffer bytes.toList
    | none => s1
  else s

/-- The device write an OUT performs, with the sector transfer it may cause (R83, R84, R88). -/
def deviceWrite (s : State) (a v : Word) : State :=
  match s.boundWrite a with
  | some op => (s.recordWrite a op v).sectorEffect op
  | none => s

/-- `IoWrite(a, v)`: the device write, and the detach when `IPL_DETACH` is `a` (R83, R87). DESIGN CHOICE where the spec is
open: the detach comes last (log 14), and it happens at an odd `IPL_DETACH` or one at or above 0x100 too (log 24). -/
def ioWrite (s : State) (a v : Word) : State :=
  let s1 := s.deviceWrite a v
  if s.cfg.iplDetach = some a then s1.detachIpl else s1

/-- Whether IN and OUT are refused to the code that runs now (45_system_io.md R290 to R292). -/
def ioForbidden (s : State) : Bool := s.cfg.ioPrivCheck && !s.flag .p && !s.flag .i

end State

/-! ### The program counter (10_state.md R29, R30, R35) -/

/-- `NextPC(p)` (R35). -/
def nextPc (policy : PcOverflow) (p : Word) : Except Fault Word :=
  match policy with
  | .wrap => .ok (p + 2)
  | .fault => if p.toNat + 2 < 0x10000 then .ok (p + 2) else .error .pcOverflow

/-- Fetch and decode: the instruction at pc, its extension word if it has one, and the state with pc after the whole
instruction (40_cycle.md R130, R131, R139). -/
def State.fetch (s : State) : Except Fault (Instr × State) :=
  let w := s.readWord s.pc
  match nextPc s.cfg.pcOverflow s.pc with
  | .error f => .error f
  | .ok p1 =>
    if hasExtension w then
      match nextPc s.cfg.pcOverflow p1 with
      | .error f => .error f
      | .ok p2 => .ok (decodeWords w (s.readWord p1), s.setPc p2)
    else .ok (decodeWords w 0, s.setPc p1)

end Sys2Proof.Machine
end

