-- ==== Sys2Proof/Machine/Operands.lean ====
section
/-! DEFINITION. Effective addresses and operands (40_cycle.md R132 to R140). -/

namespace Sys2Proof.Machine

open Sys2Proof

namespace State

/-- The effective address of an operand, modulo 2^16; 0 in the modes that have none (R132 to R137). -/
def effAddr (s : State) : Operand → Word
  | .direct ext => ext
  | .indexed ext rx => ext + s.readReg rx
  | .immediate _ => 0
  | .fpRel d => s.fp + BitVec.ofInt 16 d
  | .register _ => 0
  | .shortImm _ => 0
  | .indirect rx => s.readReg rx
  | .byteIndirect rx => s.readReg rx

/-- The operand's value (R138). -/
def loadOperand (s : State) (o : Operand) : Word :=
  match o with
  | .direct _ => s.readWord (s.effAddr o)
  | .indexed _ _ => s.readWord (s.effAddr o)
  | .immediate ext => ext
  | .fpRel _ => s.readWord (s.effAddr o)
  | .register rx => s.readReg rx
  | .shortImm v => BitVec.ofInt 16 v
  | .indirect _ => s.readWord (s.effAddr o)
  | .byteIndirect _ => (s.readByte (s.effAddr o)).setWidth 16

end State

/-- Whether a mode has an effective address: all but immediate, register and short immediate (R136). -/
def hasEffAddr : Operand → Bool
  | .direct _ | .indexed _ _ | .fpRel _ | .indirect _ | .byteIndirect _ => true
  | .immediate _ | .register _ | .shortImm _ => false

/-- Whether ST, a jump, CALL, IN or OUT executes with this operand: its mode has an effective address, or `NOEA_POLICY`
is `literal` (R140). -/
def State.targetAllowed (s : State) (o : Operand) : Bool :=
  match s.cfg.noEaPolicy with
  | .literal => true
  | .undefinedTrap => hasEffAddr o

/-- Run an operation that uses the effective address as its target, or raise the undefined-operation exception in its
place (R140). -/
def State.withTarget (s : State) (o : Operand) (operation : Word → State → State) : State :=
  if s.targetAllowed o then operation (s.effAddr o) s else s.raise s.cfg.intrUndef

end Sys2Proof.Machine
end

