-- ==== Sys2Proof/Machine/Alu.lean ====
section
/-! DEFINITION. The ALU group (42_alu.md R185, R204, R210 to R223). -/

namespace Sys2Proof.Machine

open Sys2Proof

/-- The common execution of the ALU group: compute, raise on a zero divisor, update the flags, and store back unless the
operation is CMP; the flag update comes first, so a store to index 15 overwrites it (R184, R185, R204). -/
def aluEffect (op : AluOp) (rd : Reg) (src : Operand) (s : State) : State :=
  let v1 := s.readReg rd
  let v2 := s.loadOperand src
  let r := aluResult op v1 v2
  let s1 := if dividesByZero op v2 then s.raise s.cfg.intrZdiv else s
  let s2 := s1.setFlags (flagUpdate s.cfg op v1 v2 r s.flags)
  if op = .cmp then s2 else s2.writeReg rd (trunc16 r)

/-- ADD (R210). -/
def execAdd (rd : Reg) (src : Operand) (s : State) : Host.Outcome State Fault Refusal :=
  .next (aluEffect .add rd src s)

/-- SUB (R211). -/
def execSub (rd : Reg) (src : Operand) (s : State) : Host.Outcome State Fault Refusal :=
  .next (aluEffect .sub rd src s)

/-- CMP (R212). -/
def execCmp (rd : Reg) (src : Operand) (s : State) : Host.Outcome State Fault Refusal :=
  .next (aluEffect .cmp rd src s)

/-- AND (R213). -/
def execAnd (rd : Reg) (src : Operand) (s : State) : Host.Outcome State Fault Refusal :=
  .next (aluEffect .and rd src s)

/-- OR (R214). -/
def execOr (rd : Reg) (src : Operand) (s : State) : Host.Outcome State Fault Refusal :=
  .next (aluEffect .or rd src s)

/-- XOR (R215). -/
def execXor (rd : Reg) (src : Operand) (s : State) : Host.Outcome State Fault Refusal :=
  .next (aluEffect .xor rd src s)

/-- ADDS (R216). -/
def execAdds (rd : Reg) (src : Operand) (s : State) : Host.Outcome State Fault Refusal :=
  .next (aluEffect .adds rd src s)

/-- MUL (R217). -/
def execMul (rd : Reg) (src : Operand) (s : State) : Host.Outcome State Fault Refusal :=
  .next (aluEffect .mul rd src s)

/-- DIV (R218). -/
def execDiv (rd : Reg) (src : Operand) (s : State) : Host.Outcome State Fault Refusal :=
  .next (aluEffect .div rd src s)

/-- MOD (R219). -/
def execMod (rd : Reg) (src : Operand) (s : State) : Host.Outcome State Fault Refusal :=
  .next (aluEffect .mod rd src s)

/-- SHLA (R220). -/
def execShla (rd : Reg) (src : Operand) (s : State) : Host.Outcome State Fault Refusal :=
  .next (aluEffect .shla rd src s)

/-- SHLL (R221). -/
def execShll (rd : Reg) (src : Operand) (s : State) : Host.Outcome State Fault Refusal :=
  .next (aluEffect .shll rd src s)

/-- SHRA (R222). -/
def execShra (rd : Reg) (src : Operand) (s : State) : Host.Outcome State Fault Refusal :=
  .next (aluEffect .shra rd src s)

/-- SHRL (R223). -/
def execShrl (rd : Reg) (src : Operand) (s : State) : Host.Outcome State Fault Refusal :=
  .next (aluEffect .shrl rd src s)

end Sys2Proof.Machine
end

