-- ==== Sys2Proof/Machine/Control.lean ====
section
/-! DEFINITION. Jumps, CALL, RET and RETI (43_control.md). pc is already after the whole instruction. -/

namespace Sys2Proof.Machine

open Sys2Proof

/-- The effect of a jump whose condition is `taken` (R230, R140). -/
def jumpEffect (taken : Bool) (dst : Operand) (s : State) : State :=
  s.withTarget dst (fun ea t => if taken then t.setPc ea else t)

/-- JZ (R231). -/
def execJz (dst : Operand) (s : State) : Host.Outcome State Fault Refusal :=
  .next (jumpEffect (s.flag .z) dst s)

/-- JC (R232). -/
def execJc (dst : Operand) (s : State) : Host.Outcome State Fault Refusal :=
  .next (jumpEffect (s.flag .c) dst s)

/-- JM (R233). -/
def execJm (dst : Operand) (s : State) : Host.Outcome State Fault Refusal :=
  .next (jumpEffect (s.flag .s) dst s)

/-- JO (R234). -/
def execJo (dst : Operand) (s : State) : Host.Outcome State Fault Refusal :=
  .next (jumpEffect (s.flag .v) dst s)

/-- JGT (R235). -/
def execJgt (dst : Operand) (s : State) : Host.Outcome State Fault Refusal :=
  .next (jumpEffect (!s.flag .z && s.flag .s == s.flag .v) dst s)

/-- JGE (R236). -/
def execJge (dst : Operand) (s : State) : Host.Outcome State Fault Refusal :=
  .next (jumpEffect (s.flag .s == s.flag .v) dst s)

/-- JLE (R237). -/
def execJle (dst : Operand) (s : State) : Host.Outcome State Fault Refusal :=
  .next (jumpEffect (s.flag .z || s.flag .s != s.flag .v) dst s)

/-- JLT (R238). -/
def execJlt (dst : Operand) (s : State) : Host.Outcome State Fault Refusal :=
  .next (jumpEffect (s.flag .s != s.flag .v) dst s)

/-- JNZ (R239). -/
def execJnz (dst : Operand) (s : State) : Host.Outcome State Fault Refusal :=
  .next (jumpEffect (!s.flag .z) dst s)

/-- JNC (R240). -/
def execJnc (dst : Operand) (s : State) : Host.Outcome State Fault Refusal :=
  .next (jumpEffect (!s.flag .c) dst s)

/-- JNM (R241). -/
def execJnm (dst : Operand) (s : State) : Host.Outcome State Fault Refusal :=
  .next (jumpEffect (!s.flag .s) dst s)

/-- JNO (R242). -/
def execJno (dst : Operand) (s : State) : Host.Outcome State Fault Refusal :=
  .next (jumpEffect (!s.flag .v) dst s)

/-- JHI (R243). -/
def execJhi (dst : Operand) (s : State) : Host.Outcome State Fault Refusal :=
  .next (jumpEffect (!s.flag .c && !s.flag .z) dst s)

/-- JLS (R244). -/
def execJls (dst : Operand) (s : State) : Host.Outcome State Fault Refusal :=
  .next (jumpEffect (s.flag .c || s.flag .z) dst s)

/-- JMP (R245). -/
def execJmp (dst : Operand) (s : State) : Host.Outcome State Fault Refusal :=
  .next (jumpEffect true dst s)

/-- CALL: push the address after the instruction, then jump to the address computed before the push (R250, R140). -/
def execCall (dst : Operand) (s : State) : Host.Outcome State Fault Refusal :=
  .next (s.withTarget dst (fun ea t => (t.pushWord t.pc).setPc ea))

/-- RET (R251). -/
def execRet (s : State) : Host.Outcome State Fault Refusal :=
  .next (s.popWord.2.setPc s.popWord.1)

/-- RETI (R252). -/
def execReti (s : State) : Host.Outcome State Fault Refusal := .next s.returnFromTrap

end Sys2Proof.Machine
end

