-- ==== Sys2Proof/Machine/LoadStore.lean ====
section
/-! DEFINITION. NOP, LD and ST (41_load_store.md). In every meaning pc is already after the whole instruction. -/

namespace Sys2Proof.Machine

open Sys2Proof

/-- NOP (R160). -/
def execNop (s : State) : Host.Outcome State Fault Refusal := .next s

/-- LD (R161). -/
def execLd (rd : Reg) (src : Operand) (s : State) : Host.Outcome State Fault Refusal :=
  .next (s.writeReg rd (s.loadOperand src))

/-- The store of ST: a byte in byte register indirect mode, a word in the others (R162). -/
def storeOperand (rd : Reg) (dst : Operand) (ea : Word) (s : State) : State :=
  match dst with
  | .byteIndirect _ => s.writeByte ea ((s.readReg rd).extractLsb' 0 8)
  | .direct _ | .indexed _ _ | .immediate _ | .fpRel _ | .register _ | .shortImm _ | .indirect _ =>
    s.writeWord ea (s.readReg rd)

/-- ST (R162, R140). -/
def execSt (rd : Reg) (dst : Operand) (s : State) : Host.Outcome State Fault Refusal :=
  .next (s.withTarget dst (storeOperand rd dst))

end Sys2Proof.Machine
end

