-- ==== Sys2Proof/Machine/Stack.lean ====
section
/-! DEFINITION. PUSH and POP (44_stack.md R272, R273). -/

namespace Sys2Proof.Machine

open Sys2Proof

/-- PUSH: the register is read before the stack pointer moves (R272). -/
def execPush (rd : Reg) (s : State) : Host.Outcome State Fault Refusal :=
  .next (s.pushWord (s.readReg rd))

/-- POP: the stack pointer moves before the register is written (R273). -/
def execPop (rd : Reg) (s : State) : Host.Outcome State Fault Refusal :=
  .next (s.popWord.2.writeReg rd s.popWord.1)

end Sys2Proof.Machine
end

