-- ==== Sys2Proof/Machine/SystemIo.lean ====
section
/-! DEFINITION. IN, OUT, SVC, HALT and the undefined operations (45_system_io.md). -/

namespace Sys2Proof.Machine

open Sys2Proof

/-- IN on an I/O address (R290). -/
def inEffect (rd : Reg) (ea : Word) (s : State) : State :=
  if s.ioForbidden then s.raise s.cfg.intrPriv else (s.ioRead ea).2.writeReg rd (s.ioRead ea).1

/-- OUT on an I/O address (R291). -/
def outEffect (rd : Reg) (ea : Word) (s : State) : State :=
  if s.ioForbidden then s.raise s.cfg.intrPriv else s.ioWrite ea (s.readReg rd)

/-- IN (R290, R140). -/
def execIn (rd : Reg) (port : Operand) (s : State) : Host.Outcome State Fault Refusal :=
  .next (s.withTarget port (inEffect rd))

/-- OUT (R291, R140). -/
def execOut (rd : Reg) (port : Operand) (s : State) : Host.Outcome State Fault Refusal :=
  .next (s.withTarget port (outEffect rd))

/-- SVC (R293). -/
def execSvc (s : State) : Host.Outcome State Fault Refusal := .next (s.raise s.cfg.intrSvc)

/-- HALT: stop the core in privileged mode, a privilege violation in user mode (R294). -/
def execHalt (s : State) : Host.Outcome State Fault Refusal :=
  .next (if s.privileged then s.setHalted true else s.raise s.cfg.intrPriv)

/-- The effect of every undefined encoding (R296). -/
def undefinedEffect (s : State) : State := s.raise s.cfg.intrUndef

/-- Undefined opcode 13 (R112, R296). -/
def execUndefOp13 (s : State) : Host.Outcome State Fault Refusal := .next (undefinedEffect s)

/-- Undefined opcode 14 (R112, R296). -/
def execUndefOp14 (s : State) : Host.Outcome State Fault Refusal := .next (undefinedEffect s)

/-- Undefined opcode 15 (R112, R296). -/
def execUndefOp15 (s : State) : Host.Outcome State Fault Refusal := .next (undefinedEffect s)

/-- Undefined opcode 25 (R112, R296). -/
def execUndefOp25 (s : State) : Host.Outcome State Fault Refusal := .next (undefinedEffect s)

/-- Undefined opcode 27 (R112, R296). -/
def execUndefOp27 (s : State) : Host.Outcome State Fault Refusal := .next (undefinedEffect s)

/-- Undefined opcode 28 (R112, R296). -/
def execUndefOp28 (s : State) : Host.Outcome State Fault Refusal := .next (undefinedEffect s)

/-- Undefined opcode 29 (R112, R296). -/
def execUndefOp29 (s : State) : Host.Outcome State Fault Refusal := .next (undefinedEffect s)

/-- The jump group with condition 14 (R113, R296). -/
def execUndefJump14 (s : State) : Host.Outcome State Fault Refusal := .next (undefinedEffect s)

/-- PUSH/POP with reserved mode 1 (R113, R296). -/
def execUndefStack1 (s : State) : Host.Outcome State Fault Refusal := .next (undefinedEffect s)

/-- PUSH/POP with reserved mode 2 (R113, R296). -/
def execUndefStack2 (s : State) : Host.Outcome State Fault Refusal := .next (undefinedEffect s)

/-- PUSH/POP with reserved mode 3 (R113, R296). -/
def execUndefStack3 (s : State) : Host.Outcome State Fault Refusal := .next (undefinedEffect s)

/-- PUSH/POP with reserved mode 5 (R113, R296). -/
def execUndefStack5 (s : State) : Host.Outcome State Fault Refusal := .next (undefinedEffect s)

/-- PUSH/POP with reserved mode 6 (R113, R296). -/
def execUndefStack6 (s : State) : Host.Outcome State Fault Refusal := .next (undefinedEffect s)

/-- PUSH/POP with reserved mode 7 (R113, R296). -/
def execUndefStack7 (s : State) : Host.Outcome State Fault Refusal := .next (undefinedEffect s)

/-- RET/RETI with reserved mode 1 (R113, R296). -/
def execUndefReturn1 (s : State) : Host.Outcome State Fault Refusal := .next (undefinedEffect s)

/-- RET/RETI with reserved mode 2 (R113, R296). -/
def execUndefReturn2 (s : State) : Host.Outcome State Fault Refusal := .next (undefinedEffect s)

/-- RET/RETI with reserved mode 3 (R113, R296). -/
def execUndefReturn3 (s : State) : Host.Outcome State Fault Refusal := .next (undefinedEffect s)

/-- RET/RETI with reserved mode 5 (R113, R296). -/
def execUndefReturn5 (s : State) : Host.Outcome State Fault Refusal := .next (undefinedEffect s)

/-- RET/RETI with reserved mode 6 (R113, R296). -/
def execUndefReturn6 (s : State) : Host.Outcome State Fault Refusal := .next (undefinedEffect s)

/-- RET/RETI with reserved mode 7 (R113, R296). -/
def execUndefReturn7 (s : State) : Host.Outcome State Fault Refusal := .next (undefinedEffect s)

end Sys2Proof.Machine
end

