-- ==== Sys2Proof/Machine/Dispatch.lean ====
section
/-! DEFINITION. The dispatch: one arm per constructor of Instr (40_cycle.md R141). -/

namespace Sys2Proof.Machine

open Sys2Proof

def exec (i : Instr) (s : State) : Host.Outcome State Fault Refusal :=
  match i with
  | .nop => Sys2Proof.Machine.execNop s
  | .ld rd src => Sys2Proof.Machine.execLd rd src s
  | .st rd dst => Sys2Proof.Machine.execSt rd dst s
  | .add rd src => Sys2Proof.Machine.execAdd rd src s
  | .sub rd src => Sys2Proof.Machine.execSub rd src s
  | .cmp rd src => Sys2Proof.Machine.execCmp rd src s
  | .and rd src => Sys2Proof.Machine.execAnd rd src s
  | .or rd src => Sys2Proof.Machine.execOr rd src s
  | .xor rd src => Sys2Proof.Machine.execXor rd src s
  | .adds rd src => Sys2Proof.Machine.execAdds rd src s
  | .mul rd src => Sys2Proof.Machine.execMul rd src s
  | .div rd src => Sys2Proof.Machine.execDiv rd src s
  | .mod rd src => Sys2Proof.Machine.execMod rd src s
  | .shla rd src => Sys2Proof.Machine.execShla rd src s
  | .shll rd src => Sys2Proof.Machine.execShll rd src s
  | .shra rd src => Sys2Proof.Machine.execShra rd src s
  | .shrl rd src => Sys2Proof.Machine.execShrl rd src s
  | .jz dst => Sys2Proof.Machine.execJz dst s
  | .jc dst => Sys2Proof.Machine.execJc dst s
  | .jm dst => Sys2Proof.Machine.execJm dst s
  | .jo dst => Sys2Proof.Machine.execJo dst s
  | .jgt dst => Sys2Proof.Machine.execJgt dst s
  | .jge dst => Sys2Proof.Machine.execJge dst s
  | .jle dst => Sys2Proof.Machine.execJle dst s
  | .jlt dst => Sys2Proof.Machine.execJlt dst s
  | .jnz dst => Sys2Proof.Machine.execJnz dst s
  | .jnc dst => Sys2Proof.Machine.execJnc dst s
  | .jnm dst => Sys2Proof.Machine.execJnm dst s
  | .jno dst => Sys2Proof.Machine.execJno dst s
  | .jhi dst => Sys2Proof.Machine.execJhi dst s
  | .jls dst => Sys2Proof.Machine.execJls dst s
  | .jmp dst => Sys2Proof.Machine.execJmp dst s
  | .call dst => Sys2Proof.Machine.execCall dst s
  | .ioIn rd port => Sys2Proof.Machine.execIn rd port s
  | .ioOut rd port => Sys2Proof.Machine.execOut rd port s
  | .push rd => Sys2Proof.Machine.execPush rd s
  | .pop rd => Sys2Proof.Machine.execPop rd s
  | .ret => Sys2Proof.Machine.execRet s
  | .reti => Sys2Proof.Machine.execReti s
  | .svc => Sys2Proof.Machine.execSvc s
  | .halt => Sys2Proof.Machine.execHalt s
  | .undefOp13 _ _ => Sys2Proof.Machine.execUndefOp13 s
  | .undefOp14 _ _ => Sys2Proof.Machine.execUndefOp14 s
  | .undefOp15 _ _ => Sys2Proof.Machine.execUndefOp15 s
  | .undefOp25 _ _ => Sys2Proof.Machine.execUndefOp25 s
  | .undefOp27 _ _ => Sys2Proof.Machine.execUndefOp27 s
  | .undefOp28 _ _ => Sys2Proof.Machine.execUndefOp28 s
  | .undefOp29 _ _ => Sys2Proof.Machine.execUndefOp29 s
  | .undefJump14 _ => Sys2Proof.Machine.execUndefJump14 s
  | .undefStack1 _ _ => Sys2Proof.Machine.execUndefStack1 s
  | .undefStack2 _ _ => Sys2Proof.Machine.execUndefStack2 s
  | .undefStack3 _ _ => Sys2Proof.Machine.execUndefStack3 s
  | .undefStack5 _ _ => Sys2Proof.Machine.execUndefStack5 s
  | .undefStack6 _ _ => Sys2Proof.Machine.execUndefStack6 s
  | .undefStack7 _ _ => Sys2Proof.Machine.execUndefStack7 s
  | .undefReturn1 _ _ => Sys2Proof.Machine.execUndefReturn1 s
  | .undefReturn2 _ _ => Sys2Proof.Machine.execUndefReturn2 s
  | .undefReturn3 _ _ => Sys2Proof.Machine.execUndefReturn3 s
  | .undefReturn5 _ _ => Sys2Proof.Machine.execUndefReturn5 s
  | .undefReturn6 _ _ => Sys2Proof.Machine.execUndefReturn6 s
  | .undefReturn7 _ _ => Sys2Proof.Machine.execUndefReturn7 s

end Sys2Proof.Machine
end

