-- ==== Sys2Proof/Machine/Step.lean ====
section
/-! DEFINITION. One cycle of the execution engine (40_cycle.md R130) and the placement of an instruction where the next
cycle fetches it. -/

namespace Sys2Proof.Machine

open Sys2Proof

/-- One step: requests that arrived, the interrupt check with the entry it may perform, fetch, decode, execute. A halted
core takes no step (R130, R324, 70_reset_and_hazards.md R353, R370; log 11). -/
def step (s : State) : Host.Outcome State Fault Refusal :=
  if s.halted then .fault .halted
  else
    match s.takeArrivals.interruptCheck.fetch with
    | .error f => .fault f
    | .ok (i, t) => exec i t

/-- Store a word whatever the overlay says. -/
def State.placeWord (s : State) (a v : Word) : State :=
  s.setMem ((s.mem.write a.toNat (v.extractLsb' 8 8)).write (a + 1).toNat (v.extractLsb' 0 8))

/-- Whether the next interrupt check would enter a handler. -/
def State.wouldEnter (s : State) : Bool :=
  (s.takeArrivals.flag .e || s.takeArrivals.exceptionPending) && s.takeArrivals.nextIntr.isSome

/-- The state with an instruction, numbered as the opcode table numbers its bits, where the next step fetches: its two
words at pc, whatever the overlay says (it stands for the load of a program image, log 4). A core that would not fetch
there (halted, or about to enter a handler) is made to; nothing else changes (log 23). -/
def State.withFetchWord (s : State) (nbits w : Nat) : State :=
  let v := w % 2 ^ nbits
  let t := ((s.placeWord s.pc (BitVec.ofNat 16 v)).placeWord (s.pc + 2) (BitVec.ofNat 16 (v / 2 ^ 16))).setHalted false
  if t.wouldEnter then (t.setPend (Vector.replicate 16 false)).setEnv { t.env with arrivals := [] } else t

end Sys2Proof.Machine
end

