-- ==== Sys2Proof/Laws/Encoding.lean ====
section
/-! SUPPORT. The fields of a first word, the register and operand codes, and the bytes of a word: each decoder undoes its
encoder (30_encoding.md R100 to R111). -/

namespace Sys2Proof

section Fields

variable (op : BitVec 5) (mode : BitVec 3) (rd rx : BitVec 4)

/-- The bits of a first word, field by field (R100). -/
theorem getLsbD_firstWord (i : Nat) : (firstWord op mode rd rx).getLsbD i =
    if i < 4 then rx.getLsbD i else if i - 4 < 4 then rd.getLsbD (i - 4)
    else if i - 4 - 4 < 3 then mode.getLsbD (i - 4 - 4) else op.getLsbD (i - 4 - 4 - 3) := by
  unfold firstWord
  erw [BitVec.getLsbD_append, BitVec.getLsbD_append, BitVec.getLsbD_append]

@[simp] theorem opField_firstWord : opField (firstWord op mode rd rx) = op := by
  apply BitVec.eq_of_getLsbD_eq
  intro i hi
  simp only [opField, BitVec.getLsbD_extractLsb', getLsbD_firstWord]
  interval_cases i <;> simp

@[simp] theorem modeField_firstWord : modeField (firstWord op mode rd rx) = mode := by
  apply BitVec.eq_of_getLsbD_eq
  intro i hi
  simp only [modeField, BitVec.getLsbD_extractLsb', getLsbD_firstWord]
  interval_cases i <;> simp

@[simp] theorem rdField_firstWord : rdField (firstWord op mode rd rx) = rd := by
  apply BitVec.eq_of_getLsbD_eq
  intro i hi
  simp only [rdField, BitVec.getLsbD_extractLsb', getLsbD_firstWord]
  interval_cases i <;> simp

@[simp] theorem rxField_firstWord : rxField (firstWord op mode rd rx) = rx := by
  apply BitVec.eq_of_getLsbD_eq
  intro i hi
  simp only [rxField, BitVec.getLsbD_extractLsb', getLsbD_firstWord]
  interval_cases i <;> simp

/-- A word is its four fields (R100). -/
theorem firstWord_fields (w : Word) : firstWord (opField w) (modeField w) (rdField w) (rxField w) = w := by
  apply BitVec.eq_of_getLsbD_eq
  intro i hi
  simp only [getLsbD_firstWord, opField, modeField, rdField, rxField, BitVec.getLsbD_extractLsb']
  interval_cases i <;> simp

/-- The mask of a row that fixes the op field only. -/
theorem firstWord_and_op : firstWord op mode rd rx &&& 0xF800 = firstWord op 0 0 0 := by
  apply BitVec.eq_of_getLsbD_eq
  intro i hi
  simp only [BitVec.getLsbD_and, getLsbD_firstWord]
  interval_cases i <;> simp

/-- The mask of a row that fixes the op and mode fields. -/
theorem firstWord_and_op_mode : firstWord op mode rd rx &&& 0xFF00 = firstWord op mode 0 0 := by
  apply BitVec.eq_of_getLsbD_eq
  intro i hi
  simp only [BitVec.getLsbD_and, getLsbD_firstWord]
  interval_cases i <;> simp

/-- The mask of a row that fixes the op and rd fields. -/
theorem firstWord_and_op_rd : firstWord op mode rd rx &&& 0xF8F0 = firstWord op 0 rd 0 := by
  apply BitVec.eq_of_getLsbD_eq
  intro i hi
  simp only [BitVec.getLsbD_and, getLsbD_firstWord]
  interval_cases i <;> simp

end Fields

/-- The bytes of a word make the word again (20_memory.md R68). -/
theorem wordOfBytes_bytesOfWord (w : Word) : wordOfBytes (w.extractLsb' 8 8) (w.extractLsb' 0 8) = w := by
  apply BitVec.eq_of_getLsbD_eq
  intro i hi
  simp only [wordOfBytes, BitVec.getLsbD_append, BitVec.getLsbD_extractLsb']
  interval_cases i <;> simp

/-- A register index names the register it came from. -/
@[simp] theorem Reg.ofBits_toBits (r : Reg) : Reg.ofBits r.toBits = r := by
  cases r with
  | g n => fin_cases n <;> rfl
  | fp => rfl
  | sp => rfl
  | usp => rfl
  | flag => rfl

/-- An index is the code of the register it names: no two indices name the same register. -/
@[simp] theorem Reg.toBits_ofBits (b : BitVec 4) : (Reg.ofBits b).toBits = b := by
  revert b; decide

/-- An operand's fields give the operand back, when it is well formed (R102, R106, R111). -/
theorem Operand.ofFields_mode (o : Operand) (e : Word) (h : o.wellFormed = true) (he : ∀ w ∈ o.extWords, w = e) :
    Operand.ofFields o.mode o.rxBits e = o := by
  cases o with
  | direct ext => simp [Operand.ofFields, Operand.mode, ← he ext (by simp [Operand.extWords])]
  | indexed ext rx =>
    simp [Operand.ofFields, Operand.mode, Operand.rxBits, ← he ext (by simp [Operand.extWords])]
  | immediate ext => simp [Operand.ofFields, Operand.mode, ← he ext (by simp [Operand.extWords])]
  | fpRel d =>
    simp only [Operand.wellFormed, Bool.and_eq_true, decide_eq_true_eq] at h
    obtain ⟨⟨h1, h2⟩, h3⟩ := h
    interval_cases d <;> first | rfl | omega
  | register rx => simp [Operand.ofFields, Operand.mode, Operand.rxBits]
  | shortImm v =>
    simp only [Operand.wellFormed, Bool.and_eq_true, decide_eq_true_eq] at h
    obtain ⟨h1, h2⟩ := h
    interval_cases v <;> rfl
  | indirect rx => simp [Operand.ofFields, Operand.mode, Operand.rxBits]
  | byteIndirect rx => simp [Operand.ofFields, Operand.mode, Operand.rxBits]

/-- A decoded operand is well formed (R111). -/
theorem Operand.wellFormed_ofFields (mode : BitVec 3) (rx : BitVec 4) (e : Word) :
    (Operand.ofFields mode rx e).wellFormed = true := by
  have hrx : -8 ≤ rx.toInt ∧ rx.toInt ≤ 7 := by revert rx; decide
  unfold Operand.ofFields
  split <;> simp [Operand.wellFormed] <;> omega

/-- How many extension words an operand has, by its mode (R101). -/
theorem Operand.length_extWords (o : Operand) : o.extWords.length = if o.mode.toNat ≤ 2 then 1 else 0 := by
  cases o <;> rfl

/-! ### Whole instructions -/

/-- A first word without an extension decodes from its two bytes (R110). -/
theorem decode_oneWord (w : Word) (rest : List Byte) (h : hasExtension w = false) :
    decode (bytesOfWord w ++ rest) = .ok (decodeWords w 0, rest) := by
  simp [decode, bytesOfWord, wordOfBytes_bytesOfWord, h]

/-- A first word with an extension decodes from four bytes (R101, R110). -/
theorem decode_twoWords (w e : Word) (rest : List Byte) (h : hasExtension w = true) :
    decode (bytesOfWord w ++ (bytesOfWord e ++ rest)) = .ok (decodeWords w e, rest) := by
  simp [decode, bytesOfWord, wordOfBytes_bytesOfWord, h]

/-- The bytes of an operation with an operand decode to `i` when its words do, whatever word stands for the extension that
an operand without one does not have. -/
theorem decode_operandWords (op : BitVec 5) (rd : BitVec 4) (o : Operand) (i : Instr) (rest : List Byte)
    (hop : isOneWordOp op = false)
    (hi : ∀ e, (∀ w ∈ o.extWords, w = e) → decodeWords (firstWord op o.mode rd o.rxBits) e = i) :
    decode ((operandWords op rd o).flatMap bytesOfWord ++ rest) = .ok (i, rest) := by
  have hl := o.length_extWords
  by_cases h : o.mode.toNat ≤ 2
  · simp only [h, if_true] at hl
    obtain ⟨e, he⟩ := List.length_eq_one_iff.1 hl
    simp only [operandWords, he, List.flatMap_cons, List.flatMap_nil, List.append_nil, List.append_assoc]
    rw [decode_twoWords, hi e (by simp [he])]
    simp [hasExtension, hop, h]
  · simp only [h, if_false] at hl
    have he := List.length_eq_zero_iff.1 hl
    simp only [operandWords, he, List.flatMap_cons, List.flatMap_nil, List.append_nil]
    rw [decode_oneWord, hi 0 (by simp [he])]
    simp [hasExtension, hop, h]

theorem wellFormed_decodeJump (c : BitVec 4) (o : Operand) (h : o.wellFormed = true) :
    (decodeJump c o).wellFormed = true := by
  unfold decodeJump; split <;> exact h

theorem wellFormed_decodeStack (m : BitVec 3) (rd rx : Reg) : (decodeStack m rd rx).wellFormed = true := by
  unfold decodeStack; split <;> rfl

theorem wellFormed_decodeReturn (m : BitVec 3) (rd rx : Reg) : (decodeReturn m rd rx).wellFormed = true := by
  unfold decodeReturn; split <;> rfl

/-- The value of two bytes read as a word (20_memory.md R68). -/
theorem toNat_wordOfBytes (a b : Byte) : (wordOfBytes a b).toNat = a.toNat * 256 + b.toNat := by
  rw [wordOfBytes, BitVec.toNat_append, ← Nat.shiftLeft_add_eq_or_of_lt b.isLt, Nat.shiftLeft_eq]

/-- The op field lies in the first byte (R100). -/
theorem opField_wordOfBytes (a b : Byte) : (opField (wordOfBytes a b)).toNat = a.toNat / 8 := by
  have := a.isLt; have := b.isLt
  simp only [opField, BitVec.extractLsb'_toNat, toNat_wordOfBytes, Nat.shiftRight_eq_div_pow]
  omega

/-- The mode field lies in the first byte (R100). -/
theorem modeField_wordOfBytes (a b : Byte) : (modeField (wordOfBytes a b)).toNat = a.toNat % 8 := by
  have := a.isLt; have := b.isLt
  simp only [modeField, BitVec.extractLsb'_toNat, toNat_wordOfBytes, Nat.shiftRight_eq_div_pow]
  omega

end Sys2Proof
end

