-- ==== Sys2Proof/Laws/PerInstr.lean ====
section
/-! SUPPORT. The family EncodesInRow: the first word of every instruction's encoding lies in its own row of
spec/opcode_table.json, and the extension word is there exactly where the decoder expects one (30_encoding.md R101,
R110, R115). -/

namespace Sys2Proof.Laws.EncodesInRow

open Sys2Proof

/-- The match and the mask of an instruction's row in spec/opcode_table.json. -/
def row : Instr → Word × Word
  | .nop => (0x0000, 0xF800)
  | .ld _ _ => (0x0800, 0xF800)
  | .st _ _ => (0x1000, 0xF800)
  | .add _ _ => (0x1800, 0xF800)
  | .sub _ _ => (0x2000, 0xF800)
  | .cmp _ _ => (0x2800, 0xF800)
  | .and _ _ => (0x3000, 0xF800)
  | .or _ _ => (0x3800, 0xF800)
  | .xor _ _ => (0x4000, 0xF800)
  | .adds _ _ => (0x4800, 0xF800)
  | .mul _ _ => (0x5000, 0xF800)
  | .div _ _ => (0x5800, 0xF800)
  | .mod _ _ => (0x6000, 0xF800)
  | .shla _ _ => (0x8000, 0xF800)
  | .shll _ _ => (0x8800, 0xF800)
  | .shra _ _ => (0x9000, 0xF800)
  | .shrl _ _ => (0x9800, 0xF800)
  | .jz _ => (0xA000, 0xF8F0)
  | .jc _ => (0xA010, 0xF8F0)
  | .jm _ => (0xA020, 0xF8F0)
  | .jo _ => (0xA030, 0xF8F0)
  | .jgt _ => (0xA040, 0xF8F0)
  | .jge _ => (0xA050, 0xF8F0)
  | .jle _ => (0xA060, 0xF8F0)
  | .jlt _ => (0xA070, 0xF8F0)
  | .jnz _ => (0xA080, 0xF8F0)
  | .jnc _ => (0xA090, 0xF8F0)
  | .jnm _ => (0xA0A0, 0xF8F0)
  | .jno _ => (0xA0B0, 0xF8F0)
  | .jhi _ => (0xA0C0, 0xF8F0)
  | .jls _ => (0xA0D0, 0xF8F0)
  | .jmp _ => (0xA0F0, 0xF8F0)
  | .call _ => (0xA800, 0xF800)
  | .ioIn _ _ => (0xB000, 0xF800)
  | .ioOut _ _ => (0xB800, 0xF800)
  | .push _ => (0xC000, 0xFF00)
  | .pop _ => (0xC400, 0xFF00)
  | .ret => (0xD000, 0xFF00)
  | .reti => (0xD400, 0xFF00)
  | .svc => (0xF000, 0xF800)
  | .halt => (0xF800, 0xF800)
  | .undefOp13 _ _ => (0x6800, 0xF800)
  | .undefOp14 _ _ => (0x7000, 0xF800)
  | .undefOp15 _ _ => (0x7800, 0xF800)
  | .undefOp25 _ _ => (0xC800, 0xF800)
  | .undefOp27 _ _ => (0xD800, 0xF800)
  | .undefOp28 _ _ => (0xE000, 0xF800)
  | .undefOp29 _ _ => (0xE800, 0xF800)
  | .undefJump14 _ => (0xA0E0, 0xF8F0)
  | .undefStack1 _ _ => (0xC100, 0xFF00)
  | .undefStack2 _ _ => (0xC200, 0xFF00)
  | .undefStack3 _ _ => (0xC300, 0xFF00)
  | .undefStack5 _ _ => (0xC500, 0xFF00)
  | .undefStack6 _ _ => (0xC600, 0xFF00)
  | .undefStack7 _ _ => (0xC700, 0xFF00)
  | .undefReturn1 _ _ => (0xD100, 0xFF00)
  | .undefReturn2 _ _ => (0xD200, 0xFF00)
  | .undefReturn3 _ _ => (0xD300, 0xFF00)
  | .undefReturn5 _ _ => (0xD500, 0xFF00)
  | .undefReturn6 _ _ => (0xD600, 0xFF00)
  | .undefReturn7 _ _ => (0xD700, 0xFF00)

/-- The encoding of `i` lies in the row of `i` and has the length the decoder reads. -/
def Statement (i : Instr) : Prop :=
  ∃ w ws, encode i = w :: ws ∧ w &&& (row i).2 = (row i).1 ∧ ws.length = if hasExtension w then 1 else 0

theorem of_operandWords {i : Instr} {op : BitVec 5} {rd : BitVec 4} {o : Operand} (h : encode i = operandWords op rd o)
    (hop : isOneWordOp op = false) (hrow : firstWord op o.mode rd o.rxBits &&& (row i).2 = (row i).1) : Statement i := by
  refine ⟨_, _, h, hrow, ?_⟩
  simp [hasExtension, hop, Operand.length_extWords]

theorem of_oneWord {i : Instr} {op : BitVec 5} {mode : BitVec 3} {rd rx : BitVec 4}
    (h : encode i = [firstWord op mode rd rx]) (hop : isOneWordOp op = true)
    (hrow : firstWord op mode rd rx &&& (row i).2 = (row i).1) : Statement i := by
  refine ⟨_, _, h, hrow, ?_⟩
  simp [hasExtension, hop]

theorem nop : Statement .nop :=
  of_oneWord rfl rfl (firstWord_and_op _ _ _ _)

theorem ld (rd : Reg) (src : Operand) : Statement (.ld rd src) :=
  of_operandWords rfl rfl (firstWord_and_op _ _ _ _)

theorem st (rd : Reg) (dst : Operand) : Statement (.st rd dst) :=
  of_operandWords rfl rfl (firstWord_and_op _ _ _ _)

theorem add (rd : Reg) (src : Operand) : Statement (.add rd src) :=
  of_operandWords rfl rfl (firstWord_and_op _ _ _ _)

theorem sub (rd : Reg) (src : Operand) : Statement (.sub rd src) :=
  of_operandWords rfl rfl (firstWord_and_op _ _ _ _)

theorem cmp (rd : Reg) (src : Operand) : Statement (.cmp rd src) :=
  of_operandWords rfl rfl (firstWord_and_op _ _ _ _)

theorem and (rd : Reg) (src : Operand) : Statement (.and rd src) :=
  of_operandWords rfl rfl (firstWord_and_op _ _ _ _)

theorem or (rd : Reg) (src : Operand) : Statement (.or rd src) :=
  of_operandWords rfl rfl (firstWord_and_op _ _ _ _)

theorem xor (rd : Reg) (src : Operand) : Statement (.xor rd src) :=
  of_operandWords rfl rfl (firstWord_and_op _ _ _ _)

theorem adds (rd : Reg) (src : Operand) : Statement (.adds rd src) :=
  of_operandWords rfl rfl (firstWord_and_op _ _ _ _)

theorem mul (rd : Reg) (src : Operand) : Statement (.mul rd src) :=
  of_operandWords rfl rfl (firstWord_and_op _ _ _ _)

theorem div (rd : Reg) (src : Operand) : Statement (.div rd src) :=
  of_operandWords rfl rfl (firstWord_and_op _ _ _ _)

theorem mod (rd : Reg) (src : Operand) : Statement (.mod rd src) :=
  of_operandWords rfl rfl (firstWord_and_op _ _ _ _)

theorem shla (rd : Reg) (src : Operand) : Statement (.shla rd src) :=
  of_operandWords rfl rfl (firstWord_and_op _ _ _ _)

theorem shll (rd : Reg) (src : Operand) : Statement (.shll rd src) :=
  of_operandWords rfl rfl (firstWord_and_op _ _ _ _)

theorem shra (rd : Reg) (src : Operand) : Statement (.shra rd src) :=
  of_operandWords rfl rfl (firstWord_and_op _ _ _ _)

theorem shrl (rd : Reg) (src : Operand) : Statement (.shrl rd src) :=
  of_operandWords rfl rfl (firstWord_and_op _ _ _ _)

theorem jz (dst : Operand) : Statement (.jz dst) :=
  of_operandWords rfl rfl (firstWord_and_op_rd _ _ _ _)

theorem jc (dst : Operand) : Statement (.jc dst) :=
  of_operandWords rfl rfl (firstWord_and_op_rd _ _ _ _)

theorem jm (dst : Operand) : Statement (.jm dst) :=
  of_operandWords rfl rfl (firstWord_and_op_rd _ _ _ _)

theorem jo (dst : Operand) : Statement (.jo dst) :=
  of_operandWords rfl rfl (firstWord_and_op_rd _ _ _ _)

theorem jgt (dst : Operand) : Statement (.jgt dst) :=
  of_operandWords rfl rfl (firstWord_and_op_rd _ _ _ _)

theorem jge (dst : Operand) : Statement (.jge dst) :=
  of_operandWords rfl rfl (firstWord_and_op_rd _ _ _ _)

theorem jle (dst : Operand) : Statement (.jle dst) :=
  of_operandWords rfl rfl (firstWord_and_op_rd _ _ _ _)

theorem jlt (dst : Operand) : Statement (.jlt dst) :=
  of_operandWords rfl rfl (firstWord_and_op_rd _ _ _ _)

theorem jnz (dst : Operand) : Statement (.jnz dst) :=
  of_operandWords rfl rfl (firstWord_and_op_rd _ _ _ _)

theorem jnc (dst : Operand) : Statement (.jnc dst) :=
  of_operandWords rfl rfl (firstWord_and_op_rd _ _ _ _)

theorem jnm (dst : Operand) : Statement (.jnm dst) :=
  of_operandWords rfl rfl (firstWord_and_op_rd _ _ _ _)

theorem jno (dst : Operand) : Statement (.jno dst) :=
  of_operandWords rfl rfl (firstWord_and_op_rd _ _ _ _)

theorem jhi (dst : Operand) : Statement (.jhi dst) :=
  of_operandWords rfl rfl (firstWord_and_op_rd _ _ _ _)

theorem jls (dst : Operand) : Statement (.jls dst) :=
  of_operandWords rfl rfl (firstWord_and_op_rd _ _ _ _)

theorem jmp (dst : Operand) : Statement (.jmp dst) :=
  of_operandWords rfl rfl (firstWord_and_op_rd _ _ _ _)

theorem call (dst : Operand) : Statement (.call dst) :=
  of_operandWords rfl rfl (firstWord_and_op _ _ _ _)

theorem ioIn (rd : Reg) (port : Operand) : Statement (.ioIn rd port) :=
  of_operandWords rfl rfl (firstWord_and_op _ _ _ _)

theorem ioOut (rd : Reg) (port : Operand) : Statement (.ioOut rd port) :=
  of_operandWords rfl rfl (firstWord_and_op _ _ _ _)

theorem push (rd : Reg) : Statement (.push rd) :=
  of_oneWord rfl rfl (firstWord_and_op_mode _ _ _ _)

theorem pop (rd : Reg) : Statement (.pop rd) :=
  of_oneWord rfl rfl (firstWord_and_op_mode _ _ _ _)

theorem ret : Statement .ret :=
  of_oneWord rfl rfl (firstWord_and_op_mode _ _ _ _)

theorem reti : Statement .reti :=
  of_oneWord rfl rfl (firstWord_and_op_mode _ _ _ _)

theorem svc : Statement .svc :=
  of_oneWord rfl rfl (firstWord_and_op _ _ _ _)

theorem halt : Statement .halt :=
  of_oneWord rfl rfl (firstWord_and_op _ _ _ _)

theorem undefOp13 (rd : Reg) (src : Operand) : Statement (.undefOp13 rd src) :=
  of_operandWords rfl rfl (firstWord_and_op _ _ _ _)

theorem undefOp14 (rd : Reg) (src : Operand) : Statement (.undefOp14 rd src) :=
  of_operandWords rfl rfl (firstWord_and_op _ _ _ _)

theorem undefOp15 (rd : Reg) (src : Operand) : Statement (.undefOp15 rd src) :=
  of_operandWords rfl rfl (firstWord_and_op _ _ _ _)

theorem undefOp25 (rd : Reg) (src : Operand) : Statement (.undefOp25 rd src) :=
  of_operandWords rfl rfl (firstWord_and_op _ _ _ _)

theorem undefOp27 (rd : Reg) (src : Operand) : Statement (.undefOp27 rd src) :=
  of_operandWords rfl rfl (firstWord_and_op _ _ _ _)

theorem undefOp28 (rd : Reg) (src : Operand) : Statement (.undefOp28 rd src) :=
  of_operandWords rfl rfl (firstWord_and_op _ _ _ _)

theorem undefOp29 (rd : Reg) (src : Operand) : Statement (.undefOp29 rd src) :=
  of_operandWords rfl rfl (firstWord_and_op _ _ _ _)

theorem undefJump14 (dst : Operand) : Statement (.undefJump14 dst) :=
  of_operandWords rfl rfl (firstWord_and_op_rd _ _ _ _)

theorem undefStack1 (rd rx : Reg) : Statement (.undefStack1 rd rx) :=
  of_oneWord rfl rfl (firstWord_and_op_mode _ _ _ _)

theorem undefStack2 (rd rx : Reg) : Statement (.undefStack2 rd rx) :=
  of_oneWord rfl rfl (firstWord_and_op_mode _ _ _ _)

theorem undefStack3 (rd rx : Reg) : Statement (.undefStack3 rd rx) :=
  of_oneWord rfl rfl (firstWord_and_op_mode _ _ _ _)

theorem undefStack5 (rd rx : Reg) : Statement (.undefStack5 rd rx) :=
  of_oneWord rfl rfl (firstWord_and_op_mode _ _ _ _)

theorem undefStack6 (rd rx : Reg) : Statement (.undefStack6 rd rx) :=
  of_oneWord rfl rfl (firstWord_and_op_mode _ _ _ _)

theorem undefStack7 (rd rx : Reg) : Statement (.undefStack7 rd rx) :=
  of_oneWord rfl rfl (firstWord_and_op_mode _ _ _ _)

theorem undefReturn1 (rd rx : Reg) : Statement (.undefReturn1 rd rx) :=
  of_oneWord rfl rfl (firstWord_and_op_mode _ _ _ _)

theorem undefReturn2 (rd rx : Reg) : Statement (.undefReturn2 rd rx) :=
  of_oneWord rfl rfl (firstWord_and_op_mode _ _ _ _)

theorem undefReturn3 (rd rx : Reg) : Statement (.undefReturn3 rd rx) :=
  of_oneWord rfl rfl (firstWord_and_op_mode _ _ _ _)

theorem undefReturn5 (rd rx : Reg) : Statement (.undefReturn5 rd rx) :=
  of_oneWord rfl rfl (firstWord_and_op_mode _ _ _ _)

theorem undefReturn6 (rd rx : Reg) : Statement (.undefReturn6 rd rx) :=
  of_oneWord rfl rfl (firstWord_and_op_mode _ _ _ _)

theorem undefReturn7 (rd rx : Reg) : Statement (.undefReturn7 rd rx) :=
  of_oneWord rfl rfl (firstWord_and_op_mode _ _ _ _)

end Sys2Proof.Laws.EncodesInRow
end

