-- ==== Sys2Proof/Machine/Run.lean ====
section
/-! DEFINITION. The run loop at the host boundary (70_reset_and_hazards.md R370 to R373): the host's controls decide how
many cycles run and change no architectural state. -/

namespace Sys2Proof.Machine

open Sys2Proof

/-- What the host sets before it calls the loop (R370, R371): the cycle before which a stop request is seen, the break
address, and step mode. -/
structure HostControls where
  stopAt   : Option Nat
  breakAt  : Option Word
  stepMode : Bool
deriving DecidableEq, Repr

/-- Why a call of the loop returned (R370); the last two stand for a step that has no next state. -/
inductive RunEnd where
  | stopped
  | halted
  | breakpoint
  | stepped
  | yielded
  | faulted (f : Fault)
  | refused (r : Refusal)
deriving DecidableEq, Repr

/-- The controls after one cycle: a pending stop request is one cycle nearer. -/
def HostControls.afterCycle (h : HostControls) : HostControls := { h with stopAt := h.stopAt.map (· - 1) }

/-- One pass of the loop, `onward` being what follows a cycle that neither a step mode nor the budget ends: the tests at
the top, then the cycle with the device requests before it, then the step mode (R370, R371). -/
def runPass (h : HostControls) (s : State) (onward : State → RunEnd × State) : RunEnd × State :=
  if h.stopAt = some 0 then (.stopped, s)
  else if s.halted then (.halted, s)
  else if h.breakAt = some s.pc then (.breakpoint, s)
  else
    match step s with
    | .fault f => (.faulted f, s)
    | .refused r => (.refused r, s)
    | .next t => if h.stepMode then (.stepped, t) else onward t

/-- `Run()`: why it returned and the state it left (R370, R371). The time budget is a count of cycles (log 16). It is looked
at after a cycle only: `more` is how many cycles it leaves after the first, so every call makes at least one pass. -/
def runLoop : Nat → HostControls → State → RunEnd × State
  | 0, h, s => runPass h s (fun t => (.yielded, t))
  | more + 1, h, s => runPass h s (runLoop more h.afterCycle)

end Sys2Proof.Machine
end

