-- ==== Sys2Proof/Safety.lean ====
section
/-! DEFINITION. What counts as a good state and a safe run: the invariant the claims are stated with, and reachability
from reset. -/

namespace Sys2Proof.Machine

open Sys2Proof

/-- How many exception slots are pending (60_exceptions.md R325). -/
def State.pendingExceptions (s : State) : Nat :=
  (State.slots.filter (fun n => decide (s.cfg.excFirst ≤ n) && s.pend[n.val])).length

/-- The byte of the boot image at an address of the window (20_memory.md R64). -/
def Config.imageByte (c : Config) (a : Nat) : Byte :=
  let w := c.iplImage.getD ((a - Memory.windowBase) / 2) 0
  if (a - Memory.windowBase) % 2 = 0 then w.extractLsb' 8 8 else w.extractLsb' 0 8

/-- While the overlay is active the window holds the boot image (20_memory.md R66, R74). -/
def State.windowHoldsImage (s : State) : Prop :=
  s.iplMode = true → ∀ a, Memory.windowBase ≤ a → a < 0x10000 → s.mem.read a = Config.imageByte s.cfg a

/-- The invariant of a running machine: parameters in their ranges, memory in its canonical form, at most one exception
pending, and the boot window as the image while the overlay is active. -/
structure State.Inv (s : State) : Prop where
  config    : s.cfg.wf = true
  memory    : s.mem.wf = true
  exception : s.pendingExceptions ≤ 1
  window    : s.windowHoldsImage

/-- The states a run can reach: reset of any machine with parameters in their ranges and memory in its canonical form,
then steps. -/
inductive Reachable : State → Prop where
  | reset (s : State) (hc : s.cfg.wf = true) (hm : s.mem.wf = true) : Reachable s.performReset
  | step (s t : State) (hs : Reachable s) (ht : Sys2Proof.Machine.step s = .next t) : Reachable t

/-- Whether ST, a jump, CALL, IN or OUT executes with this operand: the policy is `literal` or the mode is not 2, 4 or 5
(40_cycle.md R140). -/
def State.TargetExecutes (s : State) (o : Operand) : Prop :=
  s.cfg.noEaPolicy = .literal ∨ (o.mode ≠ 2 ∧ o.mode ≠ 4 ∧ o.mode ≠ 5)

/-- Whether IN and OUT may run: the check is off, or P or I is set (45_system_io.md R290, R291). -/
def State.IoAllowed (s : State) : Prop :=
  s.cfg.ioPrivCheck = false ∨ s.flag .p = true ∨ s.flag .i = true

/-- Whether the test for a shift count of one holds (42_alu.md R200, R203). -/
def State.shiftsByOne (s : State) (v2 : Word) : Bool :=
  match s.cfg.shiftCTest with
  | .count => decide (v2.toNat % 16 = 1)
  | .operand => decide (v2.toNat = 1)

/-- An outcome that is a next state. -/
def isNext (o : Host.Outcome State Fault Refusal) : Bool :=
  match o with
  | .next _ => true
  | .fault _ => false
  | .refused _ => false

/-- A run of `n` steps is safe when none of its steps faults or is refused, but for a core that has halted. -/
def SafeRun : Nat → State → Prop
  | 0, _ => True
  | n + 1, s => s.halted = true ∨ ∃ t, step s = .next t ∧ SafeRun n t

end Sys2Proof.Machine
end

