-- ==== Sys2Proof/Certificates/Slice0/Obligations.lean ====
section
/-! DEFINITION. The statements about the model, from the numbered rules of spec/. In every statement about `exec` the pc of
the state is already after the whole instruction, as the spec's rules have it. -/

open Sys2Proof Sys2Proof.Machine

/-! ### Encoding -/

/-- Words written out from the encodings of 30_encoding.md (R104, R107, R108, R117 and section 2.1 of
95_test_vectors.md) decode to the instruction they stand for.
Choices the spec marks as its own: D1, D2, D5, D6, D7. -/
def Obligations.WrittenOutWordsDecode : Prop :=
  decodeWords 0x07FF 0 = .nop ∧
  decodeWords 0x0A00 0x1234 = .ld (.g 0) (.immediate 0x1234) ∧
  decodeWords 0x1731 0 = .st (.g 3) (.byteIndirect (.g 1)) ∧
  decodeWords 0x1C01 0 = .add (.g 0) (.register (.g 1)) ∧
  decodeWords 0x2513 0 = .sub (.g 1) (.shortImm 3) ∧
  decodeWords 0x0B08 0 = .ld (.g 0) (.fpRel (-16)) ∧
  decodeWords 0xA1F2 0x0010 = .jmp (.indexed 0x0010 (.g 2)) ∧
  decodeWords 0xA800 0x5678 = .call (.direct 0x5678) ∧
  decodeWords 0xB810 0x0008 = .ioOut (.g 1) (.direct 0x0008) ∧
  decodeWords 0xC4F0 0 = .pop .flag ∧
  decodeWords 0xD400 0 = .reti ∧
  decodeWords 0xFF00 0 = .halt ∧
  decodeWords 0x6800 0x1234 = .undefOp13 (.g 0) (.direct 0x1234)

/-- No bit of an encoding is dropped: the bytes of any well-formed instruction, followed by any bytes, decode to that
instruction and leave those bytes (R100 to R111, R116).
Choices the spec marks as its own: D1, D2, D5, D6, D7 (log 5; the bits written in ignored fields: log 18). -/
def Obligations.DecodeEncodeRoundTrip : Prop :=
  ∀ (i : Instr) (rest : List Byte), i.wellFormed = true → decode (encodeBytes i ++ rest) = .ok (i, rest)

/-- R110, R115, R116: every first word decodes, whatever follows it, to a well-formed instruction. It is one word when its
op is 0, 24, 26, 30 or 31; else two words when its mode is 0, 1 or 2; else one word.
Choices the spec marks as its own: D1, D2, D7, D38. -/
def Obligations.EveryWordDecodesWithItsLength : Prop :=
  ∀ (b0 b1 b2 b3 : Byte) (rest : List Byte), ∃ i rest',
    decode (b0 :: b1 :: b2 :: b3 :: rest) = .ok (i, rest') ∧ i.wellFormed = true ∧
    rest' =
      if b0.toNat / 8 = 0 ∨ b0.toNat / 8 = 24 ∨ b0.toNat / 8 = 26 ∨ b0.toNat / 8 = 30 ∨ b0.toNat / 8 = 31 then
        b2 :: b3 :: rest
      else if b0.toNat % 8 = 0 ∨ b0.toNat % 8 = 1 ∨ b0.toNat % 8 = 2 then rest
      else b2 :: b3 :: rest

/-- R105, R106, R109, R115: a field the spec calls ignored may hold any value. NOP, SVC and HALT ignore all three fields;
PUSH and POP ignore rx; RET and RETI ignore rd and rx; CALL ignores rd; direct and immediate modes ignore rx.
Choices the spec marks as its own: D1, D2, D6, D7. -/
def Obligations.IgnoredFieldsDoNotMatter : Prop :=
  ∀ (w w' e e' : Word), opField w = opField w' →
    ((opField w = 0 ∨ opField w = 30 ∨ opField w = 31) → decodeWords w e = decodeWords w' e') ∧
    (opField w = 24 → (modeField w = 0 ∨ modeField w = 4) → modeField w = modeField w' → rdField w = rdField w' →
      decodeWords w e = decodeWords w' e') ∧
    (opField w = 26 → (modeField w = 0 ∨ modeField w = 4) → modeField w = modeField w' →
      decodeWords w e = decodeWords w' e') ∧
    (opField w = 21 → modeField w = modeField w' → rxField w = rxField w' → decodeWords w e = decodeWords w' e) ∧
    (opField w ≠ 24 → opField w ≠ 26 → (modeField w = 0 ∨ modeField w = 2) → modeField w = modeField w' →
      rdField w = rdField w' → decodeWords w e = decodeWords w' e)

/-- R112, R113, R296: every undefined row of the table, and every word the rules call undefined, makes the undefined
operation pending and does nothing else.
Choices the spec marks as its own: D1, D5, D6, D16. -/
def Obligations.UndefinedOperationsRaise : Prop :=
  (∀ (s : State) (rd rx : Reg) (o : Operand), ∀ i ∈ [Instr.undefOp13 rd o, .undefOp14 rd o, .undefOp15 rd o,
      .undefOp25 rd o, .undefOp27 rd o, .undefOp28 rd o, .undefOp29 rd o, .undefJump14 o, .undefStack1 rd rx,
      .undefStack2 rd rx, .undefStack3 rd rx, .undefStack5 rd rx, .undefStack6 rd rx, .undefStack7 rd rx,
      .undefReturn1 rd rx, .undefReturn2 rd rx, .undefReturn3 rd rx, .undefReturn5 rd rx, .undefReturn6 rd rx,
      .undefReturn7 rd rx],
    exec i s = .next (s.setPend (s.pend.set s.cfg.intrUndef true))) ∧
  (∀ (w e : Word) (s : State),
    ((opField w).toNat ∈ [13, 14, 15, 25, 27, 28, 29] ∨ ((opField w).toNat = 20 ∧ (rdField w).toNat = 14) ∨
      (((opField w).toNat = 24 ∨ (opField w).toNat = 26) ∧ (modeField w).toNat ≠ 0 ∧ (modeField w).toNat ≠ 4)) →
    exec (decodeWords w e) s = .next (s.setPend (s.pend.set s.cfg.intrUndef true)))

/-! ### The step -/

/-- R130, R131, R139, R324: when the bytes at pc, after the requests that arrived and the interrupt check, decode to an
instruction, the step runs it with pc after it, on the state the check left.
Choices the spec marks as its own: D7, D15, D18, and the schedule of requests is the model's (log 9). -/
def Obligations.StepRunsDecodedInstruction : Prop :=
  ∀ (s t : State) (i : Instr) (rest : List Byte), s.halted = false → t = s.takeArrivals.interruptCheck →
    decode [t.readByte t.pc, t.readByte (t.pc + 1), t.readByte (t.pc + 2), t.readByte (t.pc + 3)] = .ok (i, rest) →
    (t.cfg.pcOverflow = .wrap ∨ t.pc.toNat + (4 - rest.length) < 0x10000) →
    step s = exec i (t.setPc (t.pc + BitVec.ofNat 16 (4 - rest.length)))

/-- R35, R130, R353, U27: the two ways a step stops. A halted core takes no step (the named stop is the model's form of it,
log 11). With PC_OVERFLOW = fault a step whose pc would pass 0xFFFF has no architectural outcome (log 12).
Choices the spec marks as its own: D15, D28. -/
def Obligations.HaltedOrOverflowingStepStops : Prop :=
  (∀ s : State, s.halted = true → step s = .fault .halted) ∧
  (∀ (s t : State) (i : Instr) (rest : List Byte), s.halted = false → t = s.takeArrivals.interruptCheck →
    decode [t.readByte t.pc, t.readByte (t.pc + 1), t.readByte (t.pc + 2), t.readByte (t.pc + 3)] = .ok (i, rest) →
    t.cfg.pcOverflow = .fault → 0x10000 ≤ t.pc.toNat + (4 - rest.length) → step s = .fault .pcOverflow)

/-- R144, R310, R373: no host-fatal outcome exists. Every instruction completes, so a core that has not halted always has a
next state when pc wraps, and a step is never refused.
Choices the spec marks as its own: D15, D28. -/
def Obligations.RunningCoreHasNextState : Prop :=
  (∀ (i : Instr) (s : State), ∃ t, exec i s = .next t) ∧
  (∀ s : State, s.halted = false → s.cfg.pcOverflow = .wrap → ∃ t, step s = .next t) ∧
  (∀ (s : State) (r : Refusal), step s ≠ .refused r)

/-! ### Reset -/

/-- R350, R64: what reset leaves in any machine, with any image: every word the image gives stands in the window. Registers, FP, SSP, USP and RAM below 0xE000 are
unspecified in the spec; keeping them is the model's choice (log 21) and is not claimed here.
Choices the spec marks as its own: D23 (PEND and HALTED), D30. -/
def Obligations.ResetLoadsImageAndStartsPrivileged : Prop :=
  ∀ s : State, s.performReset.pc = 0xE000 ∧ s.performReset.flags = 0x40 ∧ s.performReset.iplMode = true ∧
    s.performReset.halted = false ∧ (∀ n : IntrNum, s.performReset.pend[n.val] = false) ∧
    (∀ (k : Nat) (w : Word), k < 4096 → s.cfg.iplImage[k]? = some w →
      s.performReset.readWord (0xE000 + BitVec.ofNat 16 (2 * k)) = w)

/-- The state after reset satisfies the invariant, and a reset of it gives it again. The second clause is the model's choice, not
the spec's: it rests on log 21 (a reset keeps registers, RAM and environment).
Choices the spec marks as its own: D16, D30; the model's own reset values are logs 2, 3, 4, 6, 9, 10. -/
def Obligations.ResetSatisfiesInvariant : Prop :=
  State.reset.Inv ∧ State.reset.performReset = State.reset

/-! ### Registers and flags -/

/-- R24, R25, R26, R33: index 13 reads and writes SSP when P = 1 and USP when P = 0; index 14 is USP in every mode; index 15
reads the flag byte zero-extended, and a write to it takes bits 7..0, the whole byte when P = 1 and only V, C, S and Z when
P = 0.
Choices the spec marks as its own: D4, D24, D25, D32. -/
def Obligations.SpecialRegisterIndices : Prop :=
  ∀ (s : State) (v : Word),
    (s.flag .p = true → s.readReg .sp = s.ssp ∧ s.writeReg .sp v = s.setSsp v) ∧
    (s.flag .p = false → s.readReg .sp = s.usp ∧ s.writeReg .sp v = s.setUsp v) ∧
    s.readReg .usp = s.usp ∧ s.writeReg .usp v = s.setUsp v ∧
    (s.readReg .flag).toNat = s.flags.toNat ∧
    (s.flag .p = true → s.writeReg .flag v = s.setFlags (v.extractLsb' 0 8)) ∧
    (s.flag .p = false →
      s.writeReg .flag v = s.setFlags ((s.flags &&& 0xF0) ||| (v.extractLsb' 0 8 &&& 0x0F)))

/-- R28: after a write to SP in privileged mode and a switch to user mode, SP reads the user bank's last-written value, not
the supervisor's. -/
def Obligations.BankSwitchIsImmediate : Prop :=
  ∀ (s : State) (u v : Word) (b : Byte), s.flag .p = true → b.getLsbD 6 = false →
    (((s.writeReg .usp u).writeReg .sp v).writeFlags b).readReg .sp = u

/-- R21 to R27: a register reads back what was written to it, and a write to one register changes no other, but for the two
names of USP in user mode. A write to index 15 changes no stored register. -/
def Obligations.RegisterWriteFrame : Prop :=
  ∀ (s : State) (r r' : Reg) (v : Word),
    (r ≠ .flag → (s.writeReg r v).readReg r = v) ∧
    (r ≠ .flag → r' ≠ r → ¬(s.flag .p = false ∧ (r = .sp ∨ r = .usp) ∧ (r' = .sp ∨ r' = .usp)) →
      (s.writeReg r v).readReg r' = s.readReg r') ∧
    (s.flag .p = false → (r = .sp ∨ r = .usp) → (r' = .sp ∨ r' = .usp) → (s.writeReg r v).readReg r' = v) ∧
    ((s.writeReg .flag v).g = s.g ∧ (s.writeReg .flag v).fp = s.fp ∧ (s.writeReg .flag v).ssp = s.ssp ∧
      (s.writeReg .flag v).usp = s.usp)

/-- R31, R34, R200, R320: the places of the flags in the byte, the V, C, S, Z write of the ALU (which no mask limits), and
the flags of entry.
Choices the spec marks as its own: D3. -/
def Obligations.FlagByteLayout : Prop :=
  ∀ (b : Byte) (v c s z : Bool),
    (flagIn b .e = b.getLsbD 7 ∧ flagIn b .p = b.getLsbD 6 ∧ flagIn b .i = b.getLsbD 5 ∧
      flagIn b .reserved = b.getLsbD 4 ∧ flagIn b .v = b.getLsbD 3 ∧ flagIn b .c = b.getLsbD 2 ∧
      flagIn b .s = b.getLsbD 1 ∧ flagIn b .z = b.getLsbD 0) ∧
    (flagIn (withVCSZ b v c s z) .v = v ∧ flagIn (withVCSZ b v c s z) .c = c ∧ flagIn (withVCSZ b v c s z) .s = s ∧
      flagIn (withVCSZ b v c s z) .z = z) ∧
    (∀ f ∈ [Flag.e, .p, .i, .reserved], flagIn (withVCSZ b v c s z) f = flagIn b f) ∧
    (flagIn (entryFlags b) .e = false ∧ flagIn (entryFlags b) .p = true ∧
      ∀ f ∈ [Flag.i, .reserved, .v, .c, .s, .z], flagIn (entryFlags b) f = flagIn b f)

/-! ### Memory -/

/-- R61, R67, R68, R70: a word is the byte at its address, then the byte at the next address modulo 2^16; a word write is two
byte writes, each checked against the overlay on its own; no other byte changes, and nothing but memory does.
Choices the spec marks as its own: D14 (the wrap at 0xFFFF). -/
def Obligations.WordAccessIsBigEndian : Prop :=
  ∀ (s : State) (a b c v : Word), b.toNat = (a.toNat + 1) % 0x10000 →
    (s.readWord a).toNat = (s.readByte a).toNat * 256 + (s.readByte b).toNat ∧
    (¬(s.iplMode = true ∧ 0xE000 ≤ a.toNat) → (s.writeWord a v).readByte a = v.extractLsb' 8 8) ∧
    (s.iplMode = true → 0xE000 ≤ a.toNat → (s.writeWord a v).readByte a = s.readByte a) ∧
    (¬(s.iplMode = true ∧ 0xE000 ≤ b.toNat) → (s.writeWord a v).readByte b = v.extractLsb' 0 8) ∧
    (s.iplMode = true → 0xE000 ≤ b.toNat → (s.writeWord a v).readByte b = s.readByte b) ∧
    (c ≠ a → c ≠ b → (s.writeWord a v).readByte c = s.readByte c) ∧
    (s.writeWord a v).setMem s.mem = s

/-- R63: a byte write is dropped while the overlay protects its address, with no effect on any state, and stores its byte
elsewhere; no other byte changes, and nothing but memory does. -/
def Obligations.StoreUnderOverlay : Prop :=
  ∀ (s : State) (a c : Word) (b : Byte),
    (s.iplMode = true → 0xE000 ≤ a.toNat → s.writeByte a b = s) ∧
    (¬(s.iplMode = true ∧ 0xE000 ≤ a.toNat) → (s.writeByte a b).readByte a = b) ∧
    (c ≠ a → (s.writeByte a b).readByte c = s.readByte c) ∧
    (s.writeByte a b).setMem s.mem = s

/-- R65: detaching clears the overlay and zeroes the window; after it the window is writable and reads back what was
written; memory below the window keeps its bytes and nothing but memory and the overlay changes. -/
def Obligations.DetachZeroesWindow : Prop :=
  ∀ (s : State) (a : Word) (b : Byte), s.detachIpl.iplMode = false ∧
    (0xE000 ≤ a.toNat → s.detachIpl.readByte a = 0) ∧
    (a.toNat < 0xE000 → s.detachIpl.readByte a = s.readByte a) ∧
    (s.detachIpl.writeByte a b).readByte a = b ∧
    (s.detachIpl.setMem s.mem).setIplMode s.iplMode = s

/-! ### Operands -/

/-- R132 to R138: the effective address of each mode, modulo 2^16, and the operand it loads; a byte is zero-extended, a
short immediate sign-extended.
Choices the spec marks as its own: D2, D9, D13. -/
def Obligations.OperandAddressing : Prop :=
  ∀ (s : State) (ext : Word) (rx : Reg) (d v : Int),
    s.effAddr (.direct ext) = ext ∧
    (s.effAddr (.indexed ext rx)).toNat = (ext.toNat + (s.readReg rx).toNat) % 0x10000 ∧
    ((s.effAddr (.fpRel d)).toNat : Int) = ((s.fp.toNat : Int) + d) % 0x10000 ∧
    s.effAddr (.indirect rx) = s.readReg rx ∧ s.effAddr (.byteIndirect rx) = s.readReg rx ∧
    s.effAddr (.immediate ext) = 0 ∧ s.effAddr (.register rx) = 0 ∧ s.effAddr (.shortImm v) = 0 ∧
    s.loadOperand (.direct ext) = s.readWord (s.effAddr (.direct ext)) ∧
    s.loadOperand (.indexed ext rx) = s.readWord (s.effAddr (.indexed ext rx)) ∧
    s.loadOperand (.fpRel d) = s.readWord (s.effAddr (.fpRel d)) ∧
    s.loadOperand (.indirect rx) = s.readWord (s.effAddr (.indirect rx)) ∧
    s.loadOperand (.immediate ext) = ext ∧ s.loadOperand (.register rx) = s.readReg rx ∧
    (-8 ≤ v → v ≤ 7 → (s.loadOperand (.shortImm v)).toInt = v) ∧
    (s.loadOperand (.byteIndirect rx)).toNat = (s.readByte (s.effAddr (.byteIndirect rx))).toNat

/-- R140: in a mode without an effective address, `undefined_trap` raises the undefined operation and does nothing else,
and under `literal` the address is 0.
Choices the spec marks as its own: D8, D37. -/
def Obligations.TargetWithoutAddress : Prop :=
  ∀ (s : State) (rd : Reg) (o : Operand), (o.mode = 2 ∨ o.mode = 4 ∨ o.mode = 5) →
    s.effAddr o = 0 ∧
    (s.cfg.noEaPolicy = .undefinedTrap →
      ∀ i ∈ [Instr.st rd o, .jz o, .jc o, .jm o, .jo o, .jgt o, .jge o, .jle o, .jlt o, .jnz o, .jnc o, .jnm o, .jno o,
        .jhi o, .jls o, .jmp o, .call o, .ioIn rd o, .ioOut rd o],
        exec i s = .next (s.setPend (s.pend.set s.cfg.intrUndef true)))

/-! ### NOP, LD, ST -/

/-- R160, R161: NOP has no effect; LD puts the operand in the destination register, which for index 15 is a masked flag
write.
Choices the spec marks as its own: D4, D7. -/
def Obligations.NopAndLd : Prop :=
  ∀ (s : State) (rd : Reg) (src : Operand), exec .nop s = .next s ∧
    exec (.ld rd src) s = .next (s.writeReg rd (s.loadOperand src))

/-- R162 with its frame: ST stores the source register's low byte in byte register indirect mode and the whole register in
the others; every byte but the stored ones is unchanged, and so is everything that is not memory.
Choices the spec marks as its own: D8, D14. -/
def Obligations.StStoresRegister : Prop :=
  ∀ (s : State) (rd rx : Reg) (dst : Operand), s.TargetExecutes dst →
    exec (.st rd (.byteIndirect rx)) s =
      .next (s.writeByte (s.effAddr (.byteIndirect rx)) ((s.readReg rd).extractLsb' 0 8)) ∧
    (dst.mode ≠ 7 → exec (.st rd dst) s = .next (s.writeWord (s.effAddr dst) (s.readReg rd))) ∧
    (∀ t : State, exec (.st rd dst) s = .next t → t.setMem s.mem = s ∧
      ∀ a c : Word, a = s.effAddr dst → c ≠ a → (dst.mode = 7 ∨ c ≠ a + 1) → t.readByte c = s.readByte c)

/-! ### The ALU group -/

/-- R210: ADD, with the flags of R200; no mask limits the flag update (R34).
Choices the spec marks as its own: D9. -/
def Obligations.AddComputes : Prop :=
  ∀ (s : State) (rd : Reg) (src : Operand) (v1 v2 t : Word), v1 = s.readReg rd → v2 = s.loadOperand src → t = v1 + v2 →
    exec (.add rd src) s = .next ((s.setFlags (withVCSZ s.flags
      (v1.getLsbD 15 == v2.getLsbD 15 && t.getLsbD 15 != v1.getLsbD 15) (decide (0x10000 ≤ v1.toNat + v2.toNat))
      (t.getLsbD 15) (decide (t = 0)))).writeReg rd t)

/-- R211, R212, R201: SUB and CMP, under both overflow rules; C is the unsigned borrow; CMP writes no register.
Choices the spec marks as its own: D9, D39. -/
def Obligations.SubAndCmpCompute : Prop :=
  ∀ (s : State) (rd : Reg) (src : Operand) (v1 v2 t : Word) (v : Bool), v1 = s.readReg rd → v2 = s.loadOperand src →
    t = v1 - v2 →
    v = ((if s.cfg.subVRule = .standard then v1.getLsbD 15 != v2.getLsbD 15 else v1.getLsbD 15 == v2.getLsbD 15) &&
      t.getLsbD 15 != v1.getLsbD 15) →
    exec (.cmp rd src) s =
      .next (s.setFlags (withVCSZ s.flags v (decide (v1.toNat < v2.toNat)) (t.getLsbD 15) (decide (t = 0)))) ∧
    exec (.sub rd src) s =
      .next ((s.setFlags (withVCSZ s.flags v (decide (v1.toNat < v2.toNat)) (t.getLsbD 15) (decide (t = 0)))).writeReg rd t)

/-- R213, R214, R215: AND, OR and XOR; V and C are 0.
Choices the spec marks as its own: D9. -/
def Obligations.LogicComputes : Prop :=
  ∀ (s : State) (rd : Reg) (src : Operand) (v1 v2 : Word), v1 = s.readReg rd → v2 = s.loadOperand src →
    exec (.and rd src) s = .next ((s.setFlags (withVCSZ s.flags false false ((v1 &&& v2).getLsbD 15)
      (decide (v1 &&& v2 = 0)))).writeReg rd (v1 &&& v2)) ∧
    exec (.or rd src) s = .next ((s.setFlags (withVCSZ s.flags false false ((v1 ||| v2).getLsbD 15)
      (decide (v1 ||| v2 = 0)))).writeReg rd (v1 ||| v2)) ∧
    exec (.xor rd src) s = .next ((s.setFlags (withVCSZ s.flags false false ((v1 ^^^ v2).getLsbD 15)
      (decide (v1 ^^^ v2 = 0)))).writeReg rd (v1 ^^^ v2))

/-- R216, R217: ADDS adds twice the operand, MUL keeps the low 16 bits of the product; V and C are 0.
Choices the spec marks as its own: D9, D12 (MUL). -/
def Obligations.AddsAndMulCompute : Prop :=
  ∀ (s : State) (rd : Reg) (src : Operand) (v1 v2 a m : Word), v1 = s.readReg rd → v2 = s.loadOperand src →
    a.toNat = (v1.toNat + v2.toNat * 2) % 0x10000 → m.toNat = v1.toNat * v2.toNat % 0x10000 →
    exec (.adds rd src) s = .next ((s.setFlags (withVCSZ s.flags false false (a.getLsbD 15) (decide (a = 0)))).writeReg rd a) ∧
    exec (.mul rd src) s = .next ((s.setFlags (withVCSZ s.flags false false (m.getLsbD 15) (decide (m = 0)))).writeReg rd m)

/-- R184, R186, R218, R219: DIV and MOD of a nonzero divisor are unsigned; by 0 they give 0, set Z, complete, and make the
divide-by-zero exception pending.
Choices the spec marks as its own: D10 (unsigned), D16. -/
def Obligations.DivAndModCompute : Prop :=
  ∀ (s : State) (rd : Reg) (src : Operand) (v1 v2 q m : Word), v1 = s.readReg rd → v2 = s.loadOperand src →
    (v2 ≠ 0 → q.toNat = v1.toNat / v2.toNat → exec (.div rd src) s =
      .next ((s.setFlags (withVCSZ s.flags false false (q.getLsbD 15) (decide (q = 0)))).writeReg rd q)) ∧
    (v2 ≠ 0 → m.toNat = v1.toNat % v2.toNat → exec (.mod rd src) s =
      .next ((s.setFlags (withVCSZ s.flags false false (m.getLsbD 15) (decide (m = 0)))).writeReg rd m)) ∧
    (v2 = 0 → ∀ i ∈ [Instr.div rd src, .mod rd src],
      exec i s = .next (((s.setPend (s.pend.set s.cfg.intrZdiv true)).setFlags
        (withVCSZ s.flags false false false true)).writeReg rd 0))

/-- R183, R220, R221: SHLA and SHLL are the same left shift by the low 4 bits of the operand; C is the bit shifted out when
the count is one, else 0.
Choices the spec marks as its own: D11. -/
def Obligations.LeftShiftsCompute : Prop :=
  ∀ (s : State) (rd : Reg) (src : Operand) (v1 v2 t : Word), v1 = s.readReg rd → v2 = s.loadOperand src →
    t.toNat = v1.toNat * 2 ^ (v2.toNat % 16) % 0x10000 →
    ∀ i ∈ [Instr.shla rd src, .shll rd src],
      exec i s = .next ((s.setFlags (withVCSZ s.flags false (s.shiftsByOne v2 && v1.getLsbD 15) (t.getLsbD 15)
        (decide (t = 0)))).writeReg rd t)

/-- R183, R202, R222, R223: SHRA fills with the sign and gives C = v1[15] when the count is one; SHRL fills with zeros and
gives C = 0.
Choices the spec marks as its own: D11. -/
def Obligations.RightShiftsCompute : Prop :=
  ∀ (s : State) (rd : Reg) (src : Operand) (v1 v2 a l : Word), v1 = s.readReg rd → v2 = s.loadOperand src →
    a.toInt = v1.toInt / 2 ^ (v2.toNat % 16) → l.toNat = v1.toNat / 2 ^ (v2.toNat % 16) →
    exec (.shra rd src) s = .next ((s.setFlags (withVCSZ s.flags false (s.shiftsByOne v2 && v1.getLsbD 15) (a.getLsbD 15)
      (decide (a = 0)))).writeReg rd a) ∧
    exec (.shrl rd src) s = .next ((s.setFlags (withVCSZ s.flags false false (l.getLsbD 15)
      (decide (l = 0)))).writeReg rd l)

/-- R204: with rd = 15 the store goes through WriteFlags after the flag update: in privileged mode the byte is the low byte
of the result `r`, in user mode E, P, I and the reserved bit are kept and V, C, S, Z are its low four bits; the first operand
is the flag byte.
Choices the spec marks as its own: D4, D27. -/
def Obligations.AluOnFlagByte : Prop :=
  ∀ (s : State) (src : Operand) (r : Word), ∀ p ∈ [(AluOp.add, Instr.add .flag src), (.sub, .sub .flag src),
      (.and, .and .flag src), (.or, .or .flag src), (.xor, .xor .flag src), (.adds, .adds .flag src),
      (.mul, .mul .flag src), (.div, .div .flag src), (.mod, .mod .flag src), (.shla, .shla .flag src),
      (.shll, .shll .flag src), (.shra, .shra .flag src), (.shrl, .shrl .flag src)],
    r = trunc16 (aluResult p.1 (s.flags.setWidth 16) (s.loadOperand src)) →
    ∃ t, exec p.2 s = .next t ∧ (s.flag .p = true → t.flags = r.extractLsb' 0 8) ∧
      (s.flag .p = false → t.flags = (s.flags &&& 0xF0) ||| (r.extractLsb' 0 8 &&& 0x0F))

/-- R201: the overflow formulas mean signed overflow: V after ADD says that the exact signed sum does not fit 16 bits; V after
SUB and CMP under `standard` says so of the exact signed difference. ADD and SUB to index 15, whose register write replaces the
flags, are AluOnFlagByte's.
Choices the spec marks as its own: D39. -/
def Obligations.OverflowIsSigned : Prop :=
  ∀ (s t u w : State) (rd : Reg) (src : Operand) (v1 v2 : Word), v1 = s.readReg rd → v2 = s.loadOperand src →
    exec (.add rd src) s = .next t → exec (.sub rd src) s = .next u → exec (.cmp rd src) s = .next w →
    (rd ≠ .flag → (t.flag .v = true ↔ ¬(-32768 ≤ v1.toInt + v2.toInt ∧ v1.toInt + v2.toInt ≤ 32767))) ∧
    (s.cfg.subVRule = .standard → rd ≠ .flag →
      (u.flag .v = true ↔ ¬(-32768 ≤ v1.toInt - v2.toInt ∧ v1.toInt - v2.toInt ≤ 32767))) ∧
    (s.cfg.subVRule = .standard →
      (w.flag .v = true ↔ ¬(-32768 ≤ v1.toInt - v2.toInt ∧ v1.toInt - v2.toInt ≤ 32767)))

/-- R32, R185 with the frame of LD and the ALU group: only the destination register, V, C, S and Z (none for LD), and the
divide-by-zero slot can change. No byte of memory does. -/
def Obligations.RegisterInstructionFrame : Prop :=
  ∀ (s t : State) (rd : Reg) (src : Operand), ∀ i ∈ [Instr.ld rd src, .add rd src, .sub rd src, .cmp rd src, .and rd src,
      .or rd src, .xor rd src, .adds rd src, .mul rd src, .div rd src, .mod rd src, .shla rd src, .shll rd src,
      .shra rd src, .shrl rd src], exec i s = .next t →
    (∀ n : Fin 12, rd ≠ .g n → t.g[n.val] = s.g[n.val]) ∧ (rd ≠ .fp → t.fp = s.fp) ∧
    (¬(rd = .sp ∧ s.flag .p = true) → t.ssp = s.ssp) ∧
    (rd ≠ .usp → ¬(rd = .sp ∧ s.flag .p = false) → t.usp = s.usp) ∧
    (rd ≠ .flag → i = .ld rd src → t.flags = s.flags) ∧
    (rd ≠ .flag → ∀ f ∈ [Flag.e, .p, .i, .reserved], t.flag f = s.flag f) ∧
    (∀ n : IntrNum, t.pend[n.val] ≠ s.pend[n.val] → n = s.cfg.intrZdiv ∧ (i = .div rd src ∨ i = .mod rd src)) ∧
    (∀ a : Word, t.readByte a = s.readByte a) ∧ t.pc = s.pc ∧ t.iplMode = s.iplMode ∧ t.halted = s.halted ∧
    t.cfg = s.cfg ∧ t.env = s.env

/-! ### Jumps, CALL, RET, RETI -/

/-- R231 to R234, R239 to R242, R245: the jumps on one flag and JMP.
Choices the spec marks as its own: D5, D8. -/
def Obligations.SimpleJumps : Prop :=
  ∀ (s : State) (dst : Operand), s.TargetExecutes dst →
    exec (.jz dst) s = .next (if s.flag .z = true then s.setPc (s.effAddr dst) else s) ∧
    exec (.jc dst) s = .next (if s.flag .c = true then s.setPc (s.effAddr dst) else s) ∧
    exec (.jm dst) s = .next (if s.flag .s = true then s.setPc (s.effAddr dst) else s) ∧
    exec (.jo dst) s = .next (if s.flag .v = true then s.setPc (s.effAddr dst) else s) ∧
    exec (.jnz dst) s = .next (if s.flag .z = false then s.setPc (s.effAddr dst) else s) ∧
    exec (.jnc dst) s = .next (if s.flag .c = false then s.setPc (s.effAddr dst) else s) ∧
    exec (.jnm dst) s = .next (if s.flag .s = false then s.setPc (s.effAddr dst) else s) ∧
    exec (.jno dst) s = .next (if s.flag .v = false then s.setPc (s.effAddr dst) else s) ∧
    exec (.jmp dst) s = .next (s.setPc (s.effAddr dst))

/-- R235 to R238, R243, R244: the jumps on a compound condition.
Choices the spec marks as its own: D5, D8. -/
def Obligations.CompoundJumps : Prop :=
  ∀ (s : State) (dst : Operand), s.TargetExecutes dst →
    exec (.jgt dst) s =
      .next (if s.flag .z = false ∧ s.flag .s = s.flag .v then s.setPc (s.effAddr dst) else s) ∧
    exec (.jge dst) s = .next (if s.flag .s = s.flag .v then s.setPc (s.effAddr dst) else s) ∧
    exec (.jle dst) s =
      .next (if s.flag .z = true ∨ s.flag .s ≠ s.flag .v then s.setPc (s.effAddr dst) else s) ∧
    exec (.jlt dst) s = .next (if s.flag .s ≠ s.flag .v then s.setPc (s.effAddr dst) else s) ∧
    exec (.jhi dst) s =
      .next (if s.flag .c = false ∧ s.flag .z = false then s.setPc (s.effAddr dst) else s) ∧
    exec (.jls dst) s =
      .next (if s.flag .c = true ∨ s.flag .z = true then s.setPc (s.effAddr dst) else s)

/-- R230: after CMP a,b under the standard overflow rule, the compare jumps compare a and b: JGT, JGE, JLE, JLT as signed
numbers, JHI, JLS, JC, JNC as unsigned numbers, JZ and JNZ for equality.
Choices the spec marks as its own: D5, D8, D39. -/
def Obligations.JumpsAfterCompare : Prop :=
  ∀ (s t : State) (rd : Reg) (src dst : Operand) (a b : Word), a = s.readReg rd → b = s.loadOperand src →
    s.cfg.subVRule = .standard → s.TargetExecutes dst → exec (.cmp rd src) s = .next t →
    exec (.jgt dst) t = .next (if b.toInt < a.toInt then t.setPc (t.effAddr dst) else t) ∧
    exec (.jge dst) t = .next (if b.toInt ≤ a.toInt then t.setPc (t.effAddr dst) else t) ∧
    exec (.jle dst) t = .next (if a.toInt ≤ b.toInt then t.setPc (t.effAddr dst) else t) ∧
    exec (.jlt dst) t = .next (if a.toInt < b.toInt then t.setPc (t.effAddr dst) else t) ∧
    exec (.jhi dst) t = .next (if b.toNat < a.toNat then t.setPc (t.effAddr dst) else t) ∧
    exec (.jls dst) t = .next (if a.toNat ≤ b.toNat then t.setPc (t.effAddr dst) else t) ∧
    exec (.jc dst) t = .next (if a.toNat < b.toNat then t.setPc (t.effAddr dst) else t) ∧
    exec (.jnc dst) t = .next (if b.toNat ≤ a.toNat then t.setPc (t.effAddr dst) else t) ∧
    exec (.jz dst) t = .next (if a = b then t.setPc (t.effAddr dst) else t) ∧
    exec (.jnz dst) t = .next (if a ≠ b then t.setPc (t.effAddr dst) else t)

/-- R250, R251, R270, R271: CALL pushes the address after itself on the active stack and jumps to the address computed
before the push; RET jumps to the word at the active stack pointer and moves it up by 2; nothing else changes.
Choices the spec marks as its own: D6, D8. -/
def Obligations.CallAndRet : Prop :=
  ∀ (s : State) (dst : Operand) (sp : Word), sp = s.readReg .sp - 2 →
    (s.TargetExecutes dst →
      exec (.call dst) s = .next (((s.writeReg .sp sp).writeWord sp s.pc).setPc (s.effAddr dst))) ∧
    exec .ret s = .next ((s.writeReg .sp (s.readReg .sp + 2)).setPc (s.readWord (s.readReg .sp)))

/-- R252: RETI pops pc, then the flags word, both from the bank in force before the flag write; with P = 1 all flags are
restored, with P = 0 only V, C, S and Z; nothing else changes.
Choices the spec marks as its own: D6, D32. -/
def Obligations.RetiPopsPcAndFlags : Prop :=
  ∀ (s : State) (f : Byte),
    f = (s.readWord (s.readReg .sp + 2)).extractLsb' 0 8 →
    (s.flag .p = true → exec .reti s =
      .next (((s.setSsp (s.ssp + 4)).setPc (s.readWord s.ssp)).setFlags f)) ∧
    (s.flag .p = false → exec .reti s =
      .next (((s.setUsp (s.usp + 4)).setPc (s.readWord s.usp)).setFlags ((s.flags &&& 0xF0) ||| (f &&& 0x0F))))

/-- R250, R251: a RET right after a CALL returns to the instruction after the CALL with the stack pointer restored, when the
overlay does not drop the pushed bytes.
Choices the spec marks as its own: D6, D8, D14. -/
def Obligations.RetUndoesCall : Prop :=
  ∀ (s t : State) (dst : Operand) (sp : Word), s.TargetExecutes dst → sp = s.readReg .sp - 2 →
    (s.iplMode = false ∨ (sp.toNat < 0xE000 ∧ (sp + 1).toNat < 0xE000)) → exec (.call dst) s = .next t →
    ∃ u, exec .ret t = .next u ∧ u.pc = s.pc ∧ u.setMem s.mem = s

/-! ### The stack -/

/-- R270 to R273: PUSH decrements the active stack pointer by 2 modulo 2^16 and stores the register as it was before; POP
reads the word at the active stack pointer, increments it by 2, then writes the register.
Choices the spec marks as its own: D6, D26. -/
def Obligations.PushAndPop : Prop :=
  ∀ (s : State) (rd : Reg) (sp : Word), sp = s.readReg .sp - 2 →
    exec (.push rd) s = .next ((s.writeReg .sp sp).writeWord sp (s.readReg rd)) ∧
    exec (.pop rd) s = .next ((s.writeReg .sp (s.readReg .sp + 2)).writeReg rd (s.readWord (s.readReg .sp)))

/-- R271, the §8 property: pushing a register then popping into another register yields the original value, and the stack
pointer's net change is zero, when the overlay does not drop the pushed bytes.
Choices the spec marks as its own: D6, D14, D26. -/
def Obligations.PopUndoesPush : Prop :=
  ∀ (s t : State) (r r' : Reg) (sp : Word), sp = s.readReg .sp - 2 → r' ≠ .sp → r' ≠ .flag →
    ¬(s.flag .p = false ∧ r' = .usp) →
    (s.iplMode = false ∨ (sp.toNat < 0xE000 ∧ (sp + 1).toNat < 0xE000)) → exec (.push r) s = .next t →
    ∃ u, exec (.pop r') t = .next u ∧ u.readReg r' = s.readReg r ∧ u.readReg .sp = s.readReg .sp

/-- The frame of PUSH, CALL, POP, RET and RETI in memory (R72, R250, R251, R252, R272, R273): PUSH and CALL store to the two bytes at
the decremented stack pointer and nowhere else; POP, RET and RETI store nothing; general registers and FP change only as
POP's destination.
Choices the spec marks as its own: D6, D8, D26. -/
def Obligations.StackInstructionFrame : Prop :=
  ∀ (s t : State) (rd : Reg) (dst : Operand),
    (∀ i ∈ [Instr.push rd, .call dst], exec i s = .next t →
      (∀ a c : Word, a = s.readReg .sp - 2 → c ≠ a → c ≠ a + 1 → t.readByte c = s.readByte c) ∧
      t.g = s.g ∧ t.fp = s.fp ∧ t.flags = s.flags ∧ (s.flag .p = true → t.usp = s.usp) ∧
      (s.flag .p = false → t.ssp = s.ssp) ∧ (i = .push rd ∨ s.TargetExecutes dst → t.pend = s.pend) ∧
      (i = .push rd → t.pc = s.pc) ∧ t.iplMode = s.iplMode ∧ t.halted = s.halted ∧ t.cfg = s.cfg ∧ t.env = s.env) ∧
    (∀ i ∈ [Instr.pop rd, .ret, .reti], exec i s = .next t →
      (∀ a : Word, t.readByte a = s.readByte a) ∧
      (∀ n : Fin 12, ¬(i = .pop rd ∧ rd = .g n) → t.g[n.val] = s.g[n.val]) ∧
      (¬(i = .pop rd ∧ rd = .fp) → t.fp = s.fp) ∧
      (s.flag .p = true → ¬(i = .pop rd ∧ rd = .usp) → t.usp = s.usp) ∧ (s.flag .p = false → t.ssp = s.ssp) ∧
      (i ≠ .reti → ¬(i = .pop rd ∧ rd = .flag) → t.flags = s.flags) ∧ (i = .pop rd → t.pc = s.pc) ∧
      t.iplMode = s.iplMode ∧ t.pend = s.pend ∧ t.halted = s.halted ∧ t.cfg = s.cfg ∧ t.env = s.env)

/-! ### IN, OUT, SVC, HALT, undefined operations -/

/-- R82, R84, R290: an allowed IN writes 0 for an I/O address that is odd, at or above 0x100, or has no read operation, and
touches no device; for a bound slot it writes the value drawn from the device, whatever that is, and records the read.
Choices the spec marks as its own: D19, D20, D22 (the free value: logs 6, 7; the record: log 10). -/
def Obligations.InReadsSlot : Prop :=
  ∀ (s : State) (rd : Reg) (port : Operand) (a : Word), s.TargetExecutes port → s.IoAllowed → a = s.effAddr port →
    ((a.toNat % 2 = 1 ∨ 0x100 ≤ a.toNat ∨ ∀ r ∈ s.cfg.ioMap, r.addr = a → r.read = none) →
      exec (.ioIn rd port) s = .next (s.writeReg rd 0)) ∧
    (∀ (r : IoSlot) (op : DeviceRead), a.toNat % 2 = 0 → a.toNat < 0x100 →
      s.cfg.ioMap.find? (fun r => r.addr == a) = some r → r.read = some op →
      ∃ v : Word, (op = .serialReceive → v.toNat < 0x100) ∧
        exec (.ioIn rd port) s = .next ((s.setEnv { s.env with
          draws := s.env.draws + 1, ioTrace := .read a op v :: s.env.ioTrace }).writeReg rd v))

/-- R83, R84, R87, R291: an allowed OUT writes no device for an address that is odd, at or above 0x100, or has no write
operation; for a bound slot that is no storage slot it performs the device write with the register's value and changes no
other core state; in both cases, and for a storage slot, OUT to IPL_DETACH detaches the boot image in addition to the device
write.
Choices the spec marks as its own: D19, D20, D22, D29 (the record: log 10; the detach comes last: log 14; IPL_DETACH may be any
16-bit address: log 24). -/
def Obligations.OutWritesSlot : Prop :=
  ∀ (s : State) (rd : Reg) (port : Operand) (a : Word), s.TargetExecutes port → s.IoAllowed → a = s.effAddr port →
    ((a.toNat % 2 = 1 ∨ 0x100 ≤ a.toNat ∨ ∀ r ∈ s.cfg.ioMap, r.addr = a → r.write = none) →
      exec (.ioOut rd port) s = .next (if s.cfg.iplDetach = some a then s.detachIpl else s)) ∧
    (∀ (r : IoSlot) (op : DeviceWrite) (w : State), a.toNat % 2 = 0 → a.toNat < 0x100 →
      s.cfg.ioMap.find? (fun r => r.addr == a) = some r → r.write = some op → State.isStorageWrite op = false →
      w = s.setEnv { s.env with ioTrace := .write a op (s.readReg rd) :: s.env.ioTrace } →
      exec (.ioOut rd port) s = .next (if s.cfg.iplDetach = some a then w.detachIpl else w)) ∧
    (∀ (r : IoSlot) (op : DeviceWrite), a.toNat % 2 = 0 → a.toNat < 0x100 →
      s.cfg.ioMap.find? (fun r => r.addr == a) = some r → r.write = some op →
      ∃ t, exec (.ioOut rd port) s = .next t ∧ t.env.ioTrace = .write a op (s.readReg rd) :: s.env.ioTrace) ∧
    (s.cfg.iplDetach = some a → ∃ t, exec (.ioOut rd port) s = .next t ∧ t.iplMode = false ∧
      ∀ c : Word, 0xE000 ≤ c.toNat → t.readByte c = 0)

/-- R87, R88: an allowed OUT to a storage slot moves at most one sector of 512 bytes to the controller's buffer address, through
the overlay: the byte at each address is the sector's, or what stood there when no sector is moved, when the address is outside
the sector, or when the overlay protects it. It changes no register, flag, pc or slot. At IPL_DETACH it then detaches.
Choices the spec marks as its own: D22 (whether a sector is moved and its bytes are free, and the buffer address is what an OUT
last wrote to its slot: log 8; the record: log 10; the detach comes last: log 14). -/
def Obligations.OutToStorageMovesAtMostASector : Prop :=
  ∀ (s : State) (rd : Reg) (port : Operand) (a base : Word) (r : IoSlot) (op : DeviceWrite), s.TargetExecutes port →
    s.IoAllowed → a = s.effAddr port → a.toNat % 2 = 0 → a.toNat < 0x100 →
    s.cfg.ioMap.find? (fun r => r.addr == a) = some r → r.write = some op → State.isStorageWrite op = true →
    base = (if op = .storageBufferAddress then s.readReg rd else s.env.storageBuffer) →
    ∃ t : State, exec (.ioOut rd port) s = .next (if s.cfg.iplDetach = some a then t.detachIpl else t) ∧
      (t.setMem s.mem).setEnv s.env = s ∧
      t.env = { s.env with
        draws := s.env.draws + 1
        ioTrace := .write a op (s.readReg rd) :: s.env.ioTrace
        storageBuffer := base } ∧
      ∀ c : Word, t.readByte c =
        match Config.sectorTransfer s.env.draws with
        | none => s.readByte c
        | some x =>
          if h : (c - base).toNat < 512 then
            if s.iplMode = true ∧ 0xE000 ≤ c.toNat then s.readByte c else x[(c - base).toNat]
          else s.readByte c

/-- R290, R291, R292: with the check on, IN and OUT with P = 0 and I = 0 raise the privilege violation and do nothing else:
no register is written and no device is touched.
Choices the spec marks as its own: D16, D19. -/
def Obligations.IoWithoutPrivilegeRaises : Prop :=
  ∀ (s : State) (rd : Reg) (port : Operand), s.TargetExecutes port → s.cfg.ioPrivCheck = true → s.flag .p = false →
    s.flag .i = false → ∀ i ∈ [Instr.ioIn rd port, .ioOut rd port],
      exec i s = .next (s.setPend (s.pend.set s.cfg.intrPriv true))

/-- R293, R294: SVC makes the supervisor call pending; HALT with P = 1 halts the core, and with P = 0 makes the privilege
violation pending; nothing else changes.
Choices the spec marks as its own: D16, D28. -/
def Obligations.SvcAndHalt : Prop :=
  ∀ s : State, exec .svc s = .next (s.setPend (s.pend.set s.cfg.intrSvc true)) ∧
    (s.flag .p = true → exec .halt s = .next (s.setHalted true)) ∧
    (s.flag .p = false → exec .halt s = .next (s.setPend (s.pend.set s.cfg.intrPriv true)))

/-! ### Interrupts and traps -/

/-- R311: raising an exception sets its slot and changes nothing else; raising one that is pending changes nothing. -/
def Obligations.RaiseSetsOneSlot : Prop :=
  ∀ (s : State) (n : IntrNum), s.raise n = s.setPend (s.pend.set n.val true) ∧ (s.raise n).pend[n.val] = true ∧
    (∀ k : IntrNum, k ≠ n → (s.raise n).pend[k.val] = s.pend[k.val]) ∧ (s.pend[n.val] = true → s.raise n = s)

/-- R313, R325: the slot taken is the lowest pending exception slot, else the lowest pending ordinary slot; NONE only when
nothing is pending; exactly the returned slot is cleared.
Choices the spec marks as its own: D16, D17. -/
def Obligations.InterruptPriority : Prop :=
  ∀ (s : State) (n m : IntrNum),
    (s.checkIntrNum.1 = none ↔ ∀ k : IntrNum, s.pend[k.val] = false) ∧
    (s.checkIntrNum.1 = some n → s.pend[n.val] = true ∧
      (s.cfg.excFirst ≤ n → ∀ k : IntrNum, s.cfg.excFirst ≤ k → k < n → s.pend[k.val] = false) ∧
      (n < s.cfg.excFirst → (∀ k : IntrNum, s.cfg.excFirst ≤ k → s.pend[k.val] = false) ∧
        ∀ k : IntrNum, k < n → s.pend[k.val] = false) ∧
      s.checkIntrNum.2 = s.setPend (s.pend.set n.val false)) ∧
    (s.checkIntrNum.1 = none → s.checkIntrNum.2 = s)

/-- R316: with E = 0 and no exception pending the check does nothing; otherwise, when some slot is pending, it enters the
handler of the slot CheckIntrNum returns; when no slot is pending it does nothing. With E = 0 and an exception pending the slot
it takes is an exception slot, and every ordinary slot stays as it is. -/
def Obligations.InterruptCheckMasksOrdinarySlots : Prop :=
  ∀ (s : State) (n : IntrNum),
    (s.flag .e = false → (∀ k : IntrNum, s.cfg.excFirst ≤ k → s.pend[k.val] = false) → s.interruptCheck = s) ∧
    ((s.flag .e = true ∨ ∃ k : IntrNum, s.cfg.excFirst ≤ k ∧ s.pend[k.val] = true) → s.checkIntrNum.1 = some n →
      s.interruptCheck = s.checkIntrNum.2.enter n) ∧
    (s.checkIntrNum.1 = none → s.interruptCheck = s) ∧
    (s.flag .e = false → s.cfg.excFirst ≤ n → s.pend[n.val] = true →
      ∃ m : IntrNum, s.cfg.excFirst ≤ m ∧ s.pend[m.val] = true ∧
        s.interruptCheck = (s.setPend (s.pend.set m.val false)).enter m ∧
        ∀ k : IntrNum, k < s.cfg.excFirst → s.interruptCheck.pend[k.val] = s.pend[k.val])

/-- R320, R322: entry pushes the flags word, then pc, on the supervisor stack whatever P is, clears E, sets P, and loads pc
from the vector at 0xFFE0 + 2n; where the overlay does not drop the pushes the frame holds pc and, above it, the flags. No
other register, slot or byte changes.
Choices the spec marks as its own: D34. -/
def Obligations.EntrySavesFlagsAndPc : Prop :=
  ∀ (s : State) (n : IntrNum) (sp c : Word), sp = s.ssp - 4 →
    (s.enter n).ssp = sp ∧ (s.enter n).usp = s.usp ∧ (s.enter n).g = s.g ∧ (s.enter n).fp = s.fp ∧
    (s.enter n).flags = entryFlags s.flags ∧
    (s.enter n).pc = (s.enter n).readWord (BitVec.ofNat 16 (0xFFE0 + 2 * n.val)) ∧
    ((s.iplMode = false ∨ (sp.toNat < 0xE000 ∧ (sp + 1).toNat < 0xE000 ∧ (sp + 2).toNat < 0xE000 ∧
      (sp + 3).toNat < 0xE000)) →
      (s.enter n).readWord sp = s.pc ∧ (s.enter n).readWord (sp + 2) = s.flags.setWidth 16) ∧
    (c ≠ sp → c ≠ sp + 1 → c ≠ sp + 2 → c ≠ sp + 3 → (s.enter n).readByte c = s.readByte c) ∧
    (s.enter n).pend = s.pend ∧ (s.enter n).iplMode = s.iplMode ∧ (s.enter n).halted = s.halted ∧
    (s.enter n).cfg = s.cfg ∧ (s.enter n).env = s.env

/-- R331: RETI restores pc and flags exactly as entry pushed them, and SSP, when the overlay did not drop the frame.
Choices the spec marks as its own: D32, D34. -/
def Obligations.RetiUndoesEntry : Prop :=
  ∀ (s : State) (n : IntrNum) (sp : Word), sp = s.ssp - 4 →
    (s.iplMode = false ∨ (sp.toNat < 0xE000 ∧ (sp + 1).toNat < 0xE000 ∧ (sp + 2).toNat < 0xE000 ∧
      (sp + 3).toNat < 0xE000)) →
    ∃ t, exec .reti (s.enter n) = .next t ∧ t.setMem s.mem = s

/-- R311, R341, R353: a device request sets its slot if it is an ordinary slot, changes nothing else, and is no second event
when the slot is already pending; exception slots are never set by a device; halted cores accept requests too.
Choices the spec marks as its own: D16, D22 (log 9). -/
def Obligations.DeviceRequestsSetOrdinarySlots : Prop :=
  ∀ (s : State) (n : IntrNum),
    (n < s.cfg.excFirst → s.deviceRequest n = s.setPend (s.pend.set n.val true)) ∧
    (s.cfg.excFirst ≤ n → s.deviceRequest n = s) ∧
    (s.deviceRequest n).deviceRequest n = s.deviceRequest n

/-- R332: no instruction clears a pending slot, and the only slots an instruction sets are the four exceptions'.
Choices the spec marks as its own: D16, D37. -/
def Obligations.InstructionsOnlySetExceptionSlots : Prop :=
  ∀ (i : Instr) (s t : State) (n : IntrNum), exec i s = .next t → t.pend[n.val] ≠ s.pend[n.val] →
    t.pend[n.val] = true ∧ n ∈ [s.cfg.intrZdiv, s.cfg.intrPriv, s.cfg.intrUndef, s.cfg.intrSvc]

/-! ### Invariants -/

/-- Every step keeps memory in its canonical form (log 3). -/
def Obligations.StepKeepsMemoryCanonical : Prop :=
  ∀ s t : State, s.mem.wf = true → step s = .next t → t.mem.wf = true

/-- R66, R74: while the overlay is active the window, with the vectors, holds the boot image, whatever is executed.
Choices the spec marks as its own: D30 (an image is padded with zeros: log 4). -/
def Obligations.StepKeepsBootWindow : Prop :=
  ∀ s t : State, s.windowHoldsImage → step s = .next t → t.windowHoldsImage

/-- R325: at most one exception slot is pending at any check.
Choices the spec marks as its own: D16, D22, D37. -/
def Obligations.StepKeepsOneException : Prop :=
  ∀ s t : State, s.pendingExceptions ≤ 1 → step s = .next t → t.pendingExceptions ≤ 1

/-- The invariant holds in every state a run of any machine can reach from its reset.
Choices the spec marks as its own: D16, D22, D30, D37 (logs 3, 4, 9). -/
def Obligations.ReachableStatesSatisfyInvariant : Prop :=
  (∀ s t : State, s.Inv → step s = .next t → t.Inv) ∧ ∀ s : State, Reachable s → s.Inv

/-- R81, R352: no step changes the parameters, and none changes the overlay but one that fetches and executes an OUT whose
effective address is IPL_DETACH, which clears it.
Choices the spec marks as its own: D29 (the parameters stand in State: log 1). -/
def Obligations.StepKeepsConfiguration : Prop :=
  ∀ s t : State, step s = .next t →
    t.cfg = s.cfg ∧ (t.iplMode ≠ s.iplMode → t.iplMode = false ∧ ∃ (rd : Reg) (port : Operand) (u : State),
      s.takeArrivals.interruptCheck.fetch = .ok (.ioOut rd port, u) ∧ u.TargetExecutes port ∧ u.IoAllowed ∧
      s.cfg.iplDetach = some (u.effAddr port))

/-- R295, R335, R336: no instruction executed in user mode changes E, P, I, the reserved bit, SSP or HALTED; so user mode
becomes privileged only by interrupt entry.
Choices the spec marks as its own: D24. -/
def Obligations.UserModeCannotGainPrivilege : Prop :=
  (∀ (i : Instr) (s t : State), exec i s = .next t → s.flag .p = false →
    (∀ f ∈ [Flag.e, .p, .i, .reserved], t.flag f = s.flag f) ∧ t.ssp = s.ssp ∧ t.halted = s.halted) ∧
  (∀ s t : State, step s = .next t → s.flag .p = false → t.flag .p = true →
    ∃ n, s.takeArrivals.checkIntrNum.1 = some n ∧
      s.takeArrivals.interruptCheck = s.takeArrivals.checkIntrNum.2.enter n)

/-- R26, R32: of all instructions only the ALU group, RETI, and LD, POP and IN to index 15 may change the flag byte. R32 lists IN
among those that do not; to index 15 it does by R26, which holds for every instruction.
Choices the spec marks as its own: D4. -/
def Obligations.OtherInstructionsKeepFlags : Prop :=
  ∀ (i : Instr) (s t : State), exec i s = .next t → t.flags ≠ s.flags →
    i = .reti ∨ i = .pop .flag ∨ (∃ o : Operand, i ∈ [Instr.ld .flag o, .ioIn .flag o]) ∨
    ∃ (rd : Reg) (o : Operand), i ∈ [Instr.add rd o, .sub rd o, .cmp rd o, .and rd o, .or rd o, .xor rd o, .adds rd o,
      .mul rd o, .div rd o, .mod rd o, .shla rd o, .shll rd o, .shra rd o, .shrl rd o]

/-! ### The host's loop -/

/-- R370, R371, R372: a call of the loop runs some number `j` of steps and no other change happens. Before each of them the core
was not halted, pc was not the break address and no stop was requested. It yields after the cycles of its budget, steps after
one, breaks with pc at the break address, ends halted with HALTED set and stops at the cycle the stop was requested for. A call
that yields and a later call do together what one call with both budgets does.
Choices the spec marks as its own: D36 (the budget counts cycles: log 16; halted and faulted steps: logs 11, 12). -/
def Obligations.RunLoopOnlyCountsSteps : Prop :=
  (∀ (more : Nat) (h : HostControls) (s t : State) (e : RunEnd), runLoop more h s = (e, t) →
    ∃ j ≤ more + 1, Sys2Proof.core.run j s = .next t ∧
      (∀ k < j, ∃ u : State, Sys2Proof.core.run k s = .next u ∧ u.halted = false ∧ h.breakAt ≠ some u.pc ∧ h.stopAt ≠ some k) ∧
      (h.stepMode = true → j ≤ 1) ∧
      (e = .yielded → j = more + 1 ∧ h.stepMode = false) ∧
      (e = .stepped → j = 1 ∧ h.stepMode = true) ∧
      (e = .stopped → h.stopAt = some j) ∧
      (e = .halted → t.halted = true) ∧
      (e = .breakpoint → h.breakAt = some t.pc) ∧
      (∀ f, e = .faulted f → step t = .fault f) ∧
      (∀ r, e = .refused r → step t = .refused r)) ∧
  (∀ (k m : Nat) (b : Option Word) (s t : State), runLoop k ⟨none, b, false⟩ s = (.yielded, t) →
    runLoop (k + m + 1) ⟨none, b, false⟩ s = runLoop m ⟨none, b, false⟩ t)
end

