-- ==== Sys2Proof/Laws/State.lean ====
section
/-! SUPPORT. What each one-field update of State leaves in each field, by definition. -/

namespace Sys2Proof.Machine.State

open Sys2Proof

variable (s : State)

@[simp] theorem setG_g (n : Fin 12) (v : Word) : (s.setG n v).g = s.g.set n v := rfl
@[simp] theorem setG_fp (n : Fin 12) (v : Word) : (s.setG n v).fp = s.fp := rfl
@[simp] theorem setG_ssp (n : Fin 12) (v : Word) : (s.setG n v).ssp = s.ssp := rfl
@[simp] theorem setG_usp (n : Fin 12) (v : Word) : (s.setG n v).usp = s.usp := rfl
@[simp] theorem setG_pc (n : Fin 12) (v : Word) : (s.setG n v).pc = s.pc := rfl
@[simp] theorem setG_flags (n : Fin 12) (v : Word) : (s.setG n v).flags = s.flags := rfl
@[simp] theorem setG_mem (n : Fin 12) (v : Word) : (s.setG n v).mem = s.mem := rfl
@[simp] theorem setG_iplMode (n : Fin 12) (v : Word) : (s.setG n v).iplMode = s.iplMode := rfl
@[simp] theorem setG_pend (n : Fin 12) (v : Word) : (s.setG n v).pend = s.pend := rfl
@[simp] theorem setG_halted (n : Fin 12) (v : Word) : (s.setG n v).halted = s.halted := rfl
@[simp] theorem setG_cfg (n : Fin 12) (v : Word) : (s.setG n v).cfg = s.cfg := rfl
@[simp] theorem setG_env (n : Fin 12) (v : Word) : (s.setG n v).env = s.env := rfl

@[simp] theorem setFp_g (v : Word) : (s.setFp v).g = s.g := rfl
@[simp] theorem setFp_fp (v : Word) : (s.setFp v).fp = v := rfl
@[simp] theorem setFp_ssp (v : Word) : (s.setFp v).ssp = s.ssp := rfl
@[simp] theorem setFp_usp (v : Word) : (s.setFp v).usp = s.usp := rfl
@[simp] theorem setFp_pc (v : Word) : (s.setFp v).pc = s.pc := rfl
@[simp] theorem setFp_flags (v : Word) : (s.setFp v).flags = s.flags := rfl
@[simp] theorem setFp_mem (v : Word) : (s.setFp v).mem = s.mem := rfl
@[simp] theorem setFp_iplMode (v : Word) : (s.setFp v).iplMode = s.iplMode := rfl
@[simp] theorem setFp_pend (v : Word) : (s.setFp v).pend = s.pend := rfl
@[simp] theorem setFp_halted (v : Word) : (s.setFp v).halted = s.halted := rfl
@[simp] theorem setFp_cfg (v : Word) : (s.setFp v).cfg = s.cfg := rfl
@[simp] theorem setFp_env (v : Word) : (s.setFp v).env = s.env := rfl

@[simp] theorem setSsp_g (v : Word) : (s.setSsp v).g = s.g := rfl
@[simp] theorem setSsp_fp (v : Word) : (s.setSsp v).fp = s.fp := rfl
@[simp] theorem setSsp_ssp (v : Word) : (s.setSsp v).ssp = v := rfl
@[simp] theorem setSsp_usp (v : Word) : (s.setSsp v).usp = s.usp := rfl
@[simp] theorem setSsp_pc (v : Word) : (s.setSsp v).pc = s.pc := rfl
@[simp] theorem setSsp_flags (v : Word) : (s.setSsp v).flags = s.flags := rfl
@[simp] theorem setSsp_mem (v : Word) : (s.setSsp v).mem = s.mem := rfl
@[simp] theorem setSsp_iplMode (v : Word) : (s.setSsp v).iplMode = s.iplMode := rfl
@[simp] theorem setSsp_pend (v : Word) : (s.setSsp v).pend = s.pend := rfl
@[simp] theorem setSsp_halted (v : Word) : (s.setSsp v).halted = s.halted := rfl
@[simp] theorem setSsp_cfg (v : Word) : (s.setSsp v).cfg = s.cfg := rfl
@[simp] theorem setSsp_env (v : Word) : (s.setSsp v).env = s.env := rfl

@[simp] theorem setUsp_g (v : Word) : (s.setUsp v).g = s.g := rfl
@[simp] theorem setUsp_fp (v : Word) : (s.setUsp v).fp = s.fp := rfl
@[simp] theorem setUsp_ssp (v : Word) : (s.setUsp v).ssp = s.ssp := rfl
@[simp] theorem setUsp_usp (v : Word) : (s.setUsp v).usp = v := rfl
@[simp] theorem setUsp_pc (v : Word) : (s.setUsp v).pc = s.pc := rfl
@[simp] theorem setUsp_flags (v : Word) : (s.setUsp v).flags = s.flags := rfl
@[simp] theorem setUsp_mem (v : Word) : (s.setUsp v).mem = s.mem := rfl
@[simp] theorem setUsp_iplMode (v : Word) : (s.setUsp v).iplMode = s.iplMode := rfl
@[simp] theorem setUsp_pend (v : Word) : (s.setUsp v).pend = s.pend := rfl
@[simp] theorem setUsp_halted (v : Word) : (s.setUsp v).halted = s.halted := rfl
@[simp] theorem setUsp_cfg (v : Word) : (s.setUsp v).cfg = s.cfg := rfl
@[simp] theorem setUsp_env (v : Word) : (s.setUsp v).env = s.env := rfl

@[simp] theorem setPc_g (v : Word) : (s.setPc v).g = s.g := rfl
@[simp] theorem setPc_fp (v : Word) : (s.setPc v).fp = s.fp := rfl
@[simp] theorem setPc_ssp (v : Word) : (s.setPc v).ssp = s.ssp := rfl
@[simp] theorem setPc_usp (v : Word) : (s.setPc v).usp = s.usp := rfl
@[simp] theorem setPc_pc (v : Word) : (s.setPc v).pc = v := rfl
@[simp] theorem setPc_flags (v : Word) : (s.setPc v).flags = s.flags := rfl
@[simp] theorem setPc_mem (v : Word) : (s.setPc v).mem = s.mem := rfl
@[simp] theorem setPc_iplMode (v : Word) : (s.setPc v).iplMode = s.iplMode := rfl
@[simp] theorem setPc_pend (v : Word) : (s.setPc v).pend = s.pend := rfl
@[simp] theorem setPc_halted (v : Word) : (s.setPc v).halted = s.halted := rfl
@[simp] theorem setPc_cfg (v : Word) : (s.setPc v).cfg = s.cfg := rfl
@[simp] theorem setPc_env (v : Word) : (s.setPc v).env = s.env := rfl

@[simp] theorem setFlags_g (b : Byte) : (s.setFlags b).g = s.g := rfl
@[simp] theorem setFlags_fp (b : Byte) : (s.setFlags b).fp = s.fp := rfl
@[simp] theorem setFlags_ssp (b : Byte) : (s.setFlags b).ssp = s.ssp := rfl
@[simp] theorem setFlags_usp (b : Byte) : (s.setFlags b).usp = s.usp := rfl
@[simp] theorem setFlags_pc (b : Byte) : (s.setFlags b).pc = s.pc := rfl
@[simp] theorem setFlags_flags (b : Byte) : (s.setFlags b).flags = b := rfl
@[simp] theorem setFlags_mem (b : Byte) : (s.setFlags b).mem = s.mem := rfl
@[simp] theorem setFlags_iplMode (b : Byte) : (s.setFlags b).iplMode = s.iplMode := rfl
@[simp] theorem setFlags_pend (b : Byte) : (s.setFlags b).pend = s.pend := rfl
@[simp] theorem setFlags_halted (b : Byte) : (s.setFlags b).halted = s.halted := rfl
@[simp] theorem setFlags_cfg (b : Byte) : (s.setFlags b).cfg = s.cfg := rfl
@[simp] theorem setFlags_env (b : Byte) : (s.setFlags b).env = s.env := rfl

@[simp] theorem setMem_g (m : Memory) : (s.setMem m).g = s.g := rfl
@[simp] theorem setMem_fp (m : Memory) : (s.setMem m).fp = s.fp := rfl
@[simp] theorem setMem_ssp (m : Memory) : (s.setMem m).ssp = s.ssp := rfl
@[simp] theorem setMem_usp (m : Memory) : (s.setMem m).usp = s.usp := rfl
@[simp] theorem setMem_pc (m : Memory) : (s.setMem m).pc = s.pc := rfl
@[simp] theorem setMem_flags (m : Memory) : (s.setMem m).flags = s.flags := rfl
@[simp] theorem setMem_mem (m : Memory) : (s.setMem m).mem = m := rfl
@[simp] theorem setMem_iplMode (m : Memory) : (s.setMem m).iplMode = s.iplMode := rfl
@[simp] theorem setMem_pend (m : Memory) : (s.setMem m).pend = s.pend := rfl
@[simp] theorem setMem_halted (m : Memory) : (s.setMem m).halted = s.halted := rfl
@[simp] theorem setMem_cfg (m : Memory) : (s.setMem m).cfg = s.cfg := rfl
@[simp] theorem setMem_env (m : Memory) : (s.setMem m).env = s.env := rfl

@[simp] theorem setIplMode_g (b : Bool) : (s.setIplMode b).g = s.g := rfl
@[simp] theorem setIplMode_fp (b : Bool) : (s.setIplMode b).fp = s.fp := rfl
@[simp] theorem setIplMode_ssp (b : Bool) : (s.setIplMode b).ssp = s.ssp := rfl
@[simp] theorem setIplMode_usp (b : Bool) : (s.setIplMode b).usp = s.usp := rfl
@[simp] theorem setIplMode_pc (b : Bool) : (s.setIplMode b).pc = s.pc := rfl
@[simp] theorem setIplMode_flags (b : Bool) : (s.setIplMode b).flags = s.flags := rfl
@[simp] theorem setIplMode_mem (b : Bool) : (s.setIplMode b).mem = s.mem := rfl
@[simp] theorem setIplMode_iplMode (b : Bool) : (s.setIplMode b).iplMode = b := rfl
@[simp] theorem setIplMode_pend (b : Bool) : (s.setIplMode b).pend = s.pend := rfl
@[simp] theorem setIplMode_halted (b : Bool) : (s.setIplMode b).halted = s.halted := rfl
@[simp] theorem setIplMode_cfg (b : Bool) : (s.setIplMode b).cfg = s.cfg := rfl
@[simp] theorem setIplMode_env (b : Bool) : (s.setIplMode b).env = s.env := rfl

@[simp] theorem setPend_g (p : Vector Bool 16) : (s.setPend p).g = s.g := rfl
@[simp] theorem setPend_fp (p : Vector Bool 16) : (s.setPend p).fp = s.fp := rfl
@[simp] theorem setPend_ssp (p : Vector Bool 16) : (s.setPend p).ssp = s.ssp := rfl
@[simp] theorem setPend_usp (p : Vector Bool 16) : (s.setPend p).usp = s.usp := rfl
@[simp] theorem setPend_pc (p : Vector Bool 16) : (s.setPend p).pc = s.pc := rfl
@[simp] theorem setPend_flags (p : Vector Bool 16) : (s.setPend p).flags = s.flags := rfl
@[simp] theorem setPend_mem (p : Vector Bool 16) : (s.setPend p).mem = s.mem := rfl
@[simp] theorem setPend_iplMode (p : Vector Bool 16) : (s.setPend p).iplMode = s.iplMode := rfl
@[simp] theorem setPend_pend (p : Vector Bool 16) : (s.setPend p).pend = p := rfl
@[simp] theorem setPend_halted (p : Vector Bool 16) : (s.setPend p).halted = s.halted := rfl
@[simp] theorem setPend_cfg (p : Vector Bool 16) : (s.setPend p).cfg = s.cfg := rfl
@[simp] theorem setPend_env (p : Vector Bool 16) : (s.setPend p).env = s.env := rfl

@[simp] theorem setHalted_g (b : Bool) : (s.setHalted b).g = s.g := rfl
@[simp] theorem setHalted_fp (b : Bool) : (s.setHalted b).fp = s.fp := rfl
@[simp] theorem setHalted_ssp (b : Bool) : (s.setHalted b).ssp = s.ssp := rfl
@[simp] theorem setHalted_usp (b : Bool) : (s.setHalted b).usp = s.usp := rfl
@[simp] theorem setHalted_pc (b : Bool) : (s.setHalted b).pc = s.pc := rfl
@[simp] theorem setHalted_flags (b : Bool) : (s.setHalted b).flags = s.flags := rfl
@[simp] theorem setHalted_mem (b : Bool) : (s.setHalted b).mem = s.mem := rfl
@[simp] theorem setHalted_iplMode (b : Bool) : (s.setHalted b).iplMode = s.iplMode := rfl
@[simp] theorem setHalted_pend (b : Bool) : (s.setHalted b).pend = s.pend := rfl
@[simp] theorem setHalted_halted (b : Bool) : (s.setHalted b).halted = b := rfl
@[simp] theorem setHalted_cfg (b : Bool) : (s.setHalted b).cfg = s.cfg := rfl
@[simp] theorem setHalted_env (b : Bool) : (s.setHalted b).env = s.env := rfl

@[simp] theorem setEnv_g (e : Env) : (s.setEnv e).g = s.g := rfl
@[simp] theorem setEnv_fp (e : Env) : (s.setEnv e).fp = s.fp := rfl
@[simp] theorem setEnv_ssp (e : Env) : (s.setEnv e).ssp = s.ssp := rfl
@[simp] theorem setEnv_usp (e : Env) : (s.setEnv e).usp = s.usp := rfl
@[simp] theorem setEnv_pc (e : Env) : (s.setEnv e).pc = s.pc := rfl
@[simp] theorem setEnv_flags (e : Env) : (s.setEnv e).flags = s.flags := rfl
@[simp] theorem setEnv_mem (e : Env) : (s.setEnv e).mem = s.mem := rfl
@[simp] theorem setEnv_iplMode (e : Env) : (s.setEnv e).iplMode = s.iplMode := rfl
@[simp] theorem setEnv_pend (e : Env) : (s.setEnv e).pend = s.pend := rfl
@[simp] theorem setEnv_halted (e : Env) : (s.setEnv e).halted = s.halted := rfl
@[simp] theorem setEnv_cfg (e : Env) : (s.setEnv e).cfg = s.cfg := rfl
@[simp] theorem setEnv_env (e : Env) : (s.setEnv e).env = e := rfl

/-- Two states are equal when every field is. -/
theorem ext_fields {s t : State} (h1 : s.g = t.g) (h2 : s.fp = t.fp) (h3 : s.ssp = t.ssp) (h4 : s.usp = t.usp)
    (h5 : s.pc = t.pc) (h6 : s.flags = t.flags) (h7 : s.mem = t.mem) (h8 : s.iplMode = t.iplMode)
    (h9 : s.pend = t.pend) (h10 : s.halted = t.halted) (h11 : s.cfg = t.cfg) (h12 : s.env = t.env) : s = t := by
  cases s; cases t; simp_all

end Sys2Proof.Machine.State
end

