-- ==== Sys2Proof/Laws/Flags.lean ====
section
/-! SUPPORT. What each way of writing the flag byte leaves in each flag (10_state.md R31, R33, R34; 60_exceptions.md R320),
and that a flag byte is its eight flags. -/

namespace Sys2Proof.Machine

open Sys2Proof

theorem flagIn_withVCSZ (b : Byte) (v c s z : Bool) (f : Flag) : flagIn (withVCSZ b v c s z) f =
    match f with
    | .e => flagIn b .e
    | .p => flagIn b .p
    | .i => flagIn b .i
    | .reserved => flagIn b .reserved
    | .v => v
    | .c => c
    | .s => s
    | .z => z := by
  cases f <;> cases v <;> cases c <;> cases s <;> cases z <;> simp [flagIn, withVCSZ, Flag.bit]

/-- The masked write: the user flags always, the upper nibble only when P was set (R33). -/
theorem flagIn_maskedFlags (old new : Byte) (f : Flag) : flagIn (maskedFlags old new) f =
    match f with
    | .e => if flagIn old .p then flagIn new .e else flagIn old .e
    | .p => if flagIn old .p then flagIn new .p else flagIn old .p
    | .i => if flagIn old .p then flagIn new .i else flagIn old .i
    | .reserved => if flagIn old .p then flagIn new .reserved else flagIn old .reserved
    | .v => flagIn new .v
    | .c => flagIn new .c
    | .s => flagIn new .s
    | .z => flagIn new .z := by
  unfold maskedFlags
  split <;> cases f <;> simp [flagIn, Flag.bit]

/-- Entry clears E and sets P (R320). -/
theorem flagIn_entryFlags (b : Byte) (f : Flag) : flagIn (entryFlags b) f =
    match f with
    | .e => false
    | .p => true
    | .i => flagIn b .i
    | .reserved => flagIn b .reserved
    | .v => flagIn b .v
    | .c => flagIn b .c
    | .s => flagIn b .s
    | .z => flagIn b .z := by
  cases f <;> simp [flagIn, entryFlags, Flag.bit]

/-- A flag byte is its eight flags. -/
theorem eq_of_flagIn_eq {a b : Byte} (h : ∀ f, flagIn a f = flagIn b f) : a = b := by
  apply BitVec.eq_of_getLsbD_eq
  intro i hi
  have hf : ∃ f : Flag, f.bit = i := by
    interval_cases i
    exacts [⟨.z, rfl⟩, ⟨.s, rfl⟩, ⟨.c, rfl⟩, ⟨.v, rfl⟩, ⟨.reserved, rfl⟩, ⟨.i, rfl⟩, ⟨.p, rfl⟩, ⟨.e, rfl⟩]
  obtain ⟨f, rfl⟩ := hf
  exact h f

@[simp] theorem State.flag_setFlags (s : State) (b : Byte) (f : Flag) : (s.setFlags b).flag f = flagIn b f := rfl

theorem State.flag_def (s : State) (f : Flag) : s.flag f = flagIn s.flags f := rfl

theorem State.privileged_def (s : State) : s.privileged = flagIn s.flags .p := rfl

/-- `WriteFlags` with P set takes the whole byte (R33). -/
theorem maskedFlags_privileged {old : Byte} (new : Byte) (h : flagIn old .p = true) : maskedFlags old new = new := by
  simp [maskedFlags, h]

/-- A write through the mask cannot set P (60_exceptions.md R336). -/
theorem maskedFlags_user_p {old : Byte} (new : Byte) (h : flagIn old .p = false) :
    flagIn (maskedFlags old new) .p = false := by
  simp [flagIn_maskedFlags, h]

end Sys2Proof.Machine
end

