-- ==== Sys2Proof/Laws/Memory.lean ====
section
/-! SUPPORT. The laws of the memory list: what a read gives after each operation, for every list, and that each operation
keeps the canonical form. -/

namespace Sys2Proof.Machine.Memory

open Sys2Proof

/-! ### Reads -/

@[simp] theorem read_nil (a : Nat) : read [] a = blankByte := rfl

theorem read_cons (b : Nat) (v : Byte) (m : Memory) (a : Nat) :
    read ((b, v) :: m) a = if a = b then v else read m a := rfl

theorem read_erase (m : Memory) (a b : Nat) : (erase m a).read b = if b = a then blankByte else m.read b := by
  induction m with
  | nil => simp [erase]
  | cons c m ih =>
    obtain ⟨k, v⟩ := c
    simp only [erase, List.filter_cons] at ih ⊢
    by_cases hk : k = a
    · by_cases hb : b = a <;> simp_all [read_cons]
    · by_cases hb : b = a
      · subst hb; simp_all [read_cons, Ne.symm hk]
      · simp_all [read_cons]

theorem read_insert (m : Memory) (a : Nat) (v : Byte) (b : Nat) (h : m.read a = blankByte ∨ v ≠ blankByte)
    (hk : ∀ c ∈ m, c.1 ≠ a) : (insert m a v).read b = if b = a then v else m.read b := by
  induction m with
  | nil => simp [insert, read_cons]
  | cons c m ih =>
    obtain ⟨k, u⟩ := c
    have hka : k ≠ a := hk (k, u) (by simp)
    have ih := ih (by
      rcases h with h | h
      · exact .inl (by simpa [read_cons, Ne.symm hka] using h)
      · exact .inr h) (fun c hc => hk c (by simp [hc]))
    simp only [insert]
    split
    · simp [read_cons]
    · by_cases hb : b = a
      · subst hb; simp [read_cons, Ne.symm hka, ih]
      · simp [read_cons, ih, hb]

/-- A read after a write: the value at that address, the old byte at every other (R67). -/
theorem read_write (m : Memory) (a : Nat) (v : Byte) (b : Nat) :
    (m.write a v).read b = if b = a then v else m.read b := by
  unfold write
  split
  · next h => simp [read_erase, h]
  · next h =>
    rw [read_insert _ _ _ _ (.inr h) (by intro c hc; simp [erase] at hc; exact hc.2)]
    by_cases hb : b = a <;> simp [hb, read_erase]

@[simp] theorem read_write_same (m : Memory) (a : Nat) (v : Byte) : (m.write a v).read a = v := by
  simp [read_write]

theorem read_write_ne (m : Memory) {a b : Nat} (v : Byte) (h : b ≠ a) : (m.write a v).read b = m.read b := by
  simp [read_write, h]

theorem read_zeroFrom (m : Memory) (a b : Nat) :
    (m.zeroFrom a).read b = if b < a then m.read b else blankByte := by
  induction m with
  | nil => simp [zeroFrom]
  | cons c m ih =>
    obtain ⟨k, v⟩ := c
    simp only [zeroFrom, List.filter_cons] at ih ⊢
    by_cases hk : k < a
    · by_cases hb : b = k
      · subst hb; simp [hk, read_cons]
      · simp [hk, read_cons, hb, ih]
    · by_cases hb : b = k
      · subst hb; simp [hk, ih]
      · simp [hk, read_cons, hb, ih]

/-- Below the first address of `loadWords` nothing changes; from it on each word lies high byte first. -/
theorem read_loadWords (ws : List Word) : ∀ (m : Memory) (a b : Nat), (m.loadWords a ws).read b =
    if a ≤ b ∧ b < a + 2 * ws.length then
      (if (b - a) % 2 = 0 then (ws.getD ((b - a) / 2) 0).extractLsb' 8 8 else (ws.getD ((b - a) / 2) 0).extractLsb' 0 8)
    else m.read b := by
  induction ws with
  | nil => intro m a b; simp [loadWords]
  | cons w ws ih =>
    intro m a b
    rw [loadWords, ih]
    by_cases h0 : b = a
    · subst h0; simp [read_write]
    · by_cases h1 : b = a + 1
      · subst h1
        rw [if_neg (by omega), read_write_same, if_pos (by simp; omega)]
        simp
      · by_cases h2 : a + 2 ≤ b ∧ b < a + 2 + 2 * ws.length
        · have h3 : a ≤ b ∧ b < a + 2 * (w :: ws).length := by simp; omega
          have h4 : (b - a) / 2 = (b - (a + 2)) / 2 + 1 := by omega
          have h5 : (b - a) % 2 = (b - (a + 2)) % 2 := by omega
          rw [if_pos h2, if_pos h3, h4, h5]; simp
        · have h3 : ¬(a ≤ b ∧ b < a + 2 * (w :: ws).length) := by simp; omega
          rw [if_neg h2, if_neg h3, read_write_ne _ _ h1, read_write_ne _ _ h0]

theorem read_loadIpl (m : Memory) (image : List Word) (b : Nat) (hb : b < 0x10000) :
    (m.loadIpl image).read b =
      if b < windowBase then m.read b
      else if (b - windowBase) % 2 = 0 then (image.getD ((b - windowBase) / 2) 0).extractLsb' 8 8
      else (image.getD ((b - windowBase) / 2) 0).extractLsb' 0 8 := by
  have hw : windowBase = 57344 := rfl
  rw [loadIpl, read_loadWords]
  have hlen : (image.take 4096).length = min 4096 image.length := by simp
  by_cases h0 : b < windowBase
  · have : ¬(windowBase ≤ b ∧ b < windowBase + 2 * (image.take 4096).length) := by omega
    simp [h0, read_zeroFrom]
  · have hget : (image.take 4096).getD ((b - windowBase) / 2) 0 = image.getD ((b - windowBase) / 2) 0 := by
      have : (b - windowBase) / 2 < 4096 := by omega
      simp [List.getD_eq_getElem?_getD, this]
    by_cases h1 : windowBase ≤ b ∧ b < windowBase + 2 * (image.take 4096).length
    · rw [if_pos h1, if_neg h0, hget]
    · have h2 : image.getD ((b - windowBase) / 2) 0 = 0 := by
        have : image.length ≤ (b - windowBase) / 2 := by omega
        simp [List.getD_eq_getElem?_getD, List.getElem?_eq_none this]
      rw [if_neg h1, if_neg h0, h2]
      simp [read_zeroFrom, h0, blankByte]

/-! ### The canonical form -/

@[simp] theorem wf_nil : wf [] = true := rfl

/-- The canonical form of a list from that of its tail. -/
theorem wf_cons (a : Nat) (v : Byte) (m : Memory) :
    wf ((a, v) :: m) = true ↔ a < 0x10000 ∧ v ≠ blankByte ∧ (∀ c ∈ m, a < c.1) ∧ wf m = true := by
  induction m generalizing a v with
  | nil => simp [wf]
  | cons c m ih =>
    obtain ⟨b, u⟩ := c
    have := ih b u
    simp only [wf, Bool.and_eq_true, decide_eq_true_eq]
    constructor
    · rintro ⟨⟨h1, h2⟩, h3⟩
      have h4 := (ih b u).1 h3
      refine ⟨by omega, h2, ?_, h3⟩
      intro c hc
      rcases List.mem_cons.1 hc with rfl | hc
      · exact h1
      · exact Nat.lt_trans h1 (h4.2.2.1 c hc)
    · rintro ⟨-, h2, h3, h4⟩
      exact ⟨⟨h3 (b, u) (by simp), h2⟩, h4⟩

theorem wf_filter (p : Host.Cell → Bool) (m : Memory) (h : wf m = true) : wf (m.filter p : Memory) = true := by
  induction m with
  | nil => simp
  | cons c m ih =>
    obtain ⟨a, v⟩ := c
    have h := (wf_cons a v m).1 h
    rw [List.filter_cons]
    split
    · exact (wf_cons _ _ _).2 ⟨h.1, h.2.1, fun c hc => h.2.2.1 c (List.mem_filter.1 hc).1, ih h.2.2.2⟩
    · exact ih h.2.2.2

theorem mem_insert {m : Memory} {a : Nat} {v : Byte} {c : Host.Cell} (h : c ∈ insert m a v) : c = (a, v) ∨ c ∈ m := by
  induction m with
  | nil => simpa [insert] using h
  | cons d m ih =>
    obtain ⟨b, u⟩ := d
    simp only [insert] at h
    split at h
    · simpa using h
    · rcases List.mem_cons.1 h with h | h
      · exact .inr (by simp [h])
      · rcases ih h with h | h
        · exact .inl h
        · exact .inr (by simp [h])

theorem wf_insert (m : Memory) (a : Nat) (v : Byte) (ha : a < 0x10000) (hv : v ≠ blankByte)
    (hk : ∀ c ∈ m, c.1 ≠ a) (h : wf m = true) : wf (insert m a v) = true := by
  induction m with
  | nil => exact (wf_cons _ _ _).2 ⟨ha, hv, by simp, rfl⟩
  | cons c m ih =>
    obtain ⟨b, u⟩ := c
    have hb := (wf_cons b u m).1 h
    simp only [insert]
    split
    · next hab =>
      refine (wf_cons _ _ _).2 ⟨ha, hv, ?_, h⟩
      intro c hc
      rcases List.mem_cons.1 hc with rfl | hc
      · exact hab
      · exact Nat.lt_trans hab (hb.2.2.1 c hc)
    · next hab =>
      have hne : b ≠ a := hk (b, u) (by simp)
      refine (wf_cons _ _ _).2 ⟨hb.1, hb.2.1, ?_, ih (fun c hc => hk c (by simp [hc])) hb.2.2.2⟩
      intro c hc
      rcases mem_insert hc with rfl | hc
      · exact Nat.lt_of_le_of_ne (Nat.le_of_not_lt hab) hne
      · exact hb.2.2.1 c hc

theorem wf_erase (m : Memory) (a : Nat) (h : wf m = true) : wf (erase m a) = true := wf_filter _ m h

/-- A write inside the address space keeps the canonical form. -/
theorem wf_write (m : Memory) (a : Nat) (v : Byte) (ha : a < 0x10000) (h : wf m = true) :
    wf (m.write a v) = true := by
  unfold write
  split
  · exact wf_erase m a h
  · next hv =>
    exact wf_insert _ _ _ ha hv (by intro c hc; simp [erase] at hc; exact hc.2) (wf_erase m a h)

theorem wf_zeroFrom (m : Memory) (a : Nat) (h : wf m = true) : wf (m.zeroFrom a) = true := wf_filter _ m h

theorem wf_loadWords (ws : List Word) : ∀ (m : Memory) (a : Nat), a + 2 * ws.length ≤ 0x10000 → wf m = true →
    wf (m.loadWords a ws) = true := by
  induction ws with
  | nil => intro m a _ h; exact h
  | cons w ws ih =>
    intro m a ha h
    simp only [List.length_cons] at ha
    exact ih _ _ (by omega) (wf_write _ _ _ (by omega) (wf_write _ _ _ (by omega) h))

theorem wf_loadIpl (m : Memory) (image : List Word) (h : wf m = true) : wf (m.loadIpl image) = true := by
  refine wf_loadWords _ _ _ ?_ (wf_zeroFrom m _ h)
  simp [windowBase]
  omega

/-- In the canonical form a byte that is not blank is listed exactly where it is read, so equal reads mean equal lists. -/
theorem eq_of_read_eq (m n : Memory) (hm : wf m = true) (hn : wf n = true) (h : ∀ a, m.read a = n.read a) : m = n := by
  have absent : ∀ (m : Memory) (a : Nat), (∀ c ∈ m, a < c.1) → m.read a = blankByte := by
    intro m a
    induction m with
    | nil => intro _; rfl
    | cons c m ih =>
      obtain ⟨b, u⟩ := c
      intro hc
      have := hc (b, u) (by simp)
      rw [read_cons, if_neg (by omega), ih (fun c hc' => hc c (by simp [hc']))]
  induction m generalizing n with
  | nil =>
    cases n with
    | nil => rfl
    | cons c n =>
      obtain ⟨b, u⟩ := c
      have := h b
      rw [read_cons] at this
      simp at this
      exact absurd this.symm ((wf_cons _ _ _).1 hn).2.1
  | cons c m ih =>
    obtain ⟨a, v⟩ := c
    have hm' := (wf_cons _ _ _).1 hm
    cases n with
    | nil =>
      have := h a
      rw [read_cons] at this
      simp at this
      exact absurd this hm'.2.1
    | cons d n =>
      obtain ⟨b, u⟩ := d
      have hn' := (wf_cons _ _ _).1 hn
      have hab : a = b := by
        rcases Nat.lt_trichotomy a b with hlt | heq | hgt
        · exfalso
          have h1 := h a
          rw [read_cons, if_pos rfl, absent ((b, u) :: n) a] at h1
          · exact hm'.2.1 h1
          · intro c hc
            rcases List.mem_cons.1 hc with rfl | hc
            · exact hlt
            · exact Nat.lt_trans hlt (hn'.2.2.1 c hc)
        · exact heq
        · exfalso
          have h1 := h b
          rw [read_cons b, if_pos rfl, absent ((a, v) :: m) b] at h1
          · exact hn'.2.1 h1.symm
          · intro c hc
            rcases List.mem_cons.1 hc with rfl | hc
            · exact hgt
            · exact Nat.lt_trans hgt (hm'.2.2.1 c hc)
      subst hab
      have hvu : v = u := by simpa [read_cons] using h a
      subst hvu
      have htail : m = n := by
        refine ih n hm'.2.2.2 hn'.2.2.2 ?_
        intro x
        by_cases hx : x = a
        · subst hx
          rw [absent m x hm'.2.2.1, absent n x hn'.2.2.1]
        · have := h x
          simpa [read_cons, hx] using this
      rw [htail]

end Sys2Proof.Machine.Memory
end

