-- ==== Sys2Proof/Laws/Ops.lean ====
section
/-! SUPPORT. What each shared operation of Ops.lean and Operands.lean can do: the fields it leaves alone, and what it puts
in the ones it changes. -/

namespace Sys2Proof.Machine.State

open Sys2Proof

variable (s : State)

/-! ### Register writes leave pc, memory, overlay, slots, halt, parameters and environment alone -/

@[simp] theorem writeReg_pc (r : Reg) (v : Word) : (s.writeReg r v).pc = s.pc := by
  cases r <;> simp [writeReg, writeFlags]
  split <;> rfl

@[simp] theorem writeReg_mem (r : Reg) (v : Word) : (s.writeReg r v).mem = s.mem := by
  cases r <;> simp [writeReg, writeFlags]
  split <;> rfl

@[simp] theorem writeReg_iplMode (r : Reg) (v : Word) : (s.writeReg r v).iplMode = s.iplMode := by
  cases r <;> simp [writeReg, writeFlags]
  split <;> rfl

@[simp] theorem writeReg_pend (r : Reg) (v : Word) : (s.writeReg r v).pend = s.pend := by
  cases r <;> simp [writeReg, writeFlags]
  split <;> rfl

@[simp] theorem writeReg_halted (r : Reg) (v : Word) : (s.writeReg r v).halted = s.halted := by
  cases r <;> simp [writeReg, writeFlags]
  split <;> rfl

@[simp] theorem writeReg_cfg (r : Reg) (v : Word) : (s.writeReg r v).cfg = s.cfg := by
  cases r <;> simp [writeReg, writeFlags]
  split <;> rfl

@[simp] theorem writeReg_env (r : Reg) (v : Word) : (s.writeReg r v).env = s.env := by
  cases r <;> simp [writeReg, writeFlags]
  split <;> rfl

/-! ### Byte and word writes change memory only -/

@[simp] theorem writeByte_g (a : Word) (b : Byte) : (s.writeByte a b).g = s.g := by
  unfold writeByte; split <;> rfl

@[simp] theorem writeWord_g (a v : Word) : (s.writeWord a v).g = s.g := by simp [writeWord]

@[simp] theorem writeByte_fp (a : Word) (b : Byte) : (s.writeByte a b).fp = s.fp := by
  unfold writeByte; split <;> rfl

@[simp] theorem writeWord_fp (a v : Word) : (s.writeWord a v).fp = s.fp := by simp [writeWord]

@[simp] theorem writeByte_ssp (a : Word) (b : Byte) : (s.writeByte a b).ssp = s.ssp := by
  unfold writeByte; split <;> rfl

@[simp] theorem writeWord_ssp (a v : Word) : (s.writeWord a v).ssp = s.ssp := by simp [writeWord]

@[simp] theorem writeByte_usp (a : Word) (b : Byte) : (s.writeByte a b).usp = s.usp := by
  unfold writeByte; split <;> rfl

@[simp] theorem writeWord_usp (a v : Word) : (s.writeWord a v).usp = s.usp := by simp [writeWord]

@[simp] theorem writeByte_pc (a : Word) (b : Byte) : (s.writeByte a b).pc = s.pc := by
  unfold writeByte; split <;> rfl

@[simp] theorem writeWord_pc (a v : Word) : (s.writeWord a v).pc = s.pc := by simp [writeWord]

@[simp] theorem writeByte_flags (a : Word) (b : Byte) : (s.writeByte a b).flags = s.flags := by
  unfold writeByte; split <;> rfl

@[simp] theorem writeWord_flags (a v : Word) : (s.writeWord a v).flags = s.flags := by simp [writeWord]

@[simp] theorem writeByte_iplMode (a : Word) (b : Byte) : (s.writeByte a b).iplMode = s.iplMode := by
  unfold writeByte; split <;> rfl

@[simp] theorem writeWord_iplMode (a v : Word) : (s.writeWord a v).iplMode = s.iplMode := by simp [writeWord]

@[simp] theorem writeByte_pend (a : Word) (b : Byte) : (s.writeByte a b).pend = s.pend := by
  unfold writeByte; split <;> rfl

@[simp] theorem writeWord_pend (a v : Word) : (s.writeWord a v).pend = s.pend := by simp [writeWord]

@[simp] theorem writeByte_halted (a : Word) (b : Byte) : (s.writeByte a b).halted = s.halted := by
  unfold writeByte; split <;> rfl

@[simp] theorem writeWord_halted (a v : Word) : (s.writeWord a v).halted = s.halted := by simp [writeWord]

@[simp] theorem writeByte_cfg (a : Word) (b : Byte) : (s.writeByte a b).cfg = s.cfg := by
  unfold writeByte; split <;> rfl

@[simp] theorem writeWord_cfg (a v : Word) : (s.writeWord a v).cfg = s.cfg := by simp [writeWord]

@[simp] theorem writeByte_env (a : Word) (b : Byte) : (s.writeByte a b).env = s.env := by
  unfold writeByte; split <;> rfl

@[simp] theorem writeWord_env (a v : Word) : (s.writeWord a v).env = s.env := by simp [writeWord]

@[simp] theorem writeBytes_g (bs : List Byte) : ∀ (s : State) (a : Word), (s.writeBytes a bs).g = s.g := by
  induction bs with
  | nil => intro s a; rfl
  | cons b bs ih => intro s a; simp [writeBytes, ih]

@[simp] theorem writeBytes_fp (bs : List Byte) : ∀ (s : State) (a : Word), (s.writeBytes a bs).fp = s.fp := by
  induction bs with
  | nil => intro s a; rfl
  | cons b bs ih => intro s a; simp [writeBytes, ih]

@[simp] theorem writeBytes_ssp (bs : List Byte) : ∀ (s : State) (a : Word), (s.writeBytes a bs).ssp = s.ssp := by
  induction bs with
  | nil => intro s a; rfl
  | cons b bs ih => intro s a; simp [writeBytes, ih]

@[simp] theorem writeBytes_usp (bs : List Byte) : ∀ (s : State) (a : Word), (s.writeBytes a bs).usp = s.usp := by
  induction bs with
  | nil => intro s a; rfl
  | cons b bs ih => intro s a; simp [writeBytes, ih]

@[simp] theorem writeBytes_pc (bs : List Byte) : ∀ (s : State) (a : Word), (s.writeBytes a bs).pc = s.pc := by
  induction bs with
  | nil => intro s a; rfl
  | cons b bs ih => intro s a; simp [writeBytes, ih]

@[simp] theorem writeBytes_flags (bs : List Byte) : ∀ (s : State) (a : Word), (s.writeBytes a bs).flags = s.flags := by
  induction bs with
  | nil => intro s a; rfl
  | cons b bs ih => intro s a; simp [writeBytes, ih]

@[simp] theorem writeBytes_iplMode (bs : List Byte) : ∀ (s : State) (a : Word), (s.writeBytes a bs).iplMode = s.iplMode := by
  induction bs with
  | nil => intro s a; rfl
  | cons b bs ih => intro s a; simp [writeBytes, ih]

@[simp] theorem writeBytes_pend (bs : List Byte) : ∀ (s : State) (a : Word), (s.writeBytes a bs).pend = s.pend := by
  induction bs with
  | nil => intro s a; rfl
  | cons b bs ih => intro s a; simp [writeBytes, ih]

@[simp] theorem writeBytes_halted (bs : List Byte) : ∀ (s : State) (a : Word), (s.writeBytes a bs).halted = s.halted := by
  induction bs with
  | nil => intro s a; rfl
  | cons b bs ih => intro s a; simp [writeBytes, ih]

@[simp] theorem writeBytes_cfg (bs : List Byte) : ∀ (s : State) (a : Word), (s.writeBytes a bs).cfg = s.cfg := by
  induction bs with
  | nil => intro s a; rfl
  | cons b bs ih => intro s a; simp [writeBytes, ih]

@[simp] theorem writeBytes_env (bs : List Byte) : ∀ (s : State) (a : Word), (s.writeBytes a bs).env = s.env := by
  induction bs with
  | nil => intro s a; rfl
  | cons b bs ih => intro s a; simp [writeBytes, ih]

/-! ### Registers read the fields they name -/

theorem readReg_congr {s t : State} (hg : s.g = t.g) (hf : s.fp = t.fp) (hs : s.ssp = t.ssp) (hu : s.usp = t.usp)
    (hfl : s.flags = t.flags) (r : Reg) : s.readReg r = t.readReg r := by
  have hp : s.privileged = t.privileged := by rw [privileged_def, privileged_def, hfl]
  cases r with
  | g n => simp only [readReg, hg]
  | fp => exact hf
  | sp => simp only [readReg, hp, hs, hu]
  | usp => exact hu
  | flag => simp only [readReg, hfl]

@[simp] theorem readReg_setPc (r : Reg) (v : Word) : (s.setPc v).readReg r = s.readReg r := by
  cases r <;> rfl

@[simp] theorem readReg_setMem (r : Reg) (m : Memory) : (s.setMem m).readReg r = s.readReg r := by
  cases r <;> rfl

@[simp] theorem readReg_setIplMode (r : Reg) (b : Bool) : (s.setIplMode b).readReg r = s.readReg r := by
  cases r <;> rfl

@[simp] theorem readReg_setPend (r : Reg) (p : Vector Bool 16) : (s.setPend p).readReg r = s.readReg r := by
  cases r <;> rfl

@[simp] theorem readReg_setHalted (r : Reg) (b : Bool) : (s.setHalted b).readReg r = s.readReg r := by
  cases r <;> rfl

@[simp] theorem readReg_setEnv (r : Reg) (e : Env) : (s.setEnv e).readReg r = s.readReg r := by
  cases r <;> rfl

@[simp] theorem readReg_writeWord (r : Reg) (a v : Word) : (s.writeWord a v).readReg r = s.readReg r :=
  readReg_congr (by simp) (by simp) (by simp) (by simp) (by simp) r

/-- A register other than the flag byte reads back what was written (10_state.md R21 to R25). -/
theorem readReg_writeReg_same (r : Reg) (v : Word) (h : r ≠ .flag) : (s.writeReg r v).readReg r = v := by
  cases r with
  | g n => simp [readReg, writeReg]
  | fp => rfl
  | sp =>
    by_cases hp : s.privileged = true
    · have : (s.setSsp v).privileged = true := hp
      simp [readReg, writeReg, hp, this]
    · have : ¬(s.setUsp v).privileged = true := hp
      simp [readReg, writeReg, hp, this]
  | usp => rfl
  | flag => exact absurd rfl h

/-- A register write that is not to index 15 keeps the flag byte. -/
theorem writeReg_flags (r : Reg) (v : Word) (h : r ≠ .flag) : (s.writeReg r v).flags = s.flags := by
  cases r with
  | sp => simp only [writeReg]; split <;> rfl
  | flag => exact absurd rfl h
  | g n => rfl
  | fp => rfl
  | usp => rfl

/-- A write to index 15 goes through the mask (10_state.md R26, R33). -/
@[simp] theorem writeReg_flag_flags (v : Word) :
    (s.writeReg .flag v).flags = maskedFlags s.flags (v.extractLsb' 0 8) := rfl

/-! ### Memory -/

theorem readByte_setMem (m : Memory) (a : Word) : (s.setMem m).readByte a = m.read a.toNat := rfl

/-- A byte read after a byte write under the overlay (20_memory.md R63, R67). -/
theorem readByte_writeByte (a b : Word) (v : Byte) : (s.writeByte a v).readByte b =
    if b = a ∧ s.writeRejected a = false then v else s.readByte b := by
  unfold writeByte
  by_cases h : s.writeRejected a = true
  · simp [h]
  · simp only [h]
    by_cases hb : b = a
    · simp [hb, readByte_setMem]
    · have : b.toNat ≠ a.toNat := fun hn => hb (BitVec.eq_of_toNat_eq hn)
      simp [hb, Memory.read_write_ne _ _ this, readByte]

@[simp] theorem writeRejected_writeByte (a b : Word) (v : Byte) :
    (s.writeByte a v).writeRejected b = s.writeRejected b := by simp [writeRejected]

@[simp] theorem writeRejected_writeWord (a b v : Word) :
    (s.writeWord a v).writeRejected b = s.writeRejected b := by simp [writeRejected]

/-- A byte read after a word write: big-endian, each byte under the overlay (20_memory.md R67, R68). -/
theorem readByte_writeWord (a b v : Word) : (s.writeWord a v).readByte b =
    if b = a + 1 ∧ s.writeRejected (a + 1) = false then v.extractLsb' 0 8
    else if b = a ∧ s.writeRejected a = false then v.extractLsb' 8 8
    else s.readByte b := by
  simp only [writeWord, readByte_writeByte, writeRejected_writeByte]

/-- The bytes of a word put together again. -/
@[simp] theorem wordOfBytes_extract (v : Word) : wordOfBytes (v.extractLsb' 8 8) (v.extractLsb' 0 8) = v := by
  apply BitVec.eq_of_getLsbD_eq
  intro i hi
  simp only [wordOfBytes, BitVec.getLsbD_append, BitVec.getLsbD_extractLsb']
  by_cases h : i < 8
  · simp [h]
  · simp only [h, ite_false, decide_false]
    have : 8 + (i - 8) = i := by omega
    simp [this]; omega

theorem word_ne_succ (a : Word) : a ≠ a + 1 := by
  intro h
  have := congrArg BitVec.toNat h
  simp at this
  omega

/-- A word write outside the protected window reads back (20_memory.md R61, R67). -/
theorem readWord_writeWord_same (a v : Word) (h0 : s.writeRejected a = false) (h1 : s.writeRejected (a + 1) = false) :
    (s.writeWord a v).readWord a = v := by
  simp only [readWord, readByte_writeWord, h0, h1, word_ne_succ, and_self, and_true, if_true, if_false,
    wordOfBytes_extract]

theorem readByte_congr {s t : State} (h : s.mem = t.mem) (a : Word) : s.readByte a = t.readByte a := by
  simp [readByte, h]

theorem readWord_congr {s t : State} (h : s.mem = t.mem) (a : Word) : s.readWord a = t.readWord a := by
  simp [readWord, readByte, h]

/-- A byte write keeps the canonical form of memory. -/
theorem wf_writeByte (a : Word) (b : Byte) (h : s.mem.wf = true) : (s.writeByte a b).mem.wf = true := by
  unfold writeByte
  split
  · exact h
  · exact Memory.wf_write _ _ _ (by have := a.isLt; omega) h

theorem wf_writeWord (a v : Word) (h : s.mem.wf = true) : (s.writeWord a v).mem.wf = true :=
  wf_writeByte _ _ _ (wf_writeByte _ _ _ h)

theorem wf_writeBytes (bs : List Byte) : ∀ (s : State) (a : Word), s.mem.wf = true → (s.writeBytes a bs).mem.wf = true := by
  induction bs with
  | nil => intro s a h; exact h
  | cons b bs ih => intro s a h; exact ih _ _ (wf_writeByte _ _ _ h)

/-- A byte write leaves the bytes of the window alone while the overlay is active (20_memory.md R63, R66). -/
theorem read_writeByte_window (a : Word) (b : Byte) (h : s.iplMode = true) {k : Nat} (hk : Memory.windowBase ≤ k) :
    (s.writeByte a b).mem.read k = s.mem.read k := by
  unfold writeByte
  split
  · rfl
  · next hr =>
    simp only [writeRejected, h, Bool.true_and, decide_eq_true_eq] at hr
    exact Memory.read_write_ne _ _ (by omega)

theorem read_writeWord_window (a v : Word) (h : s.iplMode = true) {k : Nat} (hk : Memory.windowBase ≤ k) :
    (s.writeWord a v).mem.read k = s.mem.read k := by
  rw [writeWord, read_writeByte_window _ _ _ (by simpa using h) hk, read_writeByte_window _ _ _ h hk]

theorem read_writeBytes_window (bs : List Byte) : ∀ (s : State) (a : Word), s.iplMode = true → ∀ {k : Nat},
    Memory.windowBase ≤ k → (s.writeBytes a bs).mem.read k = s.mem.read k := by
  induction bs with
  | nil => intro s a _ k _; rfl
  | cons b bs ih =>
    intro s a h k hk
    rw [writeBytes, ih _ _ (by simpa using h) hk, read_writeByte_window _ _ _ h hk]

/-! ### The interrupt controller -/

theorem raise_pend (n m : IntrNum) : (s.raise n).pend[m.val] = (decide (m = n) || s.pend[m.val]) := by
  simp only [raise, setPend_pend, Vector.getElem_set]
  by_cases h : m = n
  · simp [h]
  · have : n.val ≠ m.val := fun hv => h (Fin.ext hv.symm)
    simp [h, this]

@[simp] theorem raise_g (n : IntrNum) : (s.raise n).g = s.g := rfl
@[simp] theorem raise_fp (n : IntrNum) : (s.raise n).fp = s.fp := rfl
@[simp] theorem raise_ssp (n : IntrNum) : (s.raise n).ssp = s.ssp := rfl
@[simp] theorem raise_usp (n : IntrNum) : (s.raise n).usp = s.usp := rfl
@[simp] theorem raise_pc (n : IntrNum) : (s.raise n).pc = s.pc := rfl
@[simp] theorem raise_flags (n : IntrNum) : (s.raise n).flags = s.flags := rfl
@[simp] theorem raise_mem (n : IntrNum) : (s.raise n).mem = s.mem := rfl
@[simp] theorem raise_iplMode (n : IntrNum) : (s.raise n).iplMode = s.iplMode := rfl
@[simp] theorem raise_halted (n : IntrNum) : (s.raise n).halted = s.halted := rfl
@[simp] theorem raise_cfg (n : IntrNum) : (s.raise n).cfg = s.cfg := rfl
@[simp] theorem raise_env (n : IntrNum) : (s.raise n).env = s.env := rfl

theorem mem_slots (n : IntrNum) : n ∈ slots := by
  fin_cases n <;> decide

theorem exceptionPending_iff : s.exceptionPending = true ↔ ∃ n : IntrNum, s.cfg.excFirst ≤ n ∧ s.pend[n.val] = true := by
  simp [exceptionPending, mem_slots]

theorem mem_scanOrder (cfg : Config) (n : IntrNum) : n ∈ scanOrder cfg := by
  simp only [scanOrder, List.mem_append, List.mem_filter, decide_eq_true_eq]
  rcases Nat.lt_or_ge n.val cfg.excFirst.val with h | h
  · exact .inr ⟨mem_slots n, h⟩
  · exact .inl ⟨mem_slots n, h⟩

/-- The slot returned is pending (R313). -/
theorem nextIntr_pending {n : IntrNum} (h : s.nextIntr = some n) : s.pend[n.val] = true := by
  simpa using List.find?_some h

/-- NONE means that no slot is pending (R313). -/
theorem nextIntr_none (h : s.nextIntr = none) (n : IntrNum) : s.pend[n.val] = false := by
  simpa using List.find?_eq_none.1 h n (mem_scanOrder s.cfg n)

@[simp] theorem pushSupervisor_g (v : Word) : (s.pushSupervisor v).g = s.g := by simp [pushSupervisor]
@[simp] theorem pushSupervisor_fp (v : Word) : (s.pushSupervisor v).fp = s.fp := by simp [pushSupervisor]
@[simp] theorem pushSupervisor_usp (v : Word) : (s.pushSupervisor v).usp = s.usp := by simp [pushSupervisor]
@[simp] theorem pushSupervisor_pc (v : Word) : (s.pushSupervisor v).pc = s.pc := by simp [pushSupervisor]
@[simp] theorem pushSupervisor_iplMode (v : Word) : (s.pushSupervisor v).iplMode = s.iplMode := by simp [pushSupervisor]
@[simp] theorem pushSupervisor_pend (v : Word) : (s.pushSupervisor v).pend = s.pend := by simp [pushSupervisor]
@[simp] theorem pushSupervisor_halted (v : Word) : (s.pushSupervisor v).halted = s.halted := by simp [pushSupervisor]
@[simp] theorem pushSupervisor_cfg (v : Word) : (s.pushSupervisor v).cfg = s.cfg := by simp [pushSupervisor]
@[simp] theorem pushSupervisor_env (v : Word) : (s.pushSupervisor v).env = s.env := by simp [pushSupervisor]
@[simp] theorem pushSupervisor_flags (v : Word) : (s.pushSupervisor v).flags = s.flags := by simp [pushSupervisor]
@[simp] theorem pushSupervisor_ssp (v : Word) : (s.pushSupervisor v).ssp = s.ssp - 2 := by simp [pushSupervisor]

@[simp] theorem enter_g (n : IntrNum) : (s.enter n).g = s.g := by simp [enter]
@[simp] theorem enter_fp (n : IntrNum) : (s.enter n).fp = s.fp := by simp [enter]
@[simp] theorem enter_usp (n : IntrNum) : (s.enter n).usp = s.usp := by simp [enter]
@[simp] theorem enter_iplMode (n : IntrNum) : (s.enter n).iplMode = s.iplMode := by simp [enter]
@[simp] theorem enter_pend (n : IntrNum) : (s.enter n).pend = s.pend := by simp [enter]
@[simp] theorem enter_halted (n : IntrNum) : (s.enter n).halted = s.halted := by simp [enter]
@[simp] theorem enter_cfg (n : IntrNum) : (s.enter n).cfg = s.cfg := by simp [enter]
@[simp] theorem enter_env (n : IntrNum) : (s.enter n).env = s.env := by simp [enter]
@[simp] theorem enter_flags (n : IntrNum) : (s.enter n).flags = entryFlags s.flags := by simp [enter]

@[simp] theorem enter_ssp (n : IntrNum) : (s.enter n).ssp = s.ssp - 2 - 2 := by simp [enter]

/-- Everything the interrupt check can do: nothing, or clear one pending slot and enter its handler (R313, R316). -/
theorem interruptCheck_cases : s.interruptCheck = s ∨
    ∃ n, s.nextIntr = some n ∧ (s.flag .e = true ∨ s.exceptionPending = true) ∧
      s.interruptCheck = (s.setPend (s.pend.set n.val false)).enter n := by
  unfold interruptCheck checkIntrNum
  split
  · next h =>
    cases hn : s.nextIntr with
    | none => exact .inl rfl
    | some n => exact .inr ⟨n, rfl, by simpa using h, rfl⟩
  · exact .inl rfl

@[simp] theorem interruptCheck_g : s.interruptCheck.g = s.g := by
  rcases s.interruptCheck_cases with h | ⟨n, -, -, h⟩ <;> simp [h]

@[simp] theorem interruptCheck_fp : s.interruptCheck.fp = s.fp := by
  rcases s.interruptCheck_cases with h | ⟨n, -, -, h⟩ <;> simp [h]

@[simp] theorem interruptCheck_usp : s.interruptCheck.usp = s.usp := by
  rcases s.interruptCheck_cases with h | ⟨n, -, -, h⟩ <;> simp [h]

@[simp] theorem interruptCheck_iplMode : s.interruptCheck.iplMode = s.iplMode := by
  rcases s.interruptCheck_cases with h | ⟨n, -, -, h⟩ <;> simp [h]

@[simp] theorem interruptCheck_halted : s.interruptCheck.halted = s.halted := by
  rcases s.interruptCheck_cases with h | ⟨n, -, -, h⟩ <;> simp [h]

@[simp] theorem interruptCheck_cfg : s.interruptCheck.cfg = s.cfg := by
  rcases s.interruptCheck_cases with h | ⟨n, -, -, h⟩ <;> simp [h]

@[simp] theorem interruptCheck_env : s.interruptCheck.env = s.env := by
  rcases s.interruptCheck_cases with h | ⟨n, -, -, h⟩ <;> simp [h]

/-! ### Device requests -/

/-- A request sets its slot or does nothing (60_exceptions.md R341). -/
theorem deviceRequest_cases (n : IntrNum) : s.deviceRequest n = s ∨ (n < s.cfg.excFirst ∧ s.deviceRequest n = s.raise n) := by
  unfold deviceRequest
  split
  · next h => exact .inr ⟨h, rfl⟩
  · exact .inl rfl

@[simp] theorem deviceRequest_g (n : IntrNum) : (s.deviceRequest n).g = s.g := by
  rcases s.deviceRequest_cases n with h | ⟨-, h⟩ <;> simp [h]

@[simp] theorem deviceRequests_g (ns : List IntrNum) : ∀ s : State, (s.deviceRequests ns).g = s.g := by
  induction ns with
  | nil => intro s; rfl
  | cons n ns ih => intro s; simp [deviceRequests, ih]

@[simp] theorem deviceRequest_fp (n : IntrNum) : (s.deviceRequest n).fp = s.fp := by
  rcases s.deviceRequest_cases n with h | ⟨-, h⟩ <;> simp [h]

@[simp] theorem deviceRequests_fp (ns : List IntrNum) : ∀ s : State, (s.deviceRequests ns).fp = s.fp := by
  induction ns with
  | nil => intro s; rfl
  | cons n ns ih => intro s; simp [deviceRequests, ih]

@[simp] theorem deviceRequest_ssp (n : IntrNum) : (s.deviceRequest n).ssp = s.ssp := by
  rcases s.deviceRequest_cases n with h | ⟨-, h⟩ <;> simp [h]

@[simp] theorem deviceRequests_ssp (ns : List IntrNum) : ∀ s : State, (s.deviceRequests ns).ssp = s.ssp := by
  induction ns with
  | nil => intro s; rfl
  | cons n ns ih => intro s; simp [deviceRequests, ih]

@[simp] theorem deviceRequest_usp (n : IntrNum) : (s.deviceRequest n).usp = s.usp := by
  rcases s.deviceRequest_cases n with h | ⟨-, h⟩ <;> simp [h]

@[simp] theorem deviceRequests_usp (ns : List IntrNum) : ∀ s : State, (s.deviceRequests ns).usp = s.usp := by
  induction ns with
  | nil => intro s; rfl
  | cons n ns ih => intro s; simp [deviceRequests, ih]

@[simp] theorem deviceRequest_pc (n : IntrNum) : (s.deviceRequest n).pc = s.pc := by
  rcases s.deviceRequest_cases n with h | ⟨-, h⟩ <;> simp [h]

@[simp] theorem deviceRequests_pc (ns : List IntrNum) : ∀ s : State, (s.deviceRequests ns).pc = s.pc := by
  induction ns with
  | nil => intro s; rfl
  | cons n ns ih => intro s; simp [deviceRequests, ih]

@[simp] theorem deviceRequest_flags (n : IntrNum) : (s.deviceRequest n).flags = s.flags := by
  rcases s.deviceRequest_cases n with h | ⟨-, h⟩ <;> simp [h]

@[simp] theorem deviceRequests_flags (ns : List IntrNum) : ∀ s : State, (s.deviceRequests ns).flags = s.flags := by
  induction ns with
  | nil => intro s; rfl
  | cons n ns ih => intro s; simp [deviceRequests, ih]

@[simp] theorem deviceRequest_mem (n : IntrNum) : (s.deviceRequest n).mem = s.mem := by
  rcases s.deviceRequest_cases n with h | ⟨-, h⟩ <;> simp [h]

@[simp] theorem deviceRequests_mem (ns : List IntrNum) : ∀ s : State, (s.deviceRequests ns).mem = s.mem := by
  induction ns with
  | nil => intro s; rfl
  | cons n ns ih => intro s; simp [deviceRequests, ih]

@[simp] theorem deviceRequest_iplMode (n : IntrNum) : (s.deviceRequest n).iplMode = s.iplMode := by
  rcases s.deviceRequest_cases n with h | ⟨-, h⟩ <;> simp [h]

@[simp] theorem deviceRequests_iplMode (ns : List IntrNum) : ∀ s : State, (s.deviceRequests ns).iplMode = s.iplMode := by
  induction ns with
  | nil => intro s; rfl
  | cons n ns ih => intro s; simp [deviceRequests, ih]

@[simp] theorem deviceRequest_halted (n : IntrNum) : (s.deviceRequest n).halted = s.halted := by
  rcases s.deviceRequest_cases n with h | ⟨-, h⟩ <;> simp [h]

@[simp] theorem deviceRequests_halted (ns : List IntrNum) : ∀ s : State, (s.deviceRequests ns).halted = s.halted := by
  induction ns with
  | nil => intro s; rfl
  | cons n ns ih => intro s; simp [deviceRequests, ih]

@[simp] theorem deviceRequest_cfg (n : IntrNum) : (s.deviceRequest n).cfg = s.cfg := by
  rcases s.deviceRequest_cases n with h | ⟨-, h⟩ <;> simp [h]

@[simp] theorem deviceRequests_cfg (ns : List IntrNum) : ∀ s : State, (s.deviceRequests ns).cfg = s.cfg := by
  induction ns with
  | nil => intro s; rfl
  | cons n ns ih => intro s; simp [deviceRequests, ih]

@[simp] theorem deviceRequest_env (n : IntrNum) : (s.deviceRequest n).env = s.env := by
  rcases s.deviceRequest_cases n with h | ⟨-, h⟩ <;> simp [h]

@[simp] theorem deviceRequests_env (ns : List IntrNum) : ∀ s : State, (s.deviceRequests ns).env = s.env := by
  induction ns with
  | nil => intro s; rfl
  | cons n ns ih => intro s; simp [deviceRequests, ih]

@[simp] theorem takeArrivals_g : s.takeArrivals.g = s.g := by
  unfold takeArrivals; split <;> simp

@[simp] theorem takeArrivals_fp : s.takeArrivals.fp = s.fp := by
  unfold takeArrivals; split <;> simp

@[simp] theorem takeArrivals_ssp : s.takeArrivals.ssp = s.ssp := by
  unfold takeArrivals; split <;> simp

@[simp] theorem takeArrivals_usp : s.takeArrivals.usp = s.usp := by
  unfold takeArrivals; split <;> simp

@[simp] theorem takeArrivals_pc : s.takeArrivals.pc = s.pc := by
  unfold takeArrivals; split <;> simp

@[simp] theorem takeArrivals_flags : s.takeArrivals.flags = s.flags := by
  unfold takeArrivals; split <;> simp

@[simp] theorem takeArrivals_mem : s.takeArrivals.mem = s.mem := by
  unfold takeArrivals; split <;> simp

@[simp] theorem takeArrivals_iplMode : s.takeArrivals.iplMode = s.iplMode := by
  unfold takeArrivals; split <;> simp

@[simp] theorem takeArrivals_halted : s.takeArrivals.halted = s.halted := by
  unfold takeArrivals; split <;> simp

@[simp] theorem takeArrivals_cfg : s.takeArrivals.cfg = s.cfg := by
  unfold takeArrivals; split <;> simp

/-- A device request never sets an exception slot (R341). -/
theorem deviceRequests_exception (ns : List IntrNum) : ∀ (s : State) (n : IntrNum), s.cfg.excFirst ≤ n →
    (s.deviceRequests ns).pend[n.val] = s.pend[n.val] := by
  induction ns with
  | nil => intro s n _; rfl
  | cons m ns ih =>
    intro s n h
    rw [deviceRequests, ih _ _ (by simpa using h)]
    rcases s.deviceRequest_cases m with hm | ⟨hm, hr⟩
    · rw [hm]
    · rw [hr, raise_pend]
      have : n ≠ m := by rintro rfl; exact absurd hm (Fin.not_lt.2 h)
      simp [this]

theorem takeArrivals_exception (n : IntrNum) (h : s.cfg.excFirst ≤ n) : s.takeArrivals.pend[n.val] = s.pend[n.val] := by
  unfold takeArrivals
  split
  · rfl
  · rw [deviceRequests_exception _ _ _ (by simpa using h)]; rfl

/-- The arrivals of an environment that requests nothing. -/
theorem takeArrivals_none (h : s.env.arrivals = []) : s.takeArrivals = s := by
  unfold takeArrivals; simp [h]

/-! ### The stack -/

@[simp] theorem pushWord_g (v : Word) : (s.pushWord v).g = s.g := by
  simp [pushWord] ; try (simp only [writeReg]; split <;> rfl)

@[simp] theorem popWord_g : s.popWord.2.g = s.g := by
  simp [popWord] ; try (simp only [writeReg]; split <;> rfl)

@[simp] theorem pushWord_fp (v : Word) : (s.pushWord v).fp = s.fp := by
  simp [pushWord] ; try (simp only [writeReg]; split <;> rfl)

@[simp] theorem popWord_fp : s.popWord.2.fp = s.fp := by
  simp [popWord] ; try (simp only [writeReg]; split <;> rfl)

@[simp] theorem pushWord_pc (v : Word) : (s.pushWord v).pc = s.pc := by
  simp [pushWord]

@[simp] theorem popWord_pc : s.popWord.2.pc = s.pc := by
  simp [popWord]

@[simp] theorem pushWord_flags (v : Word) : (s.pushWord v).flags = s.flags := by
  simp [pushWord, writeReg_flags]

@[simp] theorem popWord_flags : s.popWord.2.flags = s.flags := by
  simp [popWord, writeReg_flags]

@[simp] theorem pushWord_iplMode (v : Word) : (s.pushWord v).iplMode = s.iplMode := by
  simp [pushWord]

@[simp] theorem popWord_iplMode : s.popWord.2.iplMode = s.iplMode := by
  simp [popWord]

@[simp] theorem pushWord_pend (v : Word) : (s.pushWord v).pend = s.pend := by
  simp [pushWord]

@[simp] theorem popWord_pend : s.popWord.2.pend = s.pend := by
  simp [popWord]

@[simp] theorem pushWord_halted (v : Word) : (s.pushWord v).halted = s.halted := by
  simp [pushWord]

@[simp] theorem popWord_halted : s.popWord.2.halted = s.halted := by
  simp [popWord]

@[simp] theorem pushWord_cfg (v : Word) : (s.pushWord v).cfg = s.cfg := by
  simp [pushWord]

@[simp] theorem popWord_cfg : s.popWord.2.cfg = s.cfg := by
  simp [popWord]

@[simp] theorem pushWord_env (v : Word) : (s.pushWord v).env = s.env := by
  simp [pushWord]

@[simp] theorem popWord_env : s.popWord.2.env = s.env := by
  simp [popWord]

@[simp] theorem popWord_mem : s.popWord.2.mem = s.mem := by simp [popWord]

/-- A pop, bank by bank (44_stack.md R271, 10_state.md R24). -/
theorem popWord_eq : s.popWord =
    if s.privileged then (s.readWord s.ssp, s.setSsp (s.ssp + 2)) else (s.readWord s.usp, s.setUsp (s.usp + 2)) := by
  cases h : s.privileged <;> simp [popWord, readReg, writeReg, h]

/-! ### Writes change memory and nothing else, so putting the memory back undoes them -/

theorem setMem_writeByte (a : Word) (b : Byte) (m : Memory) : (s.writeByte a b).setMem m = s.setMem m := by
  unfold writeByte; split <;> rfl

theorem setMem_writeWord (a v : Word) (m : Memory) : (s.writeWord a v).setMem m = s.setMem m := by
  simp [writeWord, setMem_writeByte]

theorem setMem_writeBytes (bs : List Byte) : ∀ (s : State) (a : Word) (m : Memory),
    (s.writeBytes a bs).setMem m = s.setMem m := by
  induction bs with
  | nil => intro s a m; rfl
  | cons b bs ih => intro s a m; rw [writeBytes, ih, setMem_writeByte]

/-- A byte outside a run of byte writes is left alone (20_memory.md R67, R88). -/
theorem readByte_writeBytes_ne (bs : List Byte) : ∀ (s : State) (a c : Word),
    (∀ k : Nat, k < bs.length → c ≠ a + BitVec.ofNat 16 k) → (s.writeBytes a bs).readByte c = s.readByte c := by
  induction bs with
  | nil => intros; rfl
  | cons b bs ih =>
    intro s a c h
    rw [writeBytes, ih, readByte_writeByte, if_neg]
    · have := h 0 (by simp); simp at this; simp [this]
    · intro k hk
      have := h (k + 1) (by simpa using hk)
      rw [BitVec.add_assoc]; intro he; apply this; rw [he]; congr 1
      rw [BitVec.add_comm]; apply BitVec.eq_of_toNat_eq; simp

/-- What a run of byte writes leaves in a byte: its own byte where the overlay lets it through, else what stood there
(20_memory.md R67, R88). -/
theorem readByte_writeBytes (bs : List Byte) : ∀ (s : State) (a c : Word), bs.length ≤ 0x10000 →
    (s.writeBytes a bs).readByte c =
      if (c - a).toNat < bs.length ∧ s.writeRejected c = false then bs.getD (c - a).toNat 0 else s.readByte c := by
  induction bs with
  | nil => intros; simp [writeBytes]
  | cons b bs ih =>
    intro s a c hl
    simp only [List.length_cons] at hl
    have hr : (s.writeByte a b).writeRejected c = s.writeRejected c := by simp [writeRejected]
    rw [writeBytes, ih _ _ _ (by omega), hr, readByte_writeByte]
    by_cases hc : c = a
    · subst hc
      have h1 : (c - (c + 1)).toNat = 0xFFFF := by simp
      rw [h1, if_neg (by omega)]
      simp
    · have h0 : (c - a).toNat ≠ 0 := fun h => hc (by
        apply BitVec.eq_of_toNat_eq; rw [BitVec.toNat_sub] at h; omega)
      have h1 : (c - a).toNat = (c - (a + 1)).toNat + 1 := by
        rw [BitVec.toNat_sub] at h0; simp [BitVec.toNat_sub]; omega
      rw [h1]
      simp [hc]

/-- Whether the overlay rejects a write, as a proposition (20_memory.md R63). -/
theorem writeRejected_eq_false (a : Word) (h : s.iplMode = false ∨ a.toNat < 0xE000) : s.writeRejected a = false := by
  unfold writeRejected Memory.windowBase
  rcases h with h | h
  · simp [h]
  · have : ¬ 0xE000 ≤ a.toNat := by omega
    simp [this]

/-! ### Which registers a register write reaches -/

theorem writeReg_g_ne (n : Fin 12) (r : Reg) (v : Word) (h : r ≠ .g n) : (s.writeReg r v).g[n.val] = s.g[n.val] := by
  cases r with
  | g m =>
    simp only [writeReg, setG_g]
    rw [Vector.getElem_set_ne]
    intro he; exact h (by rw [Fin.ext he])
  | sp => simp only [writeReg]; split <;> rfl
  | fp => rfl
  | usp => rfl
  | flag => rfl

theorem writeReg_fp_ne (r : Reg) (v : Word) (h : r ≠ .fp) : (s.writeReg r v).fp = s.fp := by
  cases r with
  | fp => exact absurd rfl h
  | sp => simp only [writeReg]; split <;> rfl
  | g n => rfl
  | usp => rfl
  | flag => rfl

theorem writeReg_ssp_ne (r : Reg) (v : Word) (h : ¬(r = .sp ∧ s.flag .p = true)) : (s.writeReg r v).ssp = s.ssp := by
  have hp : s.flag .p = s.privileged := rfl
  cases r with
  | sp => rw [hp] at h; cases hq : s.privileged <;> simp_all [writeReg]
  | fp => rfl
  | g n => rfl
  | usp => rfl
  | flag => rfl

theorem writeReg_usp_ne (r : Reg) (v : Word) (h : r ≠ .usp) (h' : ¬(r = .sp ∧ s.flag .p = false)) :
    (s.writeReg r v).usp = s.usp := by
  have hp : s.flag .p = s.privileged := rfl
  cases r with
  | sp => rw [hp] at h'; cases hq : s.privileged <;> simp_all [writeReg]
  | usp => exact absurd rfl h
  | fp => rfl
  | g n => rfl
  | flag => rfl

/-! ### Entry -/

/-- What a write does to memory depends on memory and the overlay flag only. -/
theorem writeByte_mem_congr {s t : State} (hm : s.mem = t.mem) (hi : s.iplMode = t.iplMode) (a : Word) (b : Byte) :
    (s.writeByte a b).mem = (t.writeByte a b).mem := by
  simp only [writeByte, writeRejected, hi]
  by_cases h : (t.iplMode && decide (Memory.windowBase ≤ a.toNat)) = true <;> simp only [h] <;> simp [hm]

theorem writeWord_mem_congr {s t : State} (hm : s.mem = t.mem) (hi : s.iplMode = t.iplMode) (a v : Word) :
    (s.writeWord a v).mem = (t.writeWord a v).mem :=
  writeByte_mem_congr (writeByte_mem_congr hm hi _ _) (by simp [hi]) _ _

/-- Memory after entry: the flags word, then pc, pushed below SSP (60_exceptions.md R320, R322). -/
theorem enter_mem (n : IntrNum) : (s.enter n).mem =
    ((s.writeWord (s.ssp - 2) (s.flags.setWidth 16)).writeWord (s.ssp - 2 - 2) s.pc).mem := by
  have h : ((s.setSsp (s.ssp - 2)).writeWord (s.ssp - 2) (s.flags.setWidth 16)).mem =
      (s.writeWord (s.ssp - 2) (s.flags.setWidth 16)).mem :=
    writeWord_mem_congr (s := s.setSsp (s.ssp - 2)) (t := s) rfl rfl _ _
  simp only [enter, pushSupervisor, setPc_mem, setFlags_mem, writeWord_ssp, setSsp_ssp]
  exact writeWord_mem_congr (s := ((s.setSsp (s.ssp - 2)).writeWord (s.ssp - 2) (s.flags.setWidth 16)).setSsp
    (s.ssp - 2 - 2)) h (by simp) _ _

theorem wf_enter (n : IntrNum) (h : s.mem.wf = true) : (s.enter n).mem.wf = true := by
  rw [enter_mem]; exact wf_writeWord _ _ _ (wf_writeWord _ _ _ h)

theorem read_enter_window (n : IntrNum) (h : s.iplMode = true) {k : Nat} (hk : Memory.windowBase ≤ k) :
    (s.enter n).mem.read k = s.mem.read k := by
  rw [enter_mem, read_writeWord_window _ _ _ (by simpa using h) hk, read_writeWord_window _ _ _ h hk]

theorem wf_interruptCheck (h : s.mem.wf = true) : s.interruptCheck.mem.wf = true := by
  rcases s.interruptCheck_cases with e | ⟨n, -, -, e⟩ <;> rw [e]
  · exact h
  · exact wf_enter _ _ h

/-! ### Effective addresses and operands -/

/-- An effective address depends on the registers only. -/
theorem effAddr_congr {s t : State} (hg : s.g = t.g) (hf : s.fp = t.fp) (hs : s.ssp = t.ssp) (hu : s.usp = t.usp)
    (hfl : s.flags = t.flags) (o : Operand) : s.effAddr o = t.effAddr o := by
  cases o <;> simp [effAddr, readReg_congr hg hf hs hu hfl, hf]

/-- Everything an operation on a target can do: run on its effective address, or raise the undefined operation
(40_cycle.md R140). -/
theorem withTarget_cases (o : Operand) (f : Word → State → State) :
    (s.targetAllowed o = true ∧ s.withTarget o f = f (s.effAddr o) s) ∨
    (s.targetAllowed o = false ∧ s.withTarget o f = s.raise s.cfg.intrUndef) := by
  unfold withTarget
  cases h : s.targetAllowed o <;> simp

/-- A mode with an effective address is always allowed (R140). -/
theorem targetAllowed_of_hasEffAddr {o : Operand} (h : hasEffAddr o = true) : s.targetAllowed o = true := by
  unfold targetAllowed; cases s.cfg.noEaPolicy <;> simp [h]

end Sys2Proof.Machine.State
end

