-- ==== Sys2Proof/Laws/Alu.lean ====
section
/-! SUPPORT. The ALU's truncations and bit tests, and the fields its common execution leaves alone (42_alu.md R185). -/

namespace Sys2Proof.Machine

open Sys2Proof

/-- Truncation of a natural number (00_scope.md R9). -/
theorem trunc16_natCast (n : Nat) (t : Word) (h : t.toNat = n % 0x10000) : trunc16 (n : Int) = t := by
  apply BitVec.eq_of_toNat_eq; rw [h]; simp [trunc16]

@[simp] theorem trunc16_toNat (t : Word) : trunc16 (t.toNat : Int) = t :=
  trunc16_natCast _ _ (by have := t.isLt; omega)

@[simp] theorem trunc16_toInt (t : Word) : trunc16 t.toInt = t := by simp [trunc16]

/-- The sum and the difference of two words (42_alu.md R182). -/
theorem trunc16_add (a b : Word) : trunc16 (a.toNat + b.toNat) = a + b := by
  apply BitVec.eq_of_toNat_eq; simp [trunc16, BitVec.toNat_ofInt]; omega

theorem trunc16_sub (a b : Word) : trunc16 (a.toNat - b.toNat) = a - b := by
  apply BitVec.eq_of_toNat_eq
  have := a.isLt; have := b.isLt
  simp [trunc16, BitVec.toNat_ofInt, BitVec.toNat_sub]; omega

/-- Bit 16 of a sum is the carry out, and of a difference the borrow (42_alu.md R202). -/
theorem bit16_add (a b : Word) : bit16 (a.toNat + b.toNat) = decide (0x10000 ≤ a.toNat + b.toNat) := by
  have := a.isLt; have := b.isLt
  rw [Bool.eq_iff_iff]; simp [bit16]; omega

theorem bit16_sub (a b : Word) : bit16 (a.toNat - b.toNat) = decide (a.toNat < b.toNat) := by
  have := a.isLt; have := b.isLt
  rw [Bool.eq_iff_iff]; simp [bit16]; omega

/-- The shift count is the operand modulo 16 (42_alu.md R183). -/
theorem shiftCount_eq (v : Word) : shiftCount v = v.toNat % 16 := by simp [shiftCount]

variable (op : AluOp) (rd : Reg) (src : Operand) (s : State)

/-- The state an ALU instruction stores its result in: the exception it may raise and its flags (R184, R185). -/
theorem aluEffect_eq : aluEffect op rd src s =
    let s1 := if dividesByZero op (s.loadOperand src) then s.raise s.cfg.intrZdiv else s
    let s2 := s1.setFlags (flagUpdate s.cfg op (s.readReg rd) (s.loadOperand src)
      (aluResult op (s.readReg rd) (s.loadOperand src)) s.flags)
    if op = .cmp then s2 else s2.writeReg rd (trunc16 (aluResult op (s.readReg rd) (s.loadOperand src))) := rfl

@[simp] theorem aluEffect_pc : (aluEffect op rd src s).pc = s.pc := by
  unfold aluEffect; dsimp only; split <;> split <;> simp

@[simp] theorem aluEffect_mem : (aluEffect op rd src s).mem = s.mem := by
  unfold aluEffect; dsimp only; split <;> split <;> simp

@[simp] theorem aluEffect_iplMode : (aluEffect op rd src s).iplMode = s.iplMode := by
  unfold aluEffect; dsimp only; split <;> split <;> simp

@[simp] theorem aluEffect_halted : (aluEffect op rd src s).halted = s.halted := by
  unfold aluEffect; dsimp only; split <;> split <;> simp

@[simp] theorem aluEffect_cfg : (aluEffect op rd src s).cfg = s.cfg := by
  unfold aluEffect; dsimp only; split <;> split <;> simp

@[simp] theorem aluEffect_env : (aluEffect op rd src s).env = s.env := by
  unfold aluEffect; dsimp only; split <;> split <;> simp

/-- Only a zero divisor sets a slot (R184). -/
theorem aluEffect_pend : (aluEffect op rd src s).pend =
    if dividesByZero op (s.loadOperand src) then s.pend.set s.cfg.intrZdiv true else s.pend := by
  unfold aluEffect; dsimp only; split <;> split <;> simp [State.raise]

end Sys2Proof.Machine
end

