-- ==== Sys2Proof/Laws/Exec.lean ====
section
/-! SUPPORT. Everything an instruction can do to the state, said once: each effect is a chain of the updates listed in
`ClosedUnderExec`, so a property these updates keep is kept by every instruction. -/

namespace Sys2Proof.Machine

open Sys2Proof

/-- The slots an instruction can raise (60_exceptions.md R310). -/
def Config.exceptionNumbers (c : Config) : List IntrNum := [c.intrZdiv, c.intrPriv, c.intrUndef, c.intrSvc]

/-- A property of states that every update an instruction is made of keeps. -/
structure ClosedUnderExec (P : State → Prop) : Prop where
  writeReg   : ∀ s r v, P s → P (s.writeReg r v)
  writeFlags : ∀ s b, P s → P (s.writeFlags b)
  aluFlags   : ∀ (s : State) v c x z, P s → P (s.setFlags (withVCSZ s.flags v c x z))
  setPc      : ∀ s v, P s → P (s.setPc v)
  writeByte  : ∀ s a b, P s → P (s.writeByte a b)
  raise      : ∀ s n, n ∈ Config.exceptionNumbers s.cfg → P s → P (s.raise n)
  halt       : ∀ s, s.privileged = true → P s → P (s.setHalted true)
  setEnv     : ∀ s e, e.arrivals = s.env.arrivals → P s → P (s.setEnv e)
  detachIpl  : ∀ s, s.cfg.iplDetach ≠ none → P s → P s.detachIpl

namespace ClosedUnderExec

variable {P : State → Prop} (h : ClosedUnderExec P)
include h

theorem writeWord (s : State) (a v : Word) (hs : P s) : P (s.writeWord a v) :=
  h.writeByte _ _ _ (h.writeByte _ _ _ hs)

theorem writeBytes (bs : List Byte) : ∀ (s : State) (a : Word), P s → P (s.writeBytes a bs) := by
  induction bs with
  | nil => intro s a hs; exact hs
  | cons b bs ih => intro s a hs; exact ih _ _ (h.writeByte _ _ _ hs)

theorem pushWord (s : State) (v : Word) (hs : P s) : P (s.pushWord v) := h.writeWord _ _ _ (h.writeReg _ _ _ hs)

theorem popWord (s : State) (hs : P s) : P s.popWord.2 := h.writeReg s .sp (s.readReg .sp + 2) hs

theorem returnFromTrap (s : State) (hs : P s) : P s.returnFromTrap :=
  h.writeFlags _ _ (h.setPc _ _ (h.popWord _ (h.popWord _ hs)))

theorem ioRead (s : State) (a : Word) (hs : P s) : P (s.ioRead a).2 := by
  unfold State.ioRead
  split
  · exact h.setEnv _ _ rfl hs
  · exact hs

theorem sectorEffect (s : State) (op : DeviceWrite) (hs : P s) : P (s.sectorEffect op) := by
  unfold State.sectorEffect
  split
  · dsimp only
    have h1 : P (s.setEnv { s.env with draws := s.env.draws + 1 }) := h.setEnv _ _ rfl hs
    split
    · exact h.writeBytes _ _ _ h1
    · exact h1
  · exact hs

theorem deviceWrite (s : State) (a v : Word) (hs : P s) : P (s.deviceWrite a v) := by
  unfold State.deviceWrite
  split
  · exact h.sectorEffect _ _ (h.setEnv s _ rfl hs)
  · exact hs

/-- A device write changes no parameter, so the detach after it is allowed where `IPL_DETACH` is set. -/
theorem ioWrite (s : State) (a v : Word) (hs : P s) (hc : (s.deviceWrite a v).cfg = s.cfg) : P (s.ioWrite a v) := by
  unfold State.ioWrite
  dsimp only
  split
  · next hd => exact h.detachIpl _ (by simp [hc, hd]) (h.deviceWrite _ _ _ hs)
  · exact h.deviceWrite _ _ _ hs

theorem withTarget (s : State) (o : Operand) (f : Word → State → State) (hs : P s) (hf : P (f (s.effAddr o) s)) :
    P (s.withTarget o f) := by
  rcases s.withTarget_cases o f with ⟨-, ht⟩ | ⟨-, ht⟩ <;> rw [ht]
  · exact hf
  · exact h.raise _ _ (by simp [Config.exceptionNumbers]) hs

theorem aluEffect (op : AluOp) (rd : Reg) (src : Operand) (s : State) (hs : P s) :
    P (Sys2Proof.Machine.aluEffect op rd src s) := by
  unfold Sys2Proof.Machine.aluEffect flagUpdate
  dsimp only
  have h1 : P (if dividesByZero op (s.loadOperand src) then s.raise s.cfg.intrZdiv else s) ∧
      (if dividesByZero op (s.loadOperand src) then s.raise s.cfg.intrZdiv else s).flags = s.flags := by
    split
    · exact ⟨h.raise _ _ (by simp [Config.exceptionNumbers]) hs, rfl⟩
    · exact ⟨hs, rfl⟩
  rw [← h1.2]
  have h2 := fun v c x z => h.aluFlags _ v c x z h1.1
  split
  · exact h2 _ _ _ _
  · exact h.writeReg _ _ _ (h2 _ _ _ _)

theorem jumpEffect (b : Bool) (dst : Operand) (s : State) (hs : P s) : P (Sys2Proof.Machine.jumpEffect b dst s) := by
  refine h.withTarget _ _ _ hs ?_
  split
  · exact h.setPc _ _ hs
  · exact hs

end ClosedUnderExec

theorem sectorEffect_cfg (s : State) (op : DeviceWrite) : (s.sectorEffect op).cfg = s.cfg := by
  unfold State.sectorEffect
  split
  · dsimp only; split <;> simp
  · rfl

@[simp] theorem deviceWrite_cfg (s : State) (a v : Word) : (s.deviceWrite a v).cfg = s.cfg := by
  unfold State.deviceWrite
  split
  · rw [sectorEffect_cfg]; rfl
  · rfl

/-- A property that the updates of `ClosedUnderExec` keep is kept by every instruction. -/
theorem exec_closed {P : State → Prop} (h : ClosedUnderExec P) (i : Instr) (s t : State) (hs : P s)
    (ht : exec i s = .next t) : P t := by
  have undef : P (s.raise s.cfg.intrUndef) := h.raise _ _ (by simp [Config.exceptionNumbers]) hs
  have priv : P (s.raise s.cfg.intrPriv) := h.raise _ _ (by simp [Config.exceptionNumbers]) hs
  cases i <;> cases ht
  case nop => exact hs
  case ld rd src => exact h.writeReg _ _ _ hs
  case st rd dst =>
    refine h.withTarget _ _ _ hs ?_
    cases dst <;> first | exact h.writeWord _ _ _ hs | exact h.writeByte _ _ _ hs
  case call dst => exact h.withTarget _ _ _ hs (h.setPc _ _ (h.pushWord _ _ hs))
  case ret => exact h.setPc _ _ (h.popWord _ hs)
  case reti => exact h.returnFromTrap _ hs
  case push rd => exact h.pushWord _ _ hs
  case pop rd => exact h.writeReg _ _ _ (h.popWord _ hs)
  case ioIn rd port =>
    refine h.withTarget _ _ _ hs ?_
    unfold inEffect
    split
    · exact priv
    · exact h.writeReg _ _ _ (h.ioRead _ _ hs)
  case ioOut rd port =>
    refine h.withTarget _ _ _ hs ?_
    unfold outEffect
    split
    · exact priv
    · exact h.ioWrite _ _ _ hs (by simp)
  case svc => exact h.raise _ _ (by simp [Config.exceptionNumbers]) hs
  case halt =>
    split
    · next hp => exact h.halt _ hp hs
    · exact priv
  all_goals first | exact undef | exact h.aluEffect _ _ _ _ hs | exact h.jumpEffect _ _ _ hs

/-! ### What follows for single fields -/

/-- No instruction changes a parameter (00_scope.md R7). -/
theorem exec_cfg {i : Instr} {s t : State} (ht : exec i s = .next t) : t.cfg = s.cfg := by
  refine exec_closed (P := fun u => u.cfg = s.cfg) ?_ i s t rfl ht
  constructor
  case setPc => intro u v h; exact h
  case detachIpl => intro u _ h; exact h
  case halt => intro u _ h; exact h
  case setEnv => intro u e _ h; exact h
  all_goals intros; simpa [State.writeFlags]

/-- No instruction takes a device request from the schedule. -/
theorem exec_arrivals {i : Instr} {s t : State} (ht : exec i s = .next t) : t.env.arrivals = s.env.arrivals := by
  refine exec_closed (P := fun u => u.env.arrivals = s.env.arrivals) ?_ i s t rfl ht
  constructor
  case setPc => intro u v h; exact h
  case detachIpl => intro u _ h; exact h
  case halt => intro u _ h; exact h
  case setEnv => intro u e he h; exact he.trans h
  all_goals intros; simpa [State.writeFlags]

/-- An instruction raises at most one exception and clears no slot (60_exceptions.md R325, R332). -/
theorem exec_pend {i : Instr} {s t : State} (ht : exec i s = .next t) :
    t.pend = s.pend ∨ ∃ n ∈ Config.exceptionNumbers s.cfg, t.pend = s.pend.set n.val true := by
  have undef : (s.raise s.cfg.intrUndef).pend = s.pend ∨
      ∃ n ∈ Config.exceptionNumbers s.cfg, (s.raise s.cfg.intrUndef).pend = s.pend.set n.val true :=
    .inr ⟨_, by simp [Config.exceptionNumbers], rfl⟩
  have priv : (s.raise s.cfg.intrPriv).pend = s.pend ∨
      ∃ n ∈ Config.exceptionNumbers s.cfg, (s.raise s.cfg.intrPriv).pend = s.pend.set n.val true :=
    .inr ⟨_, by simp [Config.exceptionNumbers], rfl⟩
  have target : ∀ (o : Operand) (f : Word → State → State), (f (s.effAddr o) s).pend = s.pend →
      (s.withTarget o f).pend = s.pend ∨
        ∃ n ∈ Config.exceptionNumbers s.cfg, (s.withTarget o f).pend = s.pend.set n.val true := by
    intro o f hf
    rcases s.withTarget_cases o f with ⟨-, h⟩ | ⟨-, h⟩ <;> rw [h]
    · exact .inl hf
    · exact undef
  have alu : ∀ op rd src, (aluEffect op rd src s).pend = s.pend ∨
      ∃ n ∈ Config.exceptionNumbers s.cfg, (aluEffect op rd src s).pend = s.pend.set n.val true := by
    intro op rd src
    have hp : (aluEffect op rd src s).pend =
        (if dividesByZero op (s.loadOperand src) then s.raise s.cfg.intrZdiv else s).pend := by
      unfold aluEffect; dsimp only; split <;> simp
    rw [hp]
    split
    · exact .inr ⟨s.cfg.intrZdiv, by simp [Config.exceptionNumbers], rfl⟩
    · exact .inl rfl
  have jump : ∀ b dst, (jumpEffect b dst s).pend = s.pend ∨
      ∃ n ∈ Config.exceptionNumbers s.cfg, (jumpEffect b dst s).pend = s.pend.set n.val true := by
    intro b dst
    exact target _ _ (by split <;> rfl)
  have sector : ∀ (u : State) op, (u.sectorEffect op).pend = u.pend := by
    intro u op; unfold State.sectorEffect; split
    · dsimp only; split <;> simp
    · rfl
  have device : ∀ a v, (s.deviceWrite a v).pend = s.pend := by
    intro a v; unfold State.deviceWrite; split
    · rw [sector]; rfl
    · rfl
  have port : ∀ o (f : Word → State → State), (f (s.effAddr o) s).pend = s.pend ∨
      f (s.effAddr o) s = s.raise s.cfg.intrPriv → (s.withTarget o f).pend = s.pend ∨
        ∃ n ∈ Config.exceptionNumbers s.cfg, (s.withTarget o f).pend = s.pend.set n.val true := by
    intro o f hf
    rcases s.withTarget_cases o f with ⟨-, h⟩ | ⟨-, h⟩ <;> rw [h]
    · rcases hf with hf | hf
      · exact .inl hf
      · rw [hf]; exact priv
    · exact undef
  cases i <;> cases ht
  case nop => exact .inl rfl
  case ld rd src => exact .inl (by simp)
  case st rd dst => exact target _ _ (by cases dst <;> simp [storeOperand])
  case call dst => exact target _ _ (by simp)
  case ret => exact .inl (by simp)
  case reti => exact .inl (by simp [State.returnFromTrap, State.writeFlags])
  case push rd => exact .inl (by simp)
  case pop rd => exact .inl (by simp)
  case ioIn rd o =>
    refine port _ _ ?_
    unfold inEffect State.ioRead
    split
    · exact .inr rfl
    · refine .inl ?_; split <;> simp
  case ioOut rd o =>
    refine port _ _ ?_
    unfold outEffect State.ioWrite
    split
    · exact .inr rfl
    · refine .inl ?_
      split
      · exact device _ _
      · exact device _ _
  case svc => exact .inr ⟨_, by simp [Config.exceptionNumbers], rfl⟩
  case halt =>
    split
    · exact .inl rfl
    · exact priv
  all_goals first | exact undef | exact alu _ _ _ | exact jump _ _

/-- What a step is when it has a next state: the fetched instruction run on the state the check and the fetch left. -/
theorem step_cases {s t : State} (h : step s = .next t) : s.halted = false ∧
    ∃ i pc, s.takeArrivals.interruptCheck.fetch = .ok (i, s.takeArrivals.interruptCheck.setPc pc) ∧
      exec i (s.takeArrivals.interruptCheck.setPc pc) = .next t := by
  unfold step at h
  split at h
  · simp at h
  · next hh =>
    refine ⟨by simpa using hh, ?_⟩
    split at h
    · simp at h
    · next i u hf =>
      have hu : ∃ pc, u = s.takeArrivals.interruptCheck.setPc pc := by
        unfold State.fetch at hf
        dsimp only at hf
        split at hf
        · simp at hf
        · split at hf
          · split at hf
            · simp at hf
            · cases hf; exact ⟨_, rfl⟩
          · cases hf; exact ⟨_, rfl⟩
      obtain ⟨pc, rfl⟩ := hu
      exact ⟨i, pc, hf, h⟩

end Sys2Proof.Machine
end

