-- ==== Sys2Proof/Tests/Slice0.lean ====
section
/-! SUPPORT. The model's own tests: ill-formed terms refused, words written out from 30_encoding.md decoded, one-step checks
whose expected results are the rows of 95_test_vectors.md or the examples of the rules, and a witness for the hypotheses of
every obligation. -/

namespace Sys2Proof.Tests

open Sys2Proof Sys2Proof.Machine

/-! ### WellFormed refuses what the 4-bit fields cannot hold (R111) -/

theorem test_wellFormed_shortImm :
    (Operand.shortImm 7).wellFormed = true ∧ (Operand.shortImm (-8)).wellFormed = true ∧
    (Instr.ld (.g 0) (.shortImm 8)).wellFormed = false ∧ (Instr.jmp (.shortImm (-9))).wellFormed = false := by decide

theorem test_wellFormed_fpRel :
    (Operand.fpRel 14).wellFormed = true ∧ (Operand.fpRel (-16)).wellFormed = true ∧
    (Instr.st (.g 0) (.fpRel 16)).wellFormed = false ∧ (Instr.ioIn .fp (.fpRel (-18))).wellFormed = false ∧
    (Instr.undefOp13 (.g 0) (.fpRel 3)).wellFormed = false := by decide

/-! ### Decoding: every constructor from a word written out by hand (R100, R102, R104, R107, R108, R112, R113) -/

/-- All eight modes, on LD: op 1 is 00001, so the first byte is 0x08 plus the mode (R102, R104, R111). -/
theorem test_decode_modes :
    decodeWords 0x0830 0x2000 = .ld (.g 3) (.direct 0x2000) ∧
    decodeWords 0x09CD 0x0004 = .ld .fp (.indexed 0x0004 .sp) ∧
    decodeWords 0x0AF0 0x00FF = .ld .flag (.immediate 0x00FF) ∧
    decodeWords 0x0B07 0 = .ld (.g 0) (.fpRel 14) ∧
    decodeWords 0x0B0F 0 = .ld (.g 0) (.fpRel (-2)) ∧
    decodeWords 0x0CBE 0 = .ld (.g 11) (.register .usp) ∧
    decodeWords 0x0DD8 0 = .ld .sp (.shortImm (-8)) ∧
    decodeWords 0x0E0F 0 = .ld (.g 0) (.indirect .flag) ∧
    decodeWords 0x0F21 0 = .ld (.g 2) (.byteIndirect (.g 1)) := by decide

theorem test_decode_loadStore :
    decodeWords 0x0000 0 = .nop ∧ decodeWords 0x0A00 0x1234 = .ld (.g 0) (.immediate 0x1234) ∧
    decodeWords 0x1030 0x2000 = .st (.g 3) (.direct 0x2000) := by decide

theorem test_decode_alu :
    decodeWords 0x1A00 0x1111 = .add (.g 0) (.immediate 0x1111) ∧ decodeWords 0x2513 0 = .sub (.g 1) (.shortImm 3) ∧
    decodeWords 0x2D05 0 = .cmp (.g 0) (.shortImm 5) ∧ decodeWords 0x3200 0x0FF0 = .and (.g 0) (.immediate 0x0FF0) ∧
    decodeWords 0x3A00 0x000F = .or (.g 0) (.immediate 0x000F) ∧ decodeWords 0x4422 0 = .xor (.g 2) (.register (.g 2)) ∧
    decodeWords 0x4D03 0 = .adds (.g 0) (.shortImm 3) ∧ decodeWords 0x5506 0 = .mul (.g 0) (.shortImm 6) ∧
    decodeWords 0x5D07 0 = .div (.g 0) (.shortImm 7) ∧ decodeWords 0x6507 0 = .mod (.g 0) (.shortImm 7) := by decide

theorem test_decode_shift :
    decodeWords 0x8501 0 = .shla (.g 0) (.shortImm 1) ∧ decodeWords 0x8D02 0 = .shll (.g 0) (.shortImm 2) ∧
    decodeWords 0x9501 0 = .shra (.g 0) (.shortImm 1) ∧ decodeWords 0x9D01 0 = .shrl (.g 0) (.shortImm 1) := by decide

theorem test_decode_jump :
    decodeWords 0xA000 0x0200 = .jz (.direct 0x0200) ∧ decodeWords 0xA010 0x0300 = .jc (.direct 0x0300) ∧
    decodeWords 0xA621 0 = .jm (.indirect (.g 1)) ∧ decodeWords 0xA030 0x0500 = .jo (.direct 0x0500) ∧
    decodeWords 0xA040 0x0600 = .jgt (.direct 0x0600) ∧ decodeWords 0xA050 0x0600 = .jge (.direct 0x0600) ∧
    decodeWords 0xA060 0x0600 = .jle (.direct 0x0600) ∧ decodeWords 0xA070 0x0600 = .jlt (.direct 0x0600) ∧
    decodeWords 0xA080 0x0700 = .jnz (.direct 0x0700) ∧ decodeWords 0xA090 0x0700 = .jnc (.direct 0x0700) ∧
    decodeWords 0xA0A0 0x0700 = .jnm (.direct 0x0700) ∧ decodeWords 0xA0B0 0x0700 = .jno (.direct 0x0700) ∧
    decodeWords 0xA0C0 0x0800 = .jhi (.direct 0x0800) ∧ decodeWords 0xA0D0 0x0800 = .jls (.direct 0x0800) ∧
    decodeWords 0xA1F2 0x0010 = .jmp (.indexed 0x0010 (.g 2)) := by decide

theorem test_decode_callReturnStack :
    decodeWords 0xA8F0 0x5678 = .call (.direct 0x5678) ∧ decodeWords 0xD000 0 = .ret ∧ decodeWords 0xD4FF 0 = .reti ∧
    decodeWords 0xC010 0 = .push (.g 1) ∧ decodeWords 0xC42F 0 = .pop (.g 2) := by decide

theorem test_decode_system :
    decodeWords 0xB000 0x0008 = .ioIn (.g 0) (.direct 0x0008) ∧
    decodeWords 0xB810 0x0008 = .ioOut (.g 1) (.direct 0x0008) ∧
    decodeWords 0xF0FF 0 = .svc ∧ decodeWords 0xFF00 0 = .halt ∧ decodeWords 0xF800 0 = .halt := by decide

theorem test_decode_undefinedOp :
    decodeWords 0x6800 0x1234 = .undefOp13 (.g 0) (.direct 0x1234) ∧
    decodeWords 0x7412 0 = .undefOp14 (.g 1) (.register (.g 2)) ∧ decodeWords 0x7F00 0 = .undefOp15 (.g 0) (.byteIndirect (.g 0)) ∧
    decodeWords 0xC900 0x0001 = .undefOp25 (.g 0) (.indexed 0x0001 (.g 0)) ∧
    decodeWords 0xDA00 0x0002 = .undefOp27 (.g 0) (.immediate 0x0002) ∧
    decodeWords 0xE300 0 = .undefOp28 (.g 0) (.fpRel 0) ∧ decodeWords 0xED01 0 = .undefOp29 (.g 0) (.shortImm 1) ∧
    decodeWords 0xA0E0 0x0200 = .undefJump14 (.direct 0x0200) := by decide

theorem test_decode_undefinedMode :
    decodeWords 0xC110 0 = .undefStack1 (.g 1) (.g 0) ∧ decodeWords 0xC200 0 = .undefStack2 (.g 0) (.g 0) ∧
    decodeWords 0xC3C0 0 = .undefStack3 .fp (.g 0) ∧ decodeWords 0xC50D 0 = .undefStack5 (.g 0) .sp ∧
    decodeWords 0xC6E0 0 = .undefStack6 .usp (.g 0) ∧ decodeWords 0xC70F 0 = .undefStack7 (.g 0) .flag ∧
    decodeWords 0xD100 0 = .undefReturn1 (.g 0) (.g 0) ∧ decodeWords 0xD200 0 = .undefReturn2 (.g 0) (.g 0) ∧
    decodeWords 0xD3B0 0 = .undefReturn3 (.g 11) (.g 0) ∧ decodeWords 0xD500 0 = .undefReturn5 (.g 0) (.g 0) ∧
    decodeWords 0xD60A 0 = .undefReturn6 (.g 0) (.g 10) ∧ decodeWords 0xD700 0 = .undefReturn7 (.g 0) (.g 0) := by decide

/-- Lengths (R110): HALT with mode 0 is one word, ADD direct is two, op 13 indexed is two, a lone byte does not decode. -/
theorem test_decode_length :
    decode [0xF8, 0x00, 0xAA] = .ok (.halt, [0xAA]) ∧
    decode [0x18, 0x00, 0x12, 0x34, 0xAA] = .ok (.add (.g 0) (.direct 0x1234), [0xAA]) ∧
    decode [0x69, 0x01, 0x00, 0x02] = .ok (.undefOp13 (.g 0) (.indexed 0x0002 (.g 1)), []) ∧
    decode [0x18, 0x00, 0x12] = .error .truncated ∧ decode [0x18] = .error .truncated := by decide

/-- The table's numbering: the first word in bits 15..0, the extension word in bits 31..16. -/
theorem test_decodeTableWord :
    decodeTableWord 32 0x12340A00 = some (.ld (.g 0) (.immediate 0x1234)) ∧
    decodeTableWord 16 0x0A00 = some (.ld (.g 0) (.immediate 0)) ∧ decodeTableWord 16 0xD400 = some .reti := by decide

/-! ### One step -/

/-- Reset, with the boot image detached and pc in RAM: the start state of section 2 of 95_test_vectors.md. -/
def base : State := { State.reset with pc := 0x0100, iplMode := false }

/-- Run the instruction of a first word and an extension word as the next step. -/
def stepWords (s : State) (w e : Word) : Option State :=
  match step (s.withFetchWord 32 (e.toNat * 65536 + w.toNat)) with
  | .next t => some t
  | .fault _ => none
  | .refused _ => none

/-- A state with words stored at addresses. -/
def withWords (s : State) : List (Word × Word) → State
  | [] => s
  | (a, v) :: rest => withWords (s.placeWord a v) rest

/-- One row of the table of section 2.4: `OP G0,#v2`, G0 and the flags after it (start flags 0x40). -/
def aluRow (s : State) (op : Word) (v1 v2 g0 : Word) (flags : Byte) : Bool :=
  (stepWords (s.setG 0 v1) (op * 2048 + 0x0200) v2).map (fun t => (t.g[0], t.flags)) == some (g0, flags)

theorem test_add : [aluRow base 3 0x1234 0x1111 0x2345 0x40, aluRow base 3 0xFFFF 0x0001 0x0000 0x45,
    aluRow base 3 0x7FFF 0x0001 0x8000 0x4A, aluRow base 3 0x8000 0xFFFF 0x7FFF 0x4C].all id = true := by decide

theorem test_sub : [aluRow base 4 0x0005 0x0003 0x0002 0x40, aluRow base 4 0x0000 0x0001 0xFFFF 0x46,
    aluRow base 4 0x8000 0x0001 0x7FFF 0x48, aluRow base 4 0x7FFF 0xFFFF 0x8000 0x4E].all id = true := by decide

/-- The parameter variants of SUB and CMP (`SUB_V_RULE = add_formula`). -/
theorem test_sub_addFormula :
    let s := { base with cfg := { Config.default with subVRule := .addFormula } }
    [aluRow s 4 0x0001 0x0002 0xFFFF 0x4E, aluRow s 4 0x7FFF 0xFFFF 0x8000 0x46, aluRow s 4 0x8000 0x0001 0x7FFF 0x40,
      aluRow s 5 0x4000 0xC000 0x4000 0x46].all id = true := by decide

theorem test_cmp : [aluRow base 5 0x0003 0x0005 0x0003 0x46, aluRow base 5 0xFFFF 0x0001 0xFFFF 0x42,
    aluRow base 5 0x7FFF 0xFFFF 0x7FFF 0x4E, aluRow base 5 0x8000 0x0001 0x8000 0x48].all id = true := by decide

theorem test_and : [aluRow base 6 0xF0F0 0x0FF0 0x00F0 0x40, aluRow base 6 0x1234 0x0000 0x0000 0x41].all id = true := by decide

theorem test_or : aluRow base 7 0xF000 0x000F 0xF00F 0x42 = true := by decide

theorem test_xor : [aluRow base 8 0xFFFF 0xFFFF 0x0000 0x41, aluRow base 8 0x0F0F 0xFFFF 0xF0F0 0x42].all id = true := by
  decide

theorem test_adds : [aluRow base 9 0x1000 0x0003 0x1006 0x40, aluRow base 9 0xFFFE 0x0001 0x0000 0x41,
    aluRow base 9 0x0000 0x8000 0x0000 0x41].all id = true := by decide

theorem test_mul : [aluRow base 10 0x0007 0x0006 0x002A 0x40, aluRow base 10 0x0100 0x0100 0x0000 0x41,
    aluRow base 10 0xFFFF 0xFFFF 0x0001 0x40, aluRow base 10 0x4000 0x0002 0x8000 0x42].all id = true := by decide

theorem test_div : [aluRow base 11 0x0064 0x0007 0x000E 0x40, aluRow base 11 0xFFFF 0x0002 0x7FFF 0x40,
    aluRow base 11 0x0003 0x0007 0x0000 0x41, aluRow base 11 0x1234 0x0000 0x0000 0x41].all id = true := by decide

theorem test_mod : [aluRow base 12 0x0064 0x0007 0x0002 0x40, aluRow base 12 0x0003 0x0007 0x0003 0x40,
    aluRow base 12 0x1234 0x0001 0x0000 0x41, aluRow base 12 0x1234 0x0000 0x0000 0x41].all id = true := by decide

/-- DIV and MOD by zero make slot 12 pending, and only that one (section 2.4). -/
theorem test_divideByZero_pending :
    (stepWords base 0x5A00 0x0000).map (fun t => (t.pend[12], t.pend[13], t.pend[14], t.pc)) = some (true, false, false, 0x0104) ∧
    (stepWords base 0x6200 0x0000).map (fun t => t.pend[12]) = some true := by decide

theorem test_shla : [aluRow base 16 0x8001 0x0001 0x0002 0x44, aluRow base 16 0x0001 0x000F 0x8000 0x42,
    aluRow base 16 0x1234 0x0010 0x1234 0x40].all id = true := by decide

theorem test_shll : [aluRow base 17 0x4001 0x0002 0x0004 0x40, aluRow base 17 0x8000 0x0011 0x0000 0x45].all id = true := by
  decide

theorem test_shra : [aluRow base 18 0x8000 0x0001 0xC000 0x46, aluRow base 18 0x8000 0x000F 0xFFFF 0x42,
    aluRow base 18 0x4001 0x0001 0x2000 0x40, aluRow base 18 0xFFFF 0x0004 0xFFFF 0x42].all id = true := by decide

theorem test_shrl : [aluRow base 19 0x8001 0x0001 0x4000 0x40, aluRow base 19 0x0001 0x0001 0x0000 0x41,
    aluRow base 19 0x8000 0x0000 0x8000 0x42, aluRow base 19 0xFFFF 0x0010 0xFFFF 0x42].all id = true := by decide

/-- The parameter variants of the shifts (`SHIFT_C_TEST = operand`). -/
theorem test_shift_operandTest :
    let s := { base with cfg := { Config.default with shiftCTest := .operand } }
    [aluRow s 16 0x8000 0x0011 0x0000 0x41, aluRow s 18 0x8000 0x0011 0xC000 0x42].all id = true := by decide

/-- The register corner cases of section 2.4: the flag byte as an ALU operand. -/
theorem test_alu_flagByte :
    (stepWords base 0x1AF0 0x0081).map State.flags = some 0xC1 ∧
    (stepWords (base.setFlags 0x00) 0x1AF0 0x00F1).map State.flags = some 0x01 ∧
    (stepWords base 0x2AF0 0x0000).map State.flags = some 0x40 := by decide

/-- Operand modes and the byte order (sections 2.2 and 2.3; R133 to R138). -/
theorem test_ld_operands :
    let s := { withWords base [(0x2000, 0xBEEF), (0x0FFC, 0x5A5A), (0x0110, 0x7777)] with fp := 0x1000 }
    (stepWords s 0x0800 0x2000).map (fun t => t.g[0]) = some 0xBEEF ∧
    (stepWords s 0x0B0E 0).map (fun t => t.g[0]) = some 0x5A5A ∧
    (stepWords (s.setG 2 0x0100) 0x0902 0x0010).map (fun t => t.g[0]) = some 0x7777 ∧
    (stepWords (s.setG 1 0x2001) 0x0F01 0).map (fun t => t.g[0]) = some 0x00EF ∧
    (stepWords s 0x0D0F 0).map (fun t => t.g[0]) = some 0xFFFF := by decide

/-- LD of the flag byte and of USP (section 2.7). -/
theorem test_ld_flags :
    (stepWords (base.setFlags 0x00) 0x0AF0 0x00FF).map State.flags = some 0x0F ∧
    (stepWords base 0x0AF0 0x00E5).map State.flags = some 0xE5 ∧
    (stepWords base 0x0AF0 0xFF40).map State.flags = some 0x40 ∧
    (stepWords (base.setFlags 0x4F) 0x0C0F 0).map (fun t => t.g[0]) = some 0x004F ∧
    (stepWords ((base.setFlags 0x00).setUsp 0x7000) 0x0C0E 0).map (fun t => t.g[0]) = some 0x7000 := by decide

/-- ST: big-endian, a byte in mode 7, the wrap at 0xFFFF, a word over the edge of the protected window (R162, R67, R70). -/
theorem test_st :
    (stepWords (base.setG 3 0xBEEF) 0x1030 0x2000).map (fun t => (t.readByte 0x2000, t.readByte 0x2001)) = some (0xBE, 0xEF) ∧
    (stepWords ((base.setG 3 0xBEEF).setG 1 0x2000) 0x1731 0).map (fun t => (t.readByte 0x2000, t.readByte 0x2001)) =
      some (0xEF, 0x00) ∧
    (stepWords (base.setG 3 0xBEEF) 0x1030 0xFFFF).map (fun t => (t.readByte 0xFFFF, t.readByte 0x0000)) = some (0xBE, 0xEF) ∧
    (stepWords ((base.setG 3 0xBEEF).setIplMode true) 0x1030 0xDFFF).map (fun t => (t.readByte 0xDFFF, t.readByte 0xE000)) =
      some (0xBE, 0x00) := by decide

/-- ST in a mode without an address (section 2.3), under both policies. -/
theorem test_st_noEffectiveAddress :
    (stepWords (base.setG 0 0x1234) 0x1200 0x5555).map (fun t => (t.readWord 0, t.pc, t.pend[14])) = some (0x1234, 0x0104, false) ∧
    (stepWords { base.setG 0 0x1234 with cfg := { Config.default with noEaPolicy := .undefinedTrap } } 0x1200 0x5555).map
      (fun t => (t.readWord 0, t.pc, t.pend[14])) = some (0x0000, 0x0104, true) := by decide

/-- Whether `Jcc 0x0200` at 0x0100 is taken, for the flag nibbles of section 2.5 in the table's order. -/
def jumpRow (code : Word) : List Bool :=
  [0x40, 0x41, 0x42, 0x44, 0x48, 0x4A, 0x45, 0x43].map fun f =>
    (stepWords (base.setFlags f) (0xA000 + code * 16) 0x0200).map State.pc == some 0x0200

theorem test_jump_simple :
    jumpRow 0 = [false, true, false, false, false, false, true, true] ∧
    jumpRow 1 = [false, false, false, true, false, false, true, false] ∧
    jumpRow 2 = [false, false, true, false, false, true, false, true] ∧
    jumpRow 3 = [false, false, false, false, true, true, false, false] := by decide

theorem test_jump_signed :
    jumpRow 4 = [true, false, false, true, false, true, false, false] ∧
    jumpRow 5 = [true, true, false, true, false, true, true, false] ∧
    jumpRow 6 = [false, true, true, false, true, false, true, true] ∧
    jumpRow 7 = [false, false, true, false, true, false, false, true] := by decide

theorem test_jump_negated :
    jumpRow 8 = [true, false, true, true, true, true, false, false] ∧
    jumpRow 9 = [true, true, true, false, true, true, false, true] ∧
    jumpRow 10 = [true, true, false, true, true, false, true, false] ∧
    jumpRow 11 = [true, true, true, true, false, false, true, true] := by decide

theorem test_jump_unsigned :
    jumpRow 12 = [true, false, true, false, true, true, false, false] ∧
    jumpRow 13 = [false, true, false, true, false, false, true, true] ∧
    jumpRow 15 = [true, true, true, true, true, true, true, true] := by decide

/-- A jump not taken, an odd target, JMP in immediate mode, and code 14 (section 2.5). -/
theorem test_jump_targets :
    (stepWords base 0xA000 0x0200).map State.pc = some 0x0104 ∧
    (stepWords base 0xA0F0 0x0201).map State.pc = some 0x0201 ∧
    (stepWords base 0xA2F0 0x0200).map State.pc = some 0x0000 ∧
    (stepWords base 0xA0E0 0x0200).map (fun t => (t.pc, t.pend[14])) = some (0x0104, true) := by decide

theorem test_push :
    (stepWords ((base.setSsp 0x8000).setG 1 0xCAFE) 0xC010 0).map (fun t => (t.ssp, t.readWord 0x7FFE)) =
      some (0x7FFE, 0xCAFE) ∧
    (stepWords (base.setSsp 0x8000) 0xC0D0 0).map (fun t => (t.ssp, t.readWord 0x7FFE)) = some (0x7FFE, 0x8000) ∧
    (stepWords ((base.setSsp 0x0000).setG 1 0xABCD) 0xC010 0).map (fun t => (t.ssp, t.readWord 0xFFFE)) =
      some (0xFFFE, 0xABCD) ∧
    (stepWords ((base.setSsp 0x8000).setFlags 0x45) 0xC0F0 0).map (fun t => t.readWord 0x7FFE) = some 0x0045 := by decide

/-- The user stack (section 2.6). -/
theorem test_push_user :
    (stepWords ((((base.setFlags 0x00).setUsp 0x7000).setSsp 0x8000).setG 1 1) 0xC010 0).map (fun t => (t.usp, t.ssp)) =
      some (0x6FFE, 0x8000) := by decide

theorem test_pop :
    let s := withWords (base.setSsp 0x7FFE) [(0x7FFE, 0xCAFE)]
    (stepWords s 0xC420 0).map (fun t => (t.g[2], t.ssp)) = some (0xCAFE, 0x8000) ∧
    (stepWords s 0xC4D0 0).map State.ssp = some 0xCAFE := by decide

theorem test_pop_flag :
    (stepWords (withWords ((base.setFlags 0x00).setUsp 0x7000) [(0x7000, 0x00FF)]) 0xC4F0 0).map (fun t => (t.flags, t.usp)) =
      some (0x0F, 0x7002) ∧
    (stepWords (withWords (base.setSsp 0x7FFE) [(0x7FFE, 0x00A0)]) 0xC4F0 0).map (fun t => (t.flags, t.ssp)) =
      some (0xA0, 0x8000) := by decide

theorem test_call :
    (stepWords (base.setSsp 0x8000) 0xA800 0x0300).map (fun t => (t.pc, t.readWord 0x7FFE)) = some (0x0300, 0x0104) ∧
    (stepWords ((base.setSsp 0x8000).setG 3 0x0400) 0xAE03 0).map (fun t => (t.pc, t.readWord 0x7FFE)) =
      some (0x0400, 0x0102) := by decide

theorem test_ret : (stepWords (withWords (base.setSsp 0x7FFE) [(0x7FFE, 0x0104)]) 0xD000 0).map
    (fun t => (t.pc, t.ssp)) = some (0x0104, 0x8000) := by decide

theorem test_reti :
    (stepWords (withWords (base.setSsp 0x7FFC) [(0x7FFC, 0x0200), (0x7FFE, 0x0085)]) 0xD400 0).map
      (fun t => (t.pc, t.flags, t.ssp)) = some (0x0200, 0x85, 0x8000) ∧
    (stepWords (withWords ((base.setFlags 0x00).setUsp 0x7000) [(0x7000, 0x0300), (0x7002, 0x00EF)]) 0xD400 0).map
      (fun t => (t.pc, t.flags, t.usp)) = some (0x0300, 0x0F, 0x7004) := by decide

/-- IN of unbound, odd and too high addresses, and without the privilege (section 2.8). -/
theorem test_in :
    let s := base.setG 0 0x9999
    (stepWords s 0xB000 0x0020).map (fun t => t.g[0]) = some 0 ∧ (stepWords s 0xB000 0x0009).map (fun t => t.g[0]) = some 0 ∧
    (stepWords s 0xB000 0x0108).map (fun t => t.g[0]) = some 0 ∧
    (stepWords (s.setFlags 0x00) 0xB000 0x0008).map (fun t => (t.g[0], t.pend[13], t.env.ioTrace)) =
      some (0x9999, true, []) := by decide

/-- IN of a bound slot gives the drawn value, whatever it is, also in user mode with I, or with the check off. -/
theorem test_in_bound :
    let off := { base.setFlags 0x00 with cfg := { Config.default with ioPrivCheck := false } }
    (stepWords base 0xB000 0x0008).map (fun t => t.g[0]) = some ((Config.serialByte 0).setWidth 16) ∧
    (stepWords (base.setFlags 0x20) 0xB000 0x0000).map (fun t => t.g[0]) = some (Config.deviceWord .timer0Counter 0) ∧
    (stepWords off 0xB000 0x000A).map (fun t => t.g[0]) = some (Config.deviceWord .serialStatus 0) := by
  refine ⟨rfl, rfl, rfl⟩

theorem test_out :
    (stepWords (base.setG 1 0x0041) 0xB810 0x0008).map (fun t => (t.env.ioTrace, t.pc)) =
      some ([.write 0x0008 .serialSend 0x0041], 0x0104) ∧
    (stepWords (base.setFlags 0x00) 0xB810 0x0008).map (fun t => (t.env.ioTrace, t.pend[13])) = some ([], true) := by decide

/-- A write of the buffer-address slot sets the address sectors go to, a write of another storage slot does not (R88). -/
theorem test_storageBuffer :
    (base.recordWrite 0x0012 .storageBufferAddress 0x4000).env.storageBuffer = 0x4000 ∧
    (base.recordWrite 0x0014 .storageSectorHigh 0x4000).env.storageBuffer = 0 := by decide

/-- OUT to the detach address (section 2.8). -/
theorem test_out_detach :
    let s := { withWords base [(0xE000, 0x1234), (0xFFFE, 0x5678), (0xDFFE, 0x9ABC)] with
      iplMode := true, cfg := { Config.default with iplDetach := some 0x00FE } }
    (stepWords s 0xB800 0x00FE).map (fun t => (t.iplMode, t.readWord 0xE000, t.readWord 0xFFFE, t.readWord 0xDFFE)) =
      some (false, 0, 0, 0x9ABC) := by decide

theorem test_svc : (stepWords (base.setPc 0x0200) 0xF000 0).map (fun t => (t.pend[15], t.pc)) = some (true, 0x0202) := by decide

theorem test_halt :
    (stepWords (base.setPc 0x0300) 0xFF00 0).map (fun t => (t.halted, t.pc)) = some (true, 0x0302) ∧
    (stepWords ((base.setPc 0x0300).setFlags 0x00) 0xFF00 0).map (fun t => (t.halted, t.pc, t.pend[13])) =
      some (false, 0x0302, true) := by decide

theorem test_undefined :
    (stepWords (base.setPc 0x0400) 0x6800 0x1234).map (fun t => (t.pend[14], t.pc)) = some (true, 0x0404) ∧
    (stepWords (base.setPc 0x0400) 0xC110 0).map (fun t => (t.pend[14], t.pc, t.ssp)) = some (true, 0x0402, 0) := by decide

theorem test_nop : (stepWords base 0x07FF 0).map (fun t => (t.pc, t.flags)) = some (0x0102, 0x40) := by decide

/-! ### Entry and the interrupt check (section 2.9) -/

/-- The setup of section 2.9 with some flags and pending slots: each vector read there holds 0x1000 + 0x10 n. -/
def entryState (flags : Byte) (pending : List IntrNum) : State :=
  let s := withWords { base with flags := flags, ssp := 0x8000, usp := 0x5000 } [(0xFFE0, 0x1000), (0xFFE2, 0x1010),
    (0xFFE4, 0x1020), (0xFFF8, 0x10C0), (0xFFFA, 0x10D0), (0xFFFC, 0x10E0), (0xFFFE, 0x10F0)]
  pending.foldl State.raise s

/-- One row of section 2.9: pc, flags, pending slots and frame after the cycle. -/
def entryRow (flags : Byte) (pending : List IntrNum) (pc : Word) (flags' : Byte) (left : List IntrNum) (f0 f1 : Word) : Bool :=
  match step (entryState flags pending) with
  | .next t => t.pc == pc && t.flags == flags' && State.slots.all (fun n => t.pend[n.val] == left.contains n)
      && t.readWord 0x7FFC == f0 && t.readWord 0x7FFE == f1 && t.usp == 0x5000
  | .fault _ => false
  | .refused _ => false

theorem test_entry_exceptionFirst : entryRow 0xC0 [3, 12] 0x10C2 0x40 [3] 0x0100 0x00C0 = true := by decide
theorem test_entry_masked : entryRow 0x40 [3] 0x0102 0x40 [3] 0 0 = true := by decide
theorem test_entry_exceptionUnmasked : entryRow 0x40 [3, 15] 0x10F2 0x40 [3] 0x0100 0x0040 = true := by decide
theorem test_entry_ordinaryOrder : entryRow 0xC0 [2, 5] 0x1022 0x40 [5] 0x0100 0x00C0 = true := by decide
theorem test_entry_exceptionOrder : entryRow 0xC0 [13, 15] 0x10D2 0x40 [15] 0x0100 0x00C0 = true := by decide
theorem test_entry_keepsLowFlags : entryRow 0x8F [0] 0x1002 0x4F [] 0x0100 0x008F = true := by decide
theorem test_entry_userMode : entryRow 0x00 [14] 0x10E2 0x40 [] 0x0100 0x0000 = true := by decide
theorem test_entry_userInterrupt : entryRow 0x80 [1] 0x1012 0x40 [] 0x0100 0x0080 = true := by decide

/-- A device request that arrives before the cycle is taken in it when E is set, and stays pending when it is not. -/
theorem test_arrival :
    step { entryState 0xC0 [] with env := { base.env with arrivals := [[2], [1]] } } =
      .next { (entryState 0xC0 []).enter 2 with pc := 0x1022, env := { base.env with arrivals := [[1]] } } ∧
    (entryState 0x40 []).takeArrivals = entryState 0x40 [] ∧
    ((entryState 0x40 []).deviceRequest 3).pend[3] = true ∧ ((entryState 0x40 []).deviceRequest 12).pend[12] = false :=
  ⟨rfl, by decide⟩

/-! ### Reset, halt, the edge of the address space -/

theorem test_reset :
    State.reset.pc = 0xE000 ∧ State.reset.flags = 0x40 ∧ State.reset.iplMode = true ∧ State.reset.halted = false ∧
    (State.reset.performReset = State.reset) := by decide

/-- The image of a machine lies high byte first from 0xE000 on, and an ST there is dropped (program P4). -/
theorem test_reset_image :
    let s := { State.reset with cfg := { Config.default with iplImage := [0x0AD0, 0x8000] } }.performReset
    s.readWord 0xE000 = 0x0AD0 ∧ s.readWord 0xE002 = 0x8000 ∧ s.readWord 0xE004 = 0 ∧
    (match step s with | .next t => t.ssp == 0x8000 && t.pc == 0xE004 | .fault _ => false | .refused _ => false) = true := by
  decide

theorem test_halted_core : step (base.setHalted true) = .fault .halted := rfl

/-- An advance past 0xFFFF wraps, or stops when `PC_OVERFLOW` is `fault` (R35). -/
theorem test_pcOverflow :
    (stepWords (base.setPc 0xFFFE) 0x0000 0).map State.pc = some 0x0000 ∧
    (stepWords { base.setPc 0xFFFC with cfg := { Config.default with pcOverflow := .fault } } 0x0000 0).map State.pc =
      some 0xFFFE ∧
    step { base.setPc 0xFFFE with cfg := { Config.default with pcOverflow := .fault } } = .fault .pcOverflow :=
  ⟨by decide, by decide, rfl⟩

/-! ### Witnesses: concrete states and operands that meet the hypotheses of the obligations, clause by clause -/

theorem witness_DecodeEncodeRoundTrip :
    (Instr.ld .flag (.fpRel (-16))).wellFormed = true ∧ (Instr.undefOp29 .usp (.shortImm 7)).wellFormed = true ∧
    Instr.halt.wellFormed = true := by decide

theorem witness_IgnoredFieldsDoNotMatter :
    (opField 0x0000 = opField 0x07FF ∧ opField 0x0000 = 0) ∧ (opField 0xFF00 = opField 0xF8FF ∧ opField 0xFF00 = 31) ∧
    (opField 0xC410 = opField 0xC41F ∧ opField 0xC410 = 24 ∧ modeField 0xC410 = 4 ∧ modeField 0xC410 = modeField 0xC41F ∧
      rdField 0xC410 = rdField 0xC41F) ∧
    (opField 0xD000 = opField 0xD0FF ∧ opField 0xD000 = 26 ∧ modeField 0xD000 = 0 ∧ modeField 0xD000 = modeField 0xD0FF) ∧
    (opField 0xA8F1 = opField 0xA801 ∧ opField 0xA8F1 = 21 ∧ modeField 0xA8F1 = modeField 0xA801 ∧
      rxField 0xA8F1 = rxField 0xA801) ∧
    (opField 0x0A1F = opField 0x0A10 ∧ opField 0x0A1F ≠ 24 ∧ opField 0x0A1F ≠ 26 ∧ modeField 0x0A1F = 2 ∧
      modeField 0x0A1F = modeField 0x0A10 ∧ rdField 0x0A1F = rdField 0x0A10) := by decide

theorem witness_UndefinedOperationsRaise :
    (opField 0xEF00).toNat ∈ [13, 14, 15, 25, 27, 28, 29] ∧ ((opField 0xA0E0).toNat = 20 ∧ (rdField 0xA0E0).toNat = 14) ∧
    ((opField 0xC700).toNat = 24 ∧ (modeField 0xC700).toNat ≠ 0 ∧ (modeField 0xC700).toNat ≠ 4) ∧
    ((opField 0xD100).toNat = 26 ∧ (modeField 0xD100).toNat ≠ 0 ∧ (modeField 0xD100).toNat ≠ 4) := by decide

/-- A state whose bytes at pc are a one-word instruction just below the end of the space, with pc overflow a fault. -/
def edgeState (pc : Word) (policy : PcOverflow) : State :=
  { base with pc := pc, cfg := { Config.default with pcOverflow := policy } }

theorem witness_StepRunsDecodedInstruction :
    let t := (edgeState 0xFFFC .fault).takeArrivals.interruptCheck
    let u := (edgeState 0xFFFE .wrap).takeArrivals.interruptCheck
    (edgeState 0xFFFC .fault).halted = false ∧
    decode [t.readByte t.pc, t.readByte (t.pc + 1), t.readByte (t.pc + 2), t.readByte (t.pc + 3)] = .ok (.nop, [0, 0]) ∧
    t.pc.toNat + (4 - 2) < 0x10000 ∧
    decode [u.readByte u.pc, u.readByte (u.pc + 1), u.readByte (u.pc + 2), u.readByte (u.pc + 3)] = .ok (.nop, [0, 0]) ∧
    u.cfg.pcOverflow = .wrap := by decide

theorem witness_HaltedOrOverflowingStepStops :
    let t := (edgeState 0xFFFE .fault).takeArrivals.interruptCheck
    (base.setHalted true).halted = true ∧ (edgeState 0xFFFE .fault).halted = false ∧
    decode [t.readByte t.pc, t.readByte (t.pc + 1), t.readByte (t.pc + 2), t.readByte (t.pc + 3)] = .ok (.nop, [0, 0]) ∧
    t.cfg.pcOverflow = .fault ∧ 0x10000 ≤ t.pc.toNat + (4 - 2) := by decide

theorem witness_RunningCoreHasNextState : State.reset.halted = false ∧ State.reset.cfg.pcOverflow = .wrap := by decide

theorem witness_ResetLoadsImageAndStartsPrivileged :
    let s := { base with cfg := { Config.default with iplImage := [0x1234, 0xA0F4] } }
    (0 < 4096 ∧ s.cfg.iplImage[0]? = some 0x1234) ∧ (1 < 4096 ∧ s.cfg.iplImage[1]? = some 0xA0F4) ∧
    ({ base with cfg := { Config.default with iplImage := List.replicate 4096 7 } }).cfg.iplImage[4095]? = some 7 := by
  refine ⟨by decide, by decide, ?_⟩
  show (List.replicate 4096 (7 : Word))[4095]? = some 7
  rw [List.getElem?_replicate, if_pos (by decide)]

theorem witness_SpecialRegisterIndices : base.flag .p = true ∧ (base.setFlags 0x8F).flag .p = false := by decide

theorem witness_BankSwitchIsImmediate : base.flag .p = true ∧ (0xBF : Byte).getLsbD 6 = false := by decide

theorem witness_RegisterWriteFrame :
    (Reg.g 11 ≠ .flag ∧ Reg.g 0 ≠ .g 11 ∧ ¬(base.flag .p = false ∧ (Reg.g 11 = .sp ∨ Reg.g 11 = .usp) ∧
      (Reg.g 0 = .sp ∨ Reg.g 0 = .usp))) ∧
    ((base.setFlags 0x00).flag .p = false ∧ (Reg.sp = .sp ∨ Reg.sp = .usp) ∧ (Reg.usp = .sp ∨ Reg.usp = .usp)) := by decide

/-- A word across the overlay's lower edge and one across the end of memory, protected and not. -/
theorem witness_WordAccessIsBigEndian :
    (0x0000 : Word).toNat = ((0xFFFF : Word).toNat + 1) % 0x10000 ∧ (0xE000 : Word).toNat = ((0xDFFF : Word).toNat + 1) % 0x10000 ∧
    ¬(State.reset.iplMode = true ∧ 0xE000 ≤ (0xDFFF : Word).toNat) ∧ (State.reset.iplMode = true ∧ 0xE000 ≤ (0xE000 : Word).toNat) ∧
    (State.reset.iplMode = true ∧ 0xE000 ≤ (0xFFFF : Word).toNat) ∧ ¬(State.reset.iplMode = true ∧ 0xE000 ≤ (0x0000 : Word).toNat) ∧
    ¬(base.iplMode = true ∧ 0xE000 ≤ (0xFFFF : Word).toNat) ∧ ((0x0001 : Word) ≠ 0xFFFF ∧ (0x0001 : Word) ≠ 0x0000) := by decide

/-- The overlay's edge: 0xE000 is protected, 0xDFFF is not, and nothing is once the image is detached. -/
theorem witness_StoreUnderOverlay :
    (State.reset.iplMode = true ∧ 0xE000 ≤ (0xE000 : Word).toNat) ∧
    ¬(State.reset.iplMode = true ∧ 0xE000 ≤ (0xDFFF : Word).toNat) ∧ ¬(base.iplMode = true ∧ 0xE000 ≤ (0xFFFF : Word).toNat) ∧
    (0x0001 : Word) ≠ 0xFFFF := by decide

theorem witness_DetachZeroesWindow : 0xE000 ≤ (0xE000 : Word).toNat ∧ (0xDFFF : Word).toNat < 0xE000 := by decide

theorem witness_OperandAddressing : ((-8 : Int) ≤ -8 ∧ (-8 : Int) ≤ 7) ∧ ((-8 : Int) ≤ 7 ∧ (7 : Int) ≤ 7) := by decide

theorem witness_TargetWithoutAddress :
    (Operand.immediate 1).mode = 2 ∧ (Operand.register .sp).mode = 4 ∧ (Operand.shortImm (-1)).mode = 5 ∧
    ({ base with cfg := { Config.default with noEaPolicy := .undefinedTrap } } : State).cfg.noEaPolicy = .undefinedTrap := by
  decide

/-- A target that executes by its mode under `undefined_trap`, and one that executes by the policy. -/
theorem witness_SimpleJumps :
    ({ base with cfg := { Config.default with noEaPolicy := .undefinedTrap } } : State).TargetExecutes (.byteIndirect .fp) ∧
    base.TargetExecutes (.immediate 1) := ⟨.inr (by decide), .inl rfl⟩

theorem witness_CompoundJumps : base.TargetExecutes (.direct 0x0200) := .inl rfl

theorem witness_CallAndRet :
    base.TargetExecutes (.direct 0x0200) ∧ (0xFFFE : Word) = (base.setSsp 0x0000).readReg .sp - 2 := ⟨.inl rfl, by decide⟩

theorem witness_PushAndPop : (0xFFFE : Word) = (base.setSsp 0x0000).readReg .sp - 2 := by decide

theorem witness_StStoresRegister :
    base.TargetExecutes (.register (.g 0)) ∧ (Operand.register (.g 0)).mode ≠ 7 ∧
    (∃ t, exec (.st (.g 0) (.direct 0xFFFF)) base = .next t) ∧ (Operand.byteIndirect (.g 0)).mode = 7 ∧
    ((0x0001 : Word) ≠ 0xFFFF ∧ (0x0001 : Word) ≠ 0xFFFF + 1) :=
  ⟨.inl rfl, by decide, ⟨_, rfl⟩, rfl, by decide⟩

theorem witness_AddComputes :
    (0x8000 : Word) = (base.setG 0 0x8000).readReg (.g 0) ∧ (0xFFFF : Word) = base.loadOperand (.shortImm (-1)) ∧
    (0x7FFF : Word) = 0x8000 + 0xFFFF := by decide

theorem witness_SubAndCmpCompute :
    (0x8000 : Word) = (base.setG 0 0x8000).readReg (.g 0) ∧ (0x0001 : Word) = base.loadOperand (.shortImm 1) ∧
    (0x7FFF : Word) = 0x8000 - 0x0001 ∧
    true = ((if base.cfg.subVRule = .standard then (0x8000 : Word).getLsbD 15 != (0x0001 : Word).getLsbD 15
      else (0x8000 : Word).getLsbD 15 == (0x0001 : Word).getLsbD 15) && (0x7FFF : Word).getLsbD 15 != (0x8000 : Word).getLsbD 15) := by
  decide

theorem witness_LogicComputes :
    (0x8000 : Word) = (base.setG 0 0x8000).readReg (.g 0) ∧ (0xFFFF : Word) = base.loadOperand (.shortImm (-1)) := by decide

theorem witness_AddsAndMulCompute :
    (0x8000 : Word) = (base.setG 0 0x8000).readReg (.g 0) ∧ (0xFFFF : Word) = base.loadOperand (.shortImm (-1)) ∧
    (0x7FFE : Word).toNat = ((0x8000 : Word).toNat + (0xFFFF : Word).toNat * 2) % 0x10000 ∧
    (0x8000 : Word).toNat = (0x8000 : Word).toNat * (0xFFFF : Word).toNat % 0x10000 := by decide

theorem witness_DivAndModCompute :
    (0x0002 : Word) ≠ 0 ∧ (0x7FFF : Word).toNat = (0xFFFF : Word).toNat / (0x0002 : Word).toNat ∧
    (0x0001 : Word).toNat = (0xFFFF : Word).toNat % (0x0002 : Word).toNat ∧
    (0xFFFF : Word) = (base.setG 0 0xFFFF).readReg (.g 0) ∧ (0x0002 : Word) = base.loadOperand (.immediate 2) ∧
    (0x0000 : Word) = base.loadOperand (.shortImm 0) := by decide

theorem witness_LeftShiftsCompute :
    (0x8001 : Word) = (base.setG 0 0x8001).readReg (.g 0) ∧ (0x0011 : Word) = base.loadOperand (.immediate 0x11) ∧
    (0x0002 : Word).toNat = (0x8001 : Word).toNat * 2 ^ ((0x0011 : Word).toNat % 16) % 0x10000 := by decide

theorem witness_RightShiftsCompute :
    (0xC000 : Word).toInt = (0x8001 : Word).toInt / 2 ^ ((0x0011 : Word).toNat % 16) ∧
    (0x4000 : Word).toNat = (0x8001 : Word).toNat / 2 ^ ((0x0011 : Word).toNat % 16) ∧
    (0x8001 : Word) = (base.setG 0 0x8001).readReg (.g 0) ∧ (0x0011 : Word) = base.loadOperand (.immediate 0x11) := by decide

theorem witness_AluOnFlagByte :
    (AluOp.add, Instr.add .flag (.immediate 0x81)) ∈ [(AluOp.add, Instr.add .flag (.immediate 0x81))] ∧
    (0x00C1 : Word) = trunc16 (aluResult .add (base.flags.setWidth 16) (base.loadOperand (.immediate 0x81))) ∧
    base.flag .p = true ∧ (base.setFlags 0x00).flag .p = false := by decide

theorem witness_OverflowIsSigned :
    (0x8000 : Word) = (base.setG 0 0x8000).readReg (.g 0) ∧ (0x0001 : Word) = (base.setG 0 0x8000).loadOperand (.shortImm 1) ∧
    Reg.g 0 ≠ .flag ∧ base.cfg.subVRule = .standard ∧ (∃ t, exec (.add (.g 0) (.shortImm 1)) (base.setG 0 0x8000) = .next t) ∧
    (∃ u, exec (.sub (.g 0) (.shortImm 1)) (base.setG 0 0x8000) = .next u) ∧
    ∃ w, exec (.cmp (.g 0) (.shortImm 1)) (base.setG 0 0x8000) = .next w :=
  ⟨by decide, by decide, by decide, rfl, ⟨_, rfl⟩, ⟨_, rfl⟩, ⟨_, rfl⟩⟩

theorem witness_RegisterInstructionFrame :
    (∃ t, exec (.div (.g 0) (.shortImm 0)) base = .next t ∧ t.pend[12] ≠ base.pend[12]) ∧
    (∃ t, exec (.ld .sp (.shortImm 1)) (base.setFlags 0x00) = .next t) ∧ Reg.g 0 ≠ .g 11 ∧ Reg.sp ≠ .usp :=
  ⟨⟨_, rfl, by decide⟩, ⟨_, rfl⟩, by decide, by decide⟩

theorem witness_JumpsAfterCompare :
    (0xFFFF : Word) = (base.setG 0 0xFFFF).readReg (.g 0) ∧ (0x0001 : Word) = (base.setG 0 0xFFFF).loadOperand (.shortImm 1) ∧
    base.cfg.subVRule = .standard ∧ base.TargetExecutes (.direct 0x0200) ∧
    ∃ t, exec (.cmp (.g 0) (.shortImm 1)) (base.setG 0 0xFFFF) = .next t :=
  ⟨by decide, by decide, rfl, .inl rfl, ⟨_, rfl⟩⟩

theorem witness_RetiPopsPcAndFlags :
    let s := withWords (base.setSsp 0x7FFC) [(0x7FFC, 0x0200), (0x7FFE, 0x0085)]
    (0x85 : Byte) = (s.readWord (s.readReg .sp + 2)).extractLsb' 0 8 ∧ s.flag .p = true ∧ (s.setFlags 0x0F).flag .p = false := by
  decide

/-- A push that the overlay does not drop: just below the window, and anywhere after the detach. -/
theorem witness_RetUndoesCall :
    let s := (base.setSsp 0xE000).setIplMode true
    s.TargetExecutes (.direct 0x0300) ∧ (0xDFFE : Word) = s.readReg .sp - 2 ∧
    (s.iplMode = false ∨ ((0xDFFE : Word).toNat < 0xE000 ∧ ((0xDFFE : Word) + 1).toNat < 0xE000)) ∧
    ∃ t, exec (.call (.direct 0x0300)) s = .next t :=
  ⟨.inl rfl, by decide, by decide, ⟨_, rfl⟩⟩

theorem witness_PopUndoesPush :
    let s := base.setSsp 0x0000
    (0xFFFE : Word) = s.readReg .sp - 2 ∧ Reg.usp ≠ .sp ∧ Reg.usp ≠ .flag ∧ ¬(s.flag .p = false ∧ Reg.usp = .usp) ∧
    s.iplMode = false ∧ ∃ t, exec (.push .flag) s = .next t :=
  ⟨by decide, by decide, by decide, by decide, rfl, ⟨_, rfl⟩⟩

theorem witness_StackInstructionFrame :
    (∃ t, exec (.push .sp) (base.setSsp 0x8000) = .next t) ∧ (∃ t, exec (.call (.immediate 1)) base = .next t) ∧
    (∃ t, exec (.pop .usp) (base.setFlags 0x00) = .next t) ∧ (∃ t, exec .reti base = .next t) ∧
    (0x7FFE : Word) = (base.setSsp 0x8000).readReg .sp - 2 ∧ (0x8000 : Word) ≠ 0x7FFE ∧ (0x8000 : Word) ≠ 0x7FFE + 1 :=
  ⟨⟨_, rfl⟩, ⟨_, rfl⟩, ⟨_, rfl⟩, ⟨_, rfl⟩, by decide⟩

/-- IN: an odd address, an address at 0x100, a slot without a read operation, and a bound slot, with each way to be allowed. -/
theorem witness_InReadsSlot :
    base.TargetExecutes (.direct 0x00FF) ∧ base.IoAllowed ∧ (base.setFlags 0x20).IoAllowed ∧
    (0x00FF : Word).toNat % 2 = 1 ∧ 0x100 ≤ (0x0100 : Word).toNat ∧
    (∀ r ∈ base.cfg.ioMap, r.addr = (0x0020 : Word) → r.read = none) ∧
    ((0x0008 : Word).toNat % 2 = 0 ∧ (0x0008 : Word).toNat < 0x100 ∧ (0x00FE : Word).toNat < 0x100 ∧
      base.cfg.ioMap.find? (fun r => r.addr == (0x0008 : Word)) = some ⟨0x0008, some .serialReceive, some .serialSend⟩) :=
  ⟨.inl rfl, .inr (.inl (by decide)), .inr (.inr (by decide)), by decide⟩

theorem witness_OutWritesSlot :
    base.TargetExecutes (.direct 0x0008) ∧ base.IoAllowed ∧ (∀ r ∈ base.cfg.ioMap, r.addr = (0x00FE : Word) → r.write = none) ∧
    base.cfg.ioMap.find? (fun r => r.addr == (0x00F8 : Word)) = some ⟨0x00F8, some .consoleDataSwitches, some .consoleDataLeds⟩ ∧
    State.isStorageWrite .consoleDataLeds = false ∧
    ({ base with cfg := { Config.default with iplDetach := some 0x00FE } } : State).cfg.iplDetach = some 0x00FE :=
  ⟨.inl rfl, .inr (.inl (by decide)), by decide⟩

theorem witness_OutToStorageMovesAtMostASector :
    base.TargetExecutes (.direct 0x0010) ∧ base.IoAllowed ∧
    (0x0010 : Word) = base.effAddr (.direct 0x0010) ∧ (0x0010 : Word).toNat % 2 = 0 ∧ (0x0010 : Word).toNat < 0x100 ∧
    base.cfg.ioMap.find? (fun r => r.addr == (0x0010 : Word)) = some ⟨0x0010, some .storageStatus, some .storageControl⟩ ∧
    State.isStorageWrite .storageControl = true ∧
    base.env.storageBuffer = (if DeviceWrite.storageControl = .storageBufferAddress then base.readReg (.g 0) else base.env.storageBuffer) :=
  ⟨.inl rfl, .inr (.inl (by decide)), by decide⟩

theorem witness_IoWithoutPrivilegeRaises :
    (base.setFlags 0x00).TargetExecutes (.direct 0x0008) ∧ (base.setFlags 0x00).cfg.ioPrivCheck = true ∧
    (base.setFlags 0x00).flag .p = false ∧ (base.setFlags 0x00).flag .i = false := ⟨.inl rfl, by decide⟩

theorem witness_SvcAndHalt : base.flag .p = true ∧ (base.setFlags 0xBF).flag .p = false := by decide

/-- The check returns an exception slot, an ordinary slot, or none. -/
theorem witness_InterruptPriority :
    ((entryState 0xC0 [3, 15]).checkIntrNum.1 = some 15 ∧ base.cfg.excFirst ≤ 15) ∧
    ((entryState 0xC0 [2, 5]).checkIntrNum.1 = some 2 ∧ 2 < base.cfg.excFirst) ∧
    (entryState 0xC0 []).checkIntrNum.1 = none ∧ base.cfg.excFirst ≤ (11 : IntrNum) ∧ (10 : IntrNum) < base.cfg.excFirst := by
  decide

theorem witness_InterruptCheckMasksOrdinarySlots :
    ((entryState 0x40 [10]).flag .e = false ∧ ∀ k : IntrNum, base.cfg.excFirst ≤ k → (entryState 0x40 [10]).pend[k.val] = false) ∧
    ((entryState 0x40 [11]).pend[11] = true ∧ (entryState 0x40 [11]).checkIntrNum.1 = some 11) ∧
    ((entryState 0x40 [10, 15]).flag .e = false ∧ base.cfg.excFirst ≤ (15 : IntrNum) ∧ (entryState 0x40 [10, 15]).pend[15] = true ∧
      (10 : IntrNum) < base.cfg.excFirst) ∧
    ((entryState 0xC0 [10]).flag .e = true ∧ (entryState 0xC0 [10]).checkIntrNum.1 = some 10) ∧
    (entryState 0xC0 []).checkIntrNum.1 = none := by decide

theorem witness_RaiseSetsOneSlot : (15 : IntrNum) ≠ 0 ∧ (entryState 0x40 [15]).pend[(15 : IntrNum).val] = true := by decide

theorem witness_EntrySavesFlagsAndPc :
    (0xDFFC : Word) = ((base.setSsp 0xE000).setIplMode true).ssp - 4 ∧
    ((0xDFFC : Word).toNat < 0xE000 ∧ ((0xDFFC : Word) + 1).toNat < 0xE000 ∧ ((0xDFFC : Word) + 2).toNat < 0xE000 ∧
      ((0xDFFC : Word) + 3).toNat < 0xE000) ∧ base.iplMode = false ∧
    ((0xE000 : Word) ≠ 0xDFFC ∧ (0xE000 : Word) ≠ 0xDFFC + 1 ∧ (0xE000 : Word) ≠ 0xDFFC + 2 ∧ (0xE000 : Word) ≠ 0xDFFC + 3) := by
  decide

theorem witness_RetiUndoesEntry :
    (0xDFFC : Word) = ((base.setSsp 0xE000).setIplMode true).ssp - 4 ∧ ((base.setSsp 0xE000).setIplMode true).iplMode = true ∧
    ((0xDFFC : Word).toNat < 0xE000 ∧ ((0xDFFC : Word) + 1).toNat < 0xE000 ∧ ((0xDFFC : Word) + 2).toNat < 0xE000 ∧
      ((0xDFFC : Word) + 3).toNat < 0xE000) ∧ (0xFFFE : Word) = (base.setSsp 0x0002).ssp - 4 ∧ base.iplMode = false := by
  decide

theorem witness_DeviceRequestsSetOrdinarySlots :
    (10 : IntrNum) < base.cfg.excFirst ∧ base.cfg.excFirst ≤ (11 : IntrNum) := by decide

theorem witness_InstructionsOnlySetExceptionSlots :
    ∃ t, exec .svc base = .next t ∧ t.pend[(15 : IntrNum).val] ≠ base.pend[(15 : IntrNum).val] := ⟨_, rfl, by decide⟩

theorem reset_windowHoldsImage : State.reset.windowHoldsImage := by
  intro _ a _ _
  show (0 : Byte) = _
  unfold Config.imageByte
  rw [show State.reset.cfg.iplImage.getD ((a - Memory.windowBase) / 2) 0 = 0 from rfl]
  split <;> rfl

theorem witness_StepKeepsMemoryCanonical :
    State.reset.mem.wf = true ∧ (entryState 0x40 [15]).mem.wf = true ∧ isNext (step (entryState 0x40 [15])) = true := by decide

theorem witness_StepKeepsBootWindow : State.reset.windowHoldsImage ∧ isNext (step State.reset) = true :=
  ⟨reset_windowHoldsImage, by decide⟩

theorem witness_StepKeepsOneException :
    (entryState 0x40 [3, 15]).pendingExceptions = 1 ∧ isNext (step (entryState 0x40 [3, 15])) = true := by decide

theorem witness_ReachableStatesSatisfyInvariant :
    Reachable State.reset.performReset ∧ State.reset.Inv ∧ isNext (step State.reset) = true :=
  ⟨.reset _ (by decide) (by decide), ⟨by decide, by decide, by decide, reset_windowHoldsImage⟩, by decide⟩

/-- A step that changes the overlay. -/
theorem witness_StepKeepsConfiguration :
    let s := { State.reset with cfg := { Config.default with iplDetach := some 0x00FE } }
    (stepWords s 0xB800 0x00FE).map State.iplMode = some false ∧ s.iplMode = true := by decide

/-- User mode: an instruction runs, and a step becomes privileged through entry. -/
theorem witness_UserModeCannotGainPrivilege :
    ((base.setFlags 0x00).flag .p = false ∧ ∃ t, exec .reti (base.setFlags 0x00) = .next t) ∧
    ((entryState 0x00 [14]).flag .p = false ∧
      (match step (entryState 0x00 [14]) with | .next t => t.flag .p | .fault _ => false | .refused _ => false) = true) :=
  ⟨⟨by decide, ⟨_, rfl⟩⟩, by decide⟩

theorem witness_OtherInstructionsKeepFlags :
    (∃ t, exec (.ld .flag (.immediate 0x00FF)) base = .next t ∧ t.flags ≠ base.flags) ∧
    ∃ t, exec (.cmp (.g 0) (.shortImm 0)) base = .next t ∧ t.flags ≠ base.flags :=
  ⟨⟨_, rfl, by decide⟩, ⟨_, rfl, by decide⟩⟩

/-- Every way a call ends but a refusal, which no step gives; a halted core ends halted whatever the budget. -/
theorem witness_RunLoopOnlyCountsSteps :
    (runLoop 1 ⟨none, some 0x0200, false⟩ base).1 = .yielded ∧ (runLoop 1 ⟨none, some 0x0102, false⟩ base).1 = .breakpoint ∧
    (runLoop 1 ⟨some 1, none, false⟩ base).1 = .stopped ∧ (runLoop 1 ⟨none, none, true⟩ base).1 = .stepped ∧
    (runLoop 0 ⟨none, none, false⟩ (base.setHalted true)).1 = .halted ∧
    (runLoop 0 ⟨none, none, false⟩ (edgeState 0xFFFE .fault)).1 = .faulted .pcOverflow := by decide

end Sys2Proof.Tests
end

section
/-! PROOFS of the family 10_state.md: registers, the flag byte, reset, and what a step keeps of them. -/

namespace Sys2Proof.Machine

open Sys2Proof

/-! ### The instructions in groups of one effect -/

/-- The instruction of an ALU operation. -/
def aluInstr (op : AluOp) (rd : Reg) (src : Operand) : Instr :=
  match op with
  | .add => .add rd src
  | .sub => .sub rd src
  | .cmp => .cmp rd src
  | .and => .and rd src
  | .or => .or rd src
  | .xor => .xor rd src
  | .adds => .adds rd src
  | .mul => .mul rd src
  | .div => .div rd src
  | .mod => .mod rd src
  | .shla => .shla rd src
  | .shll => .shll rd src
  | .shra => .shra rd src
  | .shrl => .shrl rd src

theorem exec_aluInstr (op : AluOp) (rd : Reg) (src : Operand) (s : State) :
    exec (aluInstr op rd src) s = .next (aluEffect op rd src s) := by
  cases op <;> rfl

/-- The groups: the ALU operations, the jumps and the undefined rows share one effect each, and every other instruction has
its own. -/
inductive InstrGroup : Instr → Prop
  | alu (op : AluOp) (rd : Reg) (src : Operand) : InstrGroup (aluInstr op rd src)
  | jump (i : Instr) (dst : Operand) (h : ∀ s, ∃ taken, exec i s = .next (jumpEffect taken dst s)) : InstrGroup i
  | undefined (i : Instr) (h : ∀ s, exec i s = .next (undefinedEffect s)) : InstrGroup i
  | nop : InstrGroup .nop
  | ld (rd : Reg) (src : Operand) : InstrGroup (.ld rd src)
  | st (rd : Reg) (dst : Operand) : InstrGroup (.st rd dst)
  | call (dst : Operand) : InstrGroup (.call dst)
  | ioIn (rd : Reg) (port : Operand) : InstrGroup (.ioIn rd port)
  | ioOut (rd : Reg) (port : Operand) : InstrGroup (.ioOut rd port)
  | push (rd : Reg) : InstrGroup (.push rd)
  | pop (rd : Reg) : InstrGroup (.pop rd)
  | ret : InstrGroup .ret
  | reti : InstrGroup .reti
  | svc : InstrGroup .svc
  | halt : InstrGroup .halt

theorem instrGroup (i : Instr) : InstrGroup i := by
  cases i
  case add rd src => exact .alu .add rd src
  case sub rd src => exact .alu .sub rd src
  case cmp rd src => exact .alu .cmp rd src
  case and rd src => exact .alu .and rd src
  case or rd src => exact .alu .or rd src
  case xor rd src => exact .alu .xor rd src
  case adds rd src => exact .alu .adds rd src
  case mul rd src => exact .alu .mul rd src
  case div rd src => exact .alu .div rd src
  case mod rd src => exact .alu .mod rd src
  case shla rd src => exact .alu .shla rd src
  case shll rd src => exact .alu .shll rd src
  case shra rd src => exact .alu .shra rd src
  case shrl rd src => exact .alu .shrl rd src
  case nop => exact .nop
  case ld rd src => exact .ld rd src
  case st rd dst => exact .st rd dst
  case call dst => exact .call dst
  case ioIn rd port => exact .ioIn rd port
  case ioOut rd port => exact .ioOut rd port
  case push rd => exact .push rd
  case pop rd => exact .pop rd
  case ret => exact .ret
  case reti => exact .reti
  case svc => exact .svc
  case halt => exact .halt
  case jz dst | jc dst | jm dst | jo dst | jgt dst | jge dst | jle dst | jlt dst | jnz dst | jnc dst | jnm dst | jno dst |
      jhi dst | jls dst | jmp dst => exact .jump _ dst fun _ => ⟨_, rfl⟩
  all_goals exact .undefined _ fun _ => rfl

/-! ### Frames of the effects: flags and overlay -/

namespace State

variable (s : State)

@[simp] theorem writeFlags_flags (b : Byte) : (s.writeFlags b).flags = maskedFlags s.flags b := rfl

@[simp] theorem returnFromTrap_iplMode : s.returnFromTrap.iplMode = s.iplMode := by simp [returnFromTrap, writeFlags]

/-- A field an exception leaves alone is kept by an operation on a target, when the operation keeps it (40_cycle.md
R140). -/
theorem withTarget_keeps {α : Type} (field : State → α) (o : Operand) (f : Word → State → State)
    (hr : field (s.raise s.cfg.intrUndef) = field s) (hf : field (f (s.effAddr o) s) = field s) :
    field (s.withTarget o f) = field s := by
  rcases s.withTarget_cases o f with ⟨-, h⟩ | ⟨-, h⟩ <;> rw [h]
  · exact hf
  · exact hr

/-- What decides whether an operation on a target executes, said in the terms of the policy and the mode number (R140). -/
theorem targetExecutes_of_targetAllowed {o : Operand} (h : s.targetAllowed o = true) : s.TargetExecutes o := by
  unfold targetAllowed at h
  split at h
  · next hl => exact .inl hl
  · refine .inr ?_
    cases o <;> simp [hasEffAddr, Operand.mode] at h ⊢

/-- IN and OUT run where they are not refused (45_system_io.md R290, R291). -/
theorem ioAllowed_of_not_ioForbidden (h : ¬ s.ioForbidden = true) : s.IoAllowed := by
  unfold IoAllowed
  cases hc : s.cfg.ioPrivCheck <;> cases hp : s.flag .p <;> cases hi : s.flag .i <;> simp_all [ioForbidden]

@[simp] theorem ioRead_flags (a : Word) : (s.ioRead a).2.flags = s.flags := by unfold ioRead; split <;> rfl

@[simp] theorem ioRead_iplMode (a : Word) : (s.ioRead a).2.iplMode = s.iplMode := by unfold ioRead; split <;> rfl

@[simp] theorem sectorEffect_flags (op : DeviceWrite) : (s.sectorEffect op).flags = s.flags := by
  unfold sectorEffect
  split
  · dsimp only; split <;> simp
  · rfl

@[simp] theorem sectorEffect_iplMode (op : DeviceWrite) : (s.sectorEffect op).iplMode = s.iplMode := by
  unfold sectorEffect
  split
  · dsimp only; split <;> simp
  · rfl

@[simp] theorem deviceWrite_flags (a v : Word) : (s.deviceWrite a v).flags = s.flags := by
  unfold deviceWrite
  split
  · rw [sectorEffect_flags]; rfl
  · rfl

@[simp] theorem deviceWrite_iplMode (a v : Word) : (s.deviceWrite a v).iplMode = s.iplMode := by
  unfold deviceWrite
  split
  · rw [sectorEffect_iplMode]; rfl
  · rfl

@[simp] theorem ioWrite_flags (a v : Word) : (s.ioWrite a v).flags = s.flags := by
  unfold ioWrite
  dsimp only
  split
  · exact s.deviceWrite_flags a v
  · exact s.deviceWrite_flags a v

/-- An I/O write ends the overlay at `IPL_DETACH` and keeps it elsewhere (20_memory.md R87). -/
theorem ioWrite_iplMode (a v : Word) :
    (s.ioWrite a v).iplMode = if s.cfg.iplDetach = some a then false else s.iplMode := by
  unfold ioWrite
  split
  · rfl
  · exact s.deviceWrite_iplMode a v

end State

@[simp] theorem storeOperand_flags (rd : Reg) (dst : Operand) (ea : Word) (s : State) :
    (storeOperand rd dst ea s).flags = s.flags := by
  cases dst <;> simp [storeOperand]

@[simp] theorem storeOperand_iplMode (rd : Reg) (dst : Operand) (ea : Word) (s : State) :
    (storeOperand rd dst ea s).iplMode = s.iplMode := by
  cases dst <;> simp [storeOperand]

@[simp] theorem jumpEffect_flags (taken : Bool) (dst : Operand) (s : State) :
    (jumpEffect taken dst s).flags = s.flags :=
  s.withTarget_keeps State.flags _ _ rfl (by cases taken <;> rfl)

@[simp] theorem jumpEffect_iplMode (taken : Bool) (dst : Operand) (s : State) :
    (jumpEffect taken dst s).iplMode = s.iplMode :=
  s.withTarget_keeps State.iplMode _ _ rfl (by cases taken <;> rfl)

theorem inEffect_flags (rd : Reg) (ea : Word) (s : State) (h : rd ≠ .flag) : (inEffect rd ea s).flags = s.flags := by
  unfold inEffect
  split
  · rfl
  · rw [State.writeReg_flags _ _ _ h, State.ioRead_flags]

@[simp] theorem inEffect_iplMode (rd : Reg) (ea : Word) (s : State) : (inEffect rd ea s).iplMode = s.iplMode := by
  unfold inEffect; split <;> simp

@[simp] theorem outEffect_flags (rd : Reg) (ea : Word) (s : State) : (outEffect rd ea s).flags = s.flags := by
  unfold outEffect; split <;> simp

/-- An OUT keeps the overlay, or is allowed to run, is at `IPL_DETACH`, and ends it (R87, R291). -/
theorem outEffect_iplMode (rd : Reg) (ea : Word) (s : State) : (outEffect rd ea s).iplMode = s.iplMode ∨
    ((outEffect rd ea s).iplMode = false ∧ s.IoAllowed ∧ s.cfg.iplDetach = some ea) := by
  unfold outEffect
  split
  · exact .inl rfl
  · next ha =>
    rw [State.ioWrite_iplMode]
    split
    · next hd => exact .inr ⟨rfl, s.ioAllowed_of_not_ioForbidden ha, hd⟩
    · exact .inl rfl

/-! ### User mode -/

/-- A user-mode state that agrees with `s` in everything user mode may not change (60_exceptions.md R335, R336). -/
structure ConfinedAs (s u : State) : Prop where
  user   : u.flag .p = false
  flags  : ∀ f ∈ [Flag.e, .p, .i, .reserved], u.flag f = s.flag f
  ssp    : u.ssp = s.ssp
  halted : u.halted = s.halted

/-- With P = 0 a write through the mask leaves E, P, I and the reserved bit alone (10_state.md R33). -/
theorem flagIn_maskedFlags_user {old : Byte} (new : Byte) (h : flagIn old .p = false) :
    ∀ f ∈ [Flag.e, .p, .i, .reserved], flagIn (maskedFlags old new) f = flagIn old f := by
  intro f hf
  fin_cases hf <;> simp [flagIn_maskedFlags, h]

/-- The flag update of the ALU leaves E, P, I and the reserved bit alone (42_alu.md R200). -/
theorem flagIn_withVCSZ_upper (b : Byte) (v c x z : Bool) :
    ∀ f ∈ [Flag.e, .p, .i, .reserved], flagIn (withVCSZ b v c x z) f = flagIn b f := by
  intro f hf
  fin_cases hf <;> simp [flagIn_withVCSZ]

namespace ConfinedAs

variable {s u : State}

/-- Fields a confined state depends on. -/
theorem congr {w : State} (h : ConfinedAs s u) (hf : w.flags = u.flags) (hs : w.ssp = u.ssp) (hh : w.halted = u.halted) :
    ConfinedAs s w where
  user := by rw [State.flag_def, hf]; exact h.user
  flags f hm := by rw [State.flag_def, hf]; exact h.flags f hm
  ssp := hs.trans h.ssp
  halted := hh.trans h.halted

/-- A new flag byte with the upper nibble of the old one keeps a state confined. -/
theorem setFlags (h : ConfinedAs s u) {b : Byte} (hb : ∀ f ∈ [Flag.e, .p, .i, .reserved], flagIn b f = u.flag f) :
    ConfinedAs s (u.setFlags b) where
  user := (hb .p (by simp)).trans h.user
  flags f hf := (hb f hf).trans (h.flags f hf)
  ssp := h.ssp
  halted := h.halted

theorem writeFlags (h : ConfinedAs s u) (b : Byte) : ConfinedAs s (u.writeFlags b) :=
  h.setFlags (flagIn_maskedFlags_user b h.user)

theorem writeReg (h : ConfinedAs s u) (r : Reg) (v : Word) : ConfinedAs s (u.writeReg r v) := by
  by_cases hr : r = .flag
  · subst hr; exact h.writeFlags _
  · have hs : (u.writeReg r v).ssp = u.ssp := u.writeReg_ssp_ne r v (by simp [h.user])
    exact h.congr (u.writeReg_flags r v hr) hs (u.writeReg_halted r v)

/-- Every update an instruction is made of keeps a user-mode state confined; HALT's is made in privileged mode only. -/
theorem closedUnderExec (s : State) : ClosedUnderExec (ConfinedAs s) where
  writeReg _ r v h := h.writeReg r v
  writeFlags _ b h := h.writeFlags b
  aluFlags u v c x z h := h.setFlags (flagIn_withVCSZ_upper u.flags v c x z)
  setPc _ _ h := h.congr rfl rfl rfl
  writeByte u a b h := h.congr (u.writeByte_flags a b) (u.writeByte_ssp a b) (u.writeByte_halted a b)
  raise _ _ _ h := h.congr rfl rfl rfl
  halt u hp h := by
    have hu : u.privileged = false := h.user
    simp [hu] at hp
  setEnv _ _ _ h := h.congr rfl rfl rfl
  detachIpl _ _ h := h.congr rfl rfl rfl

end ConfinedAs

/-- An instruction executed in user mode leaves the state confined (45_system_io.md R295). -/
theorem exec_confined {i : Instr} {s t : State} (ht : exec i s = .next t) (hp : s.flag .p = false) : ConfinedAs s t :=
  exec_closed (ConfinedAs.closedUnderExec s) i s t ⟨hp, fun _ _ => rfl, rfl, rfl⟩ ht

/-- Settles O58: an instruction in user mode leaves the state confined, so a step that ends privileged has entered a
handler in its interrupt check. -/
theorem userModeCannotGainPrivilege : Obligations.UserModeCannotGainPrivilege := by
  unfold Obligations.UserModeCannotGainPrivilege
  refine ⟨fun i s t ht hp => ?_, fun s t ht hp htp => ?_⟩
  · have hc := exec_confined ht hp
    exact ⟨hc.flags, hc.ssp, hc.halted⟩
  · obtain ⟨-, i, pc, -, hx⟩ := step_cases ht
    rcases s.takeArrivals.interruptCheck_cases with hk | ⟨n, hn, -, hk⟩
    · rw [hk] at hx
      have hu : (s.takeArrivals.setPc pc).flag .p = false := by simpa [State.flag_def] using hp
      simp [(exec_confined hx hu).user] at htp
    · refine ⟨n, by simp [State.checkIntrNum, hn], ?_⟩
      rw [hk]
      simp [State.checkIntrNum, hn]

/-! ### Reset -/

/-- Reset leaves the image in the boot window (20_memory.md R64). -/
theorem performReset_windowHoldsImage (s : State) : s.performReset.windowHoldsImage := by
  intro _ a ha hlt
  have hm : s.performReset.mem = s.mem.loadIpl s.cfg.iplImage := rfl
  have hc : s.performReset.cfg = s.cfg := rfl
  rw [hm, hc, Memory.read_loadIpl _ _ _ hlt, if_neg (by omega)]
  rfl

/-- While the overlay is active the window reads as the words of the image (20_memory.md R64, R68). -/
theorem readWord_of_windowHoldsImage {s : State} (h : s.windowHoldsImage) (hi : s.iplMode = true) {k : Nat}
    (hk : k < 4096) : s.readWord (0xE000 + BitVec.ofNat 16 (2 * k)) = s.cfg.iplImage.getD k 0 := by
  have h0 : ((0xE000 : Word) + BitVec.ofNat 16 (2 * k)).toNat = 0xE000 + 2 * k := by
    simp [BitVec.toNat_add]; omega
  have h1 : ((0xE000 : Word) + BitVec.ofNat 16 (2 * k) + 1).toNat = 0xE000 + 2 * k + 1 := by
    rw [BitVec.toNat_add, h0]; simp; omega
  have hhi : Config.imageByte s.cfg (0xE000 + 2 * k) = (s.cfg.iplImage.getD k 0).extractLsb' 8 8 := by
    have hd : (0xE000 + 2 * k - Memory.windowBase) = 2 * k := by simp [Memory.windowBase]
    simp [Config.imageByte, hd]
  have hlo : Config.imageByte s.cfg (0xE000 + 2 * k + 1) = (s.cfg.iplImage.getD k 0).extractLsb' 0 8 := by
    have hd : (0xE000 + 2 * k + 1 - Memory.windowBase) = 2 * k + 1 := by simp [Memory.windowBase]; omega
    have hq : (2 * k + 1) / 2 = k := by omega
    have hr : (2 * k + 1) % 2 = 1 := by omega
    simp [Config.imageByte, hd, hq, hr]
  have hb : Memory.windowBase = 0xE000 := rfl
  rw [State.readWord, State.readByte, State.readByte, h0, h1, h hi _ (by omega) (by omega), h hi _ (by omega) (by omega),
    hhi, hlo, State.wordOfBytes_extract]

/-- Settles O9: the fields reset writes, and the image words read back from the window. -/
theorem resetLoadsImageAndStartsPrivileged : Obligations.ResetLoadsImageAndStartsPrivileged := by
  unfold Obligations.ResetLoadsImageAndStartsPrivileged
  intro s
  refine ⟨rfl, rfl, rfl, rfl, fun n => by simp [State.performReset], fun k w hk hw => ?_⟩
  rw [readWord_of_windowHoldsImage (performReset_windowHoldsImage s) rfl hk]
  show s.cfg.iplImage.getD k 0 = w
  simp [List.getD_eq_getElem?_getD, hw]

/-- The all-zero image lists nothing, so a reset of the reset state changes nothing (logs 4 and 21). -/
theorem performReset_reset : State.reset.performReset = State.reset := rfl

/-- Settles O10: the window clause is that of any reset, and the others are of the one reset state. -/
theorem resetSatisfiesInvariant : Obligations.ResetSatisfiesInvariant := by
  unfold Obligations.ResetSatisfiesInvariant
  have hw : State.reset.windowHoldsImage := performReset_reset ▸ performReset_windowHoldsImage State.reset
  exact ⟨⟨by decide, by decide, by decide, hw⟩, performReset_reset⟩

/-! ### Registers and the flag byte -/

namespace State

variable (s : State)

/-- Index 13 in privileged mode is SSP (10_state.md R24). -/
theorem readReg_sp_privileged (h : s.flag .p = true) : s.readReg .sp = s.ssp := by
  have hp : s.privileged = true := h
  simp [readReg, hp]

/-- Index 13 in user mode is USP (R24). -/
theorem readReg_sp_user (h : s.flag .p = false) : s.readReg .sp = s.usp := by
  have hp : s.privileged = false := h
  simp [readReg, hp]

theorem writeReg_sp_privileged (v : Word) (h : s.flag .p = true) : s.writeReg .sp v = s.setSsp v := by
  have hp : s.privileged = true := h
  simp [writeReg, hp]

theorem writeReg_sp_user (v : Word) (h : s.flag .p = false) : s.writeReg .sp v = s.setUsp v := by
  have hp : s.privileged = false := h
  simp [writeReg, hp]

/-- The flag write in privileged mode (R33). -/
theorem writeFlags_privileged (b : Byte) (h : s.flag .p = true) : s.writeFlags b = s.setFlags b := by
  rw [writeFlags, maskedFlags_privileged b h]

/-- The flag write in user mode (R33). -/
theorem writeFlags_user (b : Byte) (h : s.flag .p = false) :
    s.writeFlags b = s.setFlags ((s.flags &&& 0xF0) ||| (b &&& 0x0F)) := by
  have hp : flagIn s.flags .p = false := h
  simp [writeFlags, maskedFlags, hp]

/-- A write keeps every register it does not name; in user mode indices 13 and 14 name one register (R21 to R25). -/
theorem readReg_writeReg_ne {r r' : Reg} (v : Word) (hr : r ≠ .flag) (hne : r' ≠ r)
    (hnames : ¬(s.flag .p = false ∧ (r = .sp ∨ r = .usp) ∧ (r' = .sp ∨ r' = .usp))) :
    (s.writeReg r v).readReg r' = s.readReg r' := by
  have hfl := s.writeReg_flags r v hr
  cases r' with
  | g n => exact s.writeReg_g_ne n r v hne.symm
  | fp => exact s.writeReg_fp_ne r v hne.symm
  | sp =>
    cases hp : s.flag .p with
    | true =>
      rw [readReg_sp_privileged _ (by rw [flag_def, hfl]; exact hp), readReg_sp_privileged _ hp]
      exact s.writeReg_ssp_ne r v (fun h => hne h.1.symm)
    | false =>
      rw [readReg_sp_user _ (by rw [flag_def, hfl]; exact hp), readReg_sp_user _ hp]
      exact s.writeReg_usp_ne r v (fun h => hnames ⟨hp, .inr h, .inl rfl⟩) (fun h => hne h.1.symm)
  | usp => exact s.writeReg_usp_ne r v hne.symm (fun h => hnames ⟨h.2, .inl h.1, .inr rfl⟩)
  | flag => simp only [readReg, hfl]

/-- In user mode both names of the stack pointer write USP (R24, R25). -/
theorem writeReg_user_stack {r : Reg} (v : Word) (hp : s.flag .p = false) (hr : r = .sp ∨ r = .usp) :
    s.writeReg r v = s.setUsp v := by
  rcases hr with rfl | rfl
  · exact s.writeReg_sp_user v hp
  · rfl

/-- In user mode both names of the stack pointer read USP (R24, R25). -/
theorem readReg_user_stack {r : Reg} (hp : s.flag .p = false) (hr : r = .sp ∨ r = .usp) : s.readReg r = s.usp := by
  rcases hr with rfl | rfl
  · exact s.readReg_sp_user hp
  · rfl

end State

/-- Settles O13: read-back and frame of a register write; in user mode indices 13 and 14 are both USP. -/
theorem registerWriteFrame : Obligations.RegisterWriteFrame := by
  unfold Obligations.RegisterWriteFrame
  refine fun s r r' v => ⟨s.readReg_writeReg_same r v, s.readReg_writeReg_ne v, fun hp hr hr' => ?_, rfl, rfl, rfl, rfl⟩
  rw [s.writeReg_user_stack v hp hr]
  exact (s.setUsp v).readReg_user_stack hp hr'

/-- Settles O11: the two banks of index 13, index 14, and the masked write of index 15. -/
theorem specialRegisterIndices : Obligations.SpecialRegisterIndices := by
  unfold Obligations.SpecialRegisterIndices
  intro s v
  have hflag : (s.readReg .flag).toNat = s.flags.toNat := by
    have := s.flags.isLt
    simp [State.readReg]; omega
  exact ⟨fun h => ⟨s.readReg_sp_privileged h, s.writeReg_sp_privileged v h⟩,
    fun h => ⟨s.readReg_sp_user h, s.writeReg_sp_user v h⟩, rfl, rfl, hflag,
    s.writeFlags_privileged _, s.writeFlags_user _⟩

/-- Settles O12: after the switch index 13 is USP, which the write in privileged mode did not reach. -/
theorem bankSwitchIsImmediate : Obligations.BankSwitchIsImmediate := by
  unfold Obligations.BankSwitchIsImmediate
  intro s u v b hp hb
  have hsp : (s.writeReg .usp u).writeReg .sp v = (s.setUsp u).setSsp v := State.writeReg_sp_privileged _ v hp
  have hfl : ((s.setUsp u).setSsp v).writeFlags b = ((s.setUsp u).setSsp v).setFlags b :=
    State.writeFlags_privileged _ b hp
  rw [hsp, hfl]
  exact State.readReg_sp_user _ hb

/-- Settles O14: each bit is read off the byte, and each kind of flag write by its own law. -/
theorem flagByteLayout : Obligations.FlagByteLayout := by
  unfold Obligations.FlagByteLayout
  refine fun b v c s z => ⟨⟨rfl, rfl, rfl, rfl, rfl, rfl, rfl, rfl⟩, ?_, flagIn_withVCSZ_upper b v c s z, ?_, ?_, ?_⟩
  · simp [flagIn_withVCSZ]
  · simp [flagIn_entryFlags]
  · simp [flagIn_entryFlags]
  · intro f hf
    fin_cases hf <;> simp [flagIn_entryFlags]

/-! ### The ALU group and LD -/

/-- The flags of a sum: signed overflow, the carry out, the sign, and zero (42_alu.md R200, R201). -/
theorem flagUpdate_add (cfg : Config) (v1 v2 : Word) (b : Byte) : flagUpdate cfg .add v1 v2 (v1.toNat + v2.toNat) b =
    withVCSZ b (v1.getLsbD 15 == v2.getLsbD 15 && (v1 + v2).getLsbD 15 != v1.getLsbD 15)
      (decide (0x10000 ≤ v1.toNat + v2.toNat)) ((v1 + v2).getLsbD 15) (decide (v1 + v2 = 0)) := by
  simp only [flagUpdate, trunc16_add, overflowOf, carryOf, bit16_add, BitVec.msb_eq_getLsbD_last]
  rfl

/-- Settles O22: the truncated sum, with the flags of a sum. -/
theorem addComputes : Obligations.AddComputes := by
  unfold Obligations.AddComputes
  rintro s rd src v1 v2 t rfl rfl rfl
  have hx : exec (.add rd src) s = .next (aluEffect .add rd src s) := rfl
  rw [hx, aluEffect_eq]
  simp only [dividesByZero, aluResult, flagUpdate_add, trunc16_add]
  rfl

/-- The mask is chosen by P and keeps the upper nibble, and the flag update of the ALU changes neither (10_state.md R33). -/
theorem maskedFlags_withVCSZ (b new : Byte) (v c x z : Bool) : maskedFlags (withVCSZ b v c x z) new = maskedFlags b new := by
  apply eq_of_flagIn_eq
  intro f
  cases f <;> simp [flagIn_maskedFlags, flagIn_withVCSZ]

/-- The state an ALU operation stores its result in: the exception of a zero divisor raised, the flags updated (42_alu.md
R184, R185). -/
def aluFlagged (op : AluOp) (rd : Reg) (src : Operand) (s : State) : State :=
  (if dividesByZero op (s.loadOperand src) then s.raise s.cfg.intrZdiv else s).setFlags
    (flagUpdate s.cfg op (s.readReg rd) (s.loadOperand src) (aluResult op (s.readReg rd) (s.loadOperand src)) s.flags)

section AluFlagged

variable (op : AluOp) (rd : Reg) (src : Operand) (s : State)

theorem aluEffect_eq_aluFlagged : aluEffect op rd src s = if op = .cmp then aluFlagged op rd src s else
    (aluFlagged op rd src s).writeReg rd (trunc16 (aluResult op (s.readReg rd) (s.loadOperand src))) := rfl

theorem aluFlagged_g : (aluFlagged op rd src s).g = s.g := by unfold aluFlagged; split <;> rfl

theorem aluFlagged_fp : (aluFlagged op rd src s).fp = s.fp := by unfold aluFlagged; split <;> rfl

theorem aluFlagged_ssp : (aluFlagged op rd src s).ssp = s.ssp := by unfold aluFlagged; split <;> rfl

theorem aluFlagged_usp : (aluFlagged op rd src s).usp = s.usp := by unfold aluFlagged; split <;> rfl

/-- The flags before the store are those of the update, whatever the divisor (R200). -/
theorem aluFlagged_flags : (aluFlagged op rd src s).flags = flagUpdate s.cfg op (s.readReg rd) (s.loadOperand src)
    (aluResult op (s.readReg rd) (s.loadOperand src)) s.flags := rfl

theorem aluFlagged_flag_upper : ∀ f ∈ [Flag.e, .p, .i, .reserved], (aluFlagged op rd src s).flag f = s.flag f :=
  flagIn_withVCSZ_upper s.flags _ _ _ _

/-- The flag byte after an ALU operation on index 15: the result, through the mask (R204). -/
theorem aluEffect_flag_flags (h : op ≠ .cmp) : (aluEffect op .flag src s).flags = maskedFlags s.flags
    ((trunc16 (aluResult op (s.flags.setWidth 16) (s.loadOperand src))).extractLsb' 0 8) := by
  rw [aluEffect_eq_aluFlagged, if_neg h, State.writeReg_flag_flags, aluFlagged_flags, flagUpdate, maskedFlags_withVCSZ]
  rfl

end AluFlagged

/-- Every ALU operation, in the order of the opcode table. -/
def aluOps : List AluOp := [.add, .sub, .cmp, .and, .or, .xor, .adds, .mul, .div, .mod, .shla, .shll, .shra, .shrl]

theorem mem_aluOps (op : AluOp) : op ∈ aluOps := by cases op <;> decide

/-- Settles O29: the store to index 15 goes through the mask, which P before the instruction chooses. -/
theorem aluOnFlagByte : Obligations.AluOnFlagByte := by
  unfold Obligations.AluOnFlagByte
  intro s src r p hp hr
  have hmem : p ∈ (aluOps.filter (· ≠ .cmp)).map (fun op => (op, aluInstr op .flag src)) := hp
  obtain ⟨op, hop, rfl⟩ := List.mem_map.1 hmem
  have hne : op ≠ .cmp := by simpa using (List.mem_filter.1 hop).2
  have hf := aluEffect_flag_flags op src s hne
  rw [← hr] at hf
  refine ⟨_, exec_aluInstr op .flag src s, fun hpriv => ?_, fun huser => ?_⟩
  · rw [hf]; exact maskedFlags_privileged _ hpriv
  · rw [hf]; exact congrArg State.flags (s.writeFlags_user (r.extractLsb' 0 8) huser)

/-- The registers and flags an instruction with destination `rd` leaves alone (42_alu.md R185). -/
structure RegisterFrame (rd : Reg) (s t : State) : Prop where
  g     : ∀ n : Fin 12, rd ≠ .g n → t.g[n.val] = s.g[n.val]
  fp    : rd ≠ .fp → t.fp = s.fp
  ssp   : ¬(rd = .sp ∧ s.flag .p = true) → t.ssp = s.ssp
  usp   : rd ≠ .usp → ¬(rd = .sp ∧ s.flag .p = false) → t.usp = s.usp
  flags : rd ≠ .flag → ∀ f ∈ [Flag.e, .p, .i, .reserved], t.flag f = s.flag f

namespace RegisterFrame

theorem refl (rd : Reg) (s : State) : RegisterFrame rd s s where
  g _ _ := rfl
  fp _ := rfl
  ssp _ := rfl
  usp _ _ := rfl
  flags _ _ _ := rfl

theorem writeReg (rd : Reg) (s : State) (v : Word) : RegisterFrame rd s (s.writeReg rd v) where
  g n := s.writeReg_g_ne n rd v
  fp := s.writeReg_fp_ne rd v
  ssp := s.writeReg_ssp_ne rd v
  usp := s.writeReg_usp_ne rd v
  flags h f _ := by rw [State.flag_def, s.writeReg_flags rd v h, State.flag_def]

/-- The frame from a state on, where the state has the registers and the upper nibble of an earlier one. -/
theorem of_same_registers {rd : Reg} {s u t : State} (h : RegisterFrame rd u t) (hg : u.g = s.g) (hfp : u.fp = s.fp)
    (hssp : u.ssp = s.ssp) (husp : u.usp = s.usp) (hfl : ∀ f ∈ [Flag.e, .p, .i, .reserved], u.flag f = s.flag f) :
    RegisterFrame rd s t := by
  have hp : u.flag .p = s.flag .p := hfl .p (by simp)
  exact {
    g := fun n hn => by simpa only [hg] using h.g n hn
    fp := fun hn => (h.fp hn).trans hfp
    ssp := fun hn => (h.ssp (by rwa [hp])).trans hssp
    usp := fun hn hn' => (h.usp hn (by rwa [hp])).trans husp
    flags := fun hn f hf => (h.flags hn f hf).trans (hfl f hf) }

end RegisterFrame

theorem aluEffect_registerFrame (op : AluOp) (rd : Reg) (src : Operand) (s : State) :
    RegisterFrame rd s (aluEffect op rd src s) := by
  have h : RegisterFrame rd (aluFlagged op rd src s) (aluEffect op rd src s) := by
    rw [aluEffect_eq_aluFlagged]
    split
    · exact .refl _ _
    · exact .writeReg _ _ _
  exact h.of_same_registers (aluFlagged_g op rd src s) (aluFlagged_fp op rd src s) (aluFlagged_ssp op rd src s)
    (aluFlagged_usp op rd src s) (aluFlagged_flag_upper op rd src s)

/-- Only DIV and MOD have a divisor (42_alu.md R184). -/
theorem div_or_mod_of_dividesByZero {op : AluOp} {v : Word} (h : dividesByZero op v = true) : op = .div ∨ op = .mod := by
  cases op <;> simp [dividesByZero] at h ⊢

/-- The one slot an ALU operation can change is that of the zero divisor, and only DIV and MOD change it (R184). -/
theorem aluEffect_pend_changed {op : AluOp} {rd : Reg} {src : Operand} {s : State} {n : IntrNum}
    (h : (aluEffect op rd src s).pend[n.val] ≠ s.pend[n.val]) : n = s.cfg.intrZdiv ∧ (op = .div ∨ op = .mod) := by
  simp only [aluEffect_pend] at h
  split at h
  · next hz =>
    refine ⟨?_, div_or_mod_of_dividesByZero hz⟩
    by_contra hn
    exact h (Vector.getElem_set_ne _ _ (fun hv => hn (Fin.ext hv.symm)))
  · exact absurd rfl h

theorem aluInstr_ne_ld (op : AluOp) (rd rd' : Reg) (src src' : Operand) : aluInstr op rd src ≠ .ld rd' src' := by
  cases op <;> simp [aluInstr]

/-- Settles O31: LD is one register write; an ALU operation raises, updates the flags and stores. -/
theorem registerInstructionFrame : Obligations.RegisterInstructionFrame := by
  unfold Obligations.RegisterInstructionFrame
  intro s t rd src i hi ht
  have hmem : i ∈ Instr.ld rd src :: aluOps.map (aluInstr · rd src) := hi
  rcases List.mem_cons.1 hmem with rfl | halu
  · cases ht
    have hf := RegisterFrame.writeReg rd s (s.loadOperand src)
    refine ⟨hf.g, hf.fp, hf.ssp, hf.usp, fun h _ => s.writeReg_flags rd _ h, hf.flags, fun n hn => ?_,
      State.readByte_congr ?_, ?_, ?_, ?_, ?_, ?_⟩
    · simp at hn
    all_goals simp
  · obtain ⟨op, -, rfl⟩ := List.mem_map.1 halu
    rw [exec_aluInstr] at ht
    cases ht
    have hf := aluEffect_registerFrame op rd src s
    refine ⟨hf.g, hf.fp, hf.ssp, hf.usp, fun _ h => absurd h (aluInstr_ne_ld op rd rd src src), hf.flags, fun n hn => ?_,
      State.readByte_congr ?_, ?_, ?_, ?_, ?_, ?_⟩
    · obtain ⟨hz, rfl | rfl⟩ := aluEffect_pend_changed hn
      · exact ⟨hz, .inl rfl⟩
      · exact ⟨hz, .inr rfl⟩
    all_goals simp

/-! ### RETI -/

/-- Two pops on the supervisor stack, then the whole flag byte (43_control.md R252). -/
theorem returnFromTrap_privileged (s : State) (h : s.flag .p = true) : s.returnFromTrap =
    ((s.setSsp (s.ssp + 4)).setPc (s.readWord s.ssp)).setFlags ((s.readWord (s.ssp + 2)).extractLsb' 0 8) := by
  have hp : s.privileged = true := h
  have hp' : (s.setSsp (s.ssp + 2)).privileged = true := h
  have hsp : s.ssp + 2 + 2 = s.ssp + 4 := by rw [BitVec.add_assoc]; rfl
  simp only [State.returnFromTrap, State.popWord_eq, hp, hp', if_true, State.setSsp_ssp, hsp]
  exact State.writeFlags_privileged _ _ h

/-- Two pops on the user stack, then V, C, S and Z (R252, 10_state.md R33). -/
theorem returnFromTrap_user (s : State) (h : s.flag .p = false) : s.returnFromTrap =
    ((s.setUsp (s.usp + 4)).setPc (s.readWord s.usp)).setFlags
      ((s.flags &&& 0xF0) ||| ((s.readWord (s.usp + 2)).extractLsb' 0 8 &&& 0x0F)) := by
  have hp : s.privileged = false := h
  have hp' : (s.setUsp (s.usp + 2)).privileged = false := h
  have hsp : s.usp + 2 + 2 = s.usp + 4 := by rw [BitVec.add_assoc]; rfl
  simp only [State.returnFromTrap, State.popWord_eq, hp, hp', Bool.false_eq_true, if_false, State.setUsp_usp, hsp]
  exact State.writeFlags_user _ _ h

/-- Settles O36: RETI is the return from a trap, on the bank P selects before it. -/
theorem retiPopsPcAndFlags : Obligations.RetiPopsPcAndFlags := by
  unfold Obligations.RetiPopsPcAndFlags
  rintro s f rfl
  have hx : exec .reti s = .next s.returnFromTrap := rfl
  refine ⟨fun h => ?_, fun h => ?_⟩
  · rw [hx, returnFromTrap_privileged s h, s.readReg_sp_privileged h]
  · rw [hx, returnFromTrap_user s h, s.readReg_sp_user h]

/-! ### Which instructions change the overlay, and which the flag byte -/

/-- An instruction keeps the overlay, or is an OUT at `IPL_DETACH` that executes, and ends it (20_memory.md R87). -/
theorem exec_iplMode {i : Instr} {s t : State} (ht : exec i s = .next t) : t.iplMode = s.iplMode ∨
    (t.iplMode = false ∧ ∃ rd port, i = .ioOut rd port ∧ s.TargetExecutes port ∧ s.IoAllowed ∧
      s.cfg.iplDetach = some (s.effAddr port)) := by
  cases instrGroup i with
  | alu op rd src => rw [exec_aluInstr] at ht; cases ht; exact .inl (aluEffect_iplMode op rd src s)
  | jump i dst h => obtain ⟨b, h⟩ := h s; rw [h] at ht; cases ht; exact .inl (jumpEffect_iplMode b dst s)
  | undefined i h => rw [h] at ht; cases ht; exact .inl rfl
  | nop => cases ht; exact .inl rfl
  | ld rd src => cases ht; exact .inl (s.writeReg_iplMode rd _)
  | st rd dst => cases ht; exact .inl (s.withTarget_keeps State.iplMode _ _ rfl (storeOperand_iplMode rd dst _ s))
  | call dst => cases ht; exact .inl (s.withTarget_keeps State.iplMode _ _ rfl (s.pushWord_iplMode s.pc))
  | ioIn rd port => cases ht; exact .inl (s.withTarget_keeps State.iplMode _ _ rfl (inEffect_iplMode rd _ s))
  | ioOut rd port =>
    cases ht
    rcases s.withTarget_cases port (outEffect rd) with ⟨ha, h⟩ | ⟨-, h⟩ <;> rw [h]
    · rcases outEffect_iplMode rd (s.effAddr port) s with hk | ⟨hf, hio, hd⟩
      · exact .inl hk
      · exact .inr ⟨hf, rd, port, rfl, s.targetExecutes_of_targetAllowed ha, hio, hd⟩
    · exact .inl rfl
  | push rd => cases ht; exact .inl (s.pushWord_iplMode _)
  | pop rd => cases ht; exact .inl (by simp)
  | ret => cases ht; exact .inl s.popWord_iplMode
  | reti => cases ht; exact .inl s.returnFromTrap_iplMode
  | svc => cases ht; exact .inl rfl
  | halt => cases ht; refine .inl ?_; split <;> rfl

/-- Settles O57: requests, check and fetch keep both; the instruction keeps the parameters, and the overlay by
`exec_iplMode`. -/
theorem stepKeepsConfiguration : Obligations.StepKeepsConfiguration := by
  unfold Obligations.StepKeepsConfiguration
  intro s t ht
  obtain ⟨-, i, pc, hfetch, hx⟩ := step_cases ht
  refine ⟨(exec_cfg hx).trans (by simp), fun hne => ?_⟩
  rcases exec_iplMode hx with hk | ⟨hfalse, rd, port, rfl, htarget, hio, hdetach⟩
  · exact absurd (hk.trans (by simp)) hne
  · exact ⟨hfalse, rd, port, _, hfetch, htarget, hio, by simpa using hdetach⟩

/-- Settles O59: the flag byte is written by the ALU group and RETI, and by the register write of LD, POP and IN where the
register is index 15; no other effect reaches it. -/
theorem otherInstructionsKeepFlags : Obligations.OtherInstructionsKeepFlags := by
  unfold Obligations.OtherInstructionsKeepFlags
  intro i s t ht hne
  cases instrGroup i with
  | alu op rd src => exact .inr (.inr (.inr ⟨rd, src, List.mem_map_of_mem (f := (aluInstr · rd src)) (mem_aluOps op)⟩))
  | reti => exact .inl rfl
  | pop rd =>
    cases ht
    by_cases hr : rd = .flag
    · exact .inr (.inl (by rw [hr]))
    · exact absurd (by rw [State.writeReg_flags _ _ _ hr, State.popWord_flags]) hne
  | ld rd src =>
    cases ht
    by_cases hr : rd = .flag
    · exact .inr (.inr (.inl ⟨src, by simp [hr]⟩))
    · exact absurd (s.writeReg_flags rd _ hr) hne
  | ioIn rd port =>
    cases ht
    by_cases hr : rd = .flag
    · exact .inr (.inr (.inl ⟨port, by simp [hr]⟩))
    · exact absurd (s.withTarget_keeps State.flags _ _ rfl (inEffect_flags rd _ s hr)) hne
  | jump i dst h => obtain ⟨b, h⟩ := h s; rw [h] at ht; cases ht; exact absurd (jumpEffect_flags b dst s) hne
  | undefined i h => rw [h] at ht; cases ht; exact absurd rfl hne
  | nop => cases ht; exact absurd rfl hne
  | st rd dst => cases ht; exact absurd (s.withTarget_keeps State.flags _ _ rfl (storeOperand_flags rd dst _ s)) hne
  | call dst => cases ht; exact absurd (s.withTarget_keeps State.flags _ _ rfl (s.pushWord_flags s.pc)) hne
  | ioOut rd port => cases ht; exact absurd (s.withTarget_keeps State.flags _ _ rfl (outEffect_flags rd _ s)) hne
  | push rd => cases ht; exact absurd (s.pushWord_flags _) hne
  | ret => cases ht; exact absurd s.popWord_flags hne
  | svc => cases ht; exact absurd rfl hne
  | halt => cases ht; exact absurd (by split <;> rfl) hne

/-! ### The two stops of a step -/

/-- Under the faulting policy an advance of pc past 0xFFFF faults (10_state.md R35). -/
theorem nextPc_overflow {p : Word} (h : 0x10000 ≤ p.toNat + 2) : nextPc .fault p = .error .pcOverflow := by
  simp [nextPc, Nat.not_lt.2 h]

theorem nextPc_inside {p : Word} (h : p.toNat + 2 < 0x10000) : nextPc .fault p = .ok (p + 2) := by
  simp [nextPc, h]

/-- A fetch faults when pc after the whole instruction would pass 0xFFFF: at the first advance, or at the second one of a
two-word instruction (R35, 40_cycle.md R131). -/
theorem fetch_overflow (s : State) {i : Instr} {rest : List Byte}
    (hd : decode [s.readByte s.pc, s.readByte (s.pc + 1), s.readByte (s.pc + 2), s.readByte (s.pc + 3)] = .ok (i, rest))
    (hc : s.cfg.pcOverflow = .fault) (ho : 0x10000 ≤ s.pc.toNat + (4 - rest.length)) :
    s.fetch = .error .pcOverflow := by
  have hw : wordOfBytes (s.readByte s.pc) (s.readByte (s.pc + 1)) = s.readWord s.pc := rfl
  unfold State.fetch
  rw [hc]
  rcases Nat.lt_or_ge (s.pc.toNat + 2) 0x10000 with hin | hover
  · have hadd : (s.pc + 2).toNat = s.pc.toNat + 2 := by simp [BitVec.toNat_add]; omega
    have hnext : 0x10000 ≤ (s.pc + 2).toNat + 2 := by omega
    simp only [decode, hw] at hd
    split at hd
    · next hext => simp only [nextPc_inside hin, hext, if_true, nextPc_overflow hnext]
    · cases hd
      simp at ho
      omega
  · simp [nextPc_overflow hover]

/-- Settles O7: a halted core stops by definition, and an overflowing pc stops the fetch. -/
theorem haltedOrOverflowingStepStops : Obligations.HaltedOrOverflowingStepStops := by
  unfold Obligations.HaltedOrOverflowingStepStops
  refine ⟨fun s hs => by simp [step, hs], ?_⟩
  rintro s t i rest hs rfl hd hc ho
  simp [step, hs, fetch_overflow _ hd hc ho]

end Sys2Proof.Machine
end

section
/-! PROOFS of the family 20_memory.md: byte and word accesses under the overlay, the detach, the stores of instructions,
the I/O space, and the invariant of memory over every step. -/

namespace Sys2Proof.Machine

open Sys2Proof

/-! ### Bytes and words under the overlay -/

/-- A word from its two bytes, the one at the lower address first (20_memory.md R68). -/
theorem wordOfBytes_toNat (hi lo : Byte) : (wordOfBytes hi lo).toNat = hi.toNat * 256 + lo.toNat := by
  rw [wordOfBytes, BitVec.toNat_append, ← Nat.shiftLeft_add_eq_or_of_lt lo.isLt, Nat.shiftLeft_eq]

namespace State

variable (s : State)

/-- The addresses the overlay protects (R62, R63). -/
theorem writeRejected_iff (a : Word) : s.writeRejected a = true ↔ s.iplMode = true ∧ 0xE000 ≤ a.toNat := by
  rw [writeRejected, Bool.and_eq_true, decide_eq_true_eq]; rfl

theorem writeRejected_eq_false_iff (a : Word) :
    s.writeRejected a = false ↔ ¬(s.iplMode = true ∧ 0xE000 ≤ a.toNat) := by
  rw [← writeRejected_iff, Bool.not_eq_true]

/-- A rejected byte write has no effect on any state (R63). -/
theorem writeByte_rejected {a : Word} (b : Byte) (h : s.writeRejected a = true) : s.writeByte a b = s := by
  simp [writeByte, h]

/-- An accepted byte write reads back (R63). -/
theorem readByte_writeByte_same {a : Word} (b : Byte) (h : s.writeRejected a = false) :
    (s.writeByte a b).readByte a = b := by
  simp [readByte_writeByte, h]

theorem readByte_writeByte_ne {a c : Word} (b : Byte) (h : c ≠ a) : (s.writeByte a b).readByte c = s.readByte c := by
  simp [readByte_writeByte, h]

/-- The first byte of a word write (R67, R68). -/
theorem readByte_writeWord_first (a v : Word) : (s.writeWord a v).readByte a =
    if s.writeRejected a then s.readByte a else v.extractLsb' 8 8 := by
  rw [readByte_writeWord, if_neg (fun h => word_ne_succ a h.1)]
  cases h : s.writeRejected a <;> simp

/-- The second byte of a word write, checked against the overlay on its own (R67, R68). -/
theorem readByte_writeWord_second (a v : Word) : (s.writeWord a v).readByte (a + 1) =
    if s.writeRejected (a + 1) then s.readByte (a + 1) else v.extractLsb' 0 8 := by
  rw [readByte_writeWord, if_neg (fun h : a + 1 = a ∧ _ => word_ne_succ a h.1.symm)]
  cases h : s.writeRejected (a + 1) <;> simp

theorem readByte_writeWord_ne {a c : Word} (v : Word) (h0 : c ≠ a) (h1 : c ≠ a + 1) :
    (s.writeWord a v).readByte c = s.readByte c := by
  rw [readByte_writeWord, if_neg (fun h => h1 h.1), if_neg (fun h => h0 h.1)]

/-- The detach zeroes the window and keeps the memory below it (R65). -/
theorem readByte_detachIpl (a : Word) : s.detachIpl.readByte a = if a.toNat < 0xE000 then s.readByte a else 0 :=
  Memory.read_zeroFrom s.mem Memory.windowBase a.toNat

end State

/-- Settles O15: a word write is two byte writes, and each of them follows the rule of its own address. -/
theorem wordAccessIsBigEndian : Obligations.WordAccessIsBigEndian := by
  unfold Obligations.WordAccessIsBigEndian
  intro s a b c v hb
  obtain rfl : b = a + 1 := BitVec.eq_of_toNat_eq (by simpa [BitVec.toNat_add] using hb)
  refine ⟨wordOfBytes_toNat _ _, fun h => ?_, fun hi ha => ?_, fun h => ?_, fun hi ha => ?_,
    s.readByte_writeWord_ne v, s.setMem_writeWord a v s.mem⟩
  · rw [s.readByte_writeWord_first, (s.writeRejected_eq_false_iff a).2 h]; rfl
  · rw [s.readByte_writeWord_first, (s.writeRejected_iff a).2 ⟨hi, ha⟩]; rfl
  · rw [s.readByte_writeWord_second, (s.writeRejected_eq_false_iff (a + 1)).2 h]; rfl
  · rw [s.readByte_writeWord_second, (s.writeRejected_iff (a + 1)).2 ⟨hi, ha⟩]; rfl

/-- Settles O16: the overlay rejects the write or it stores one byte. -/
theorem storeUnderOverlay : Obligations.StoreUnderOverlay := by
  unfold Obligations.StoreUnderOverlay
  exact fun s a c b => ⟨fun hi ha => s.writeByte_rejected b ((s.writeRejected_iff a).2 ⟨hi, ha⟩),
    fun h => s.readByte_writeByte_same b ((s.writeRejected_eq_false_iff a).2 h), s.readByte_writeByte_ne b,
    s.setMem_writeByte a b s.mem⟩

/-- Settles O17: the detach keeps the memory below the window only, and nothing is rejected after it. -/
theorem detachZeroesWindow : Obligations.DetachZeroesWindow := by
  unfold Obligations.DetachZeroesWindow
  refine fun s a b => ⟨rfl, fun h => ?_, fun h => ?_, State.readByte_writeByte_same _ b rfl, rfl⟩
  · rw [s.readByte_detachIpl, if_neg (Nat.not_lt.2 h)]
  · rw [s.readByte_detachIpl, if_pos h]

/-! ### Operations on a target -/

namespace State

variable {s : State}

/-- What executes on a target, said in the terms of the policy and the mode number (40_cycle.md R140). -/
theorem targetAllowed_of_targetExecutes {o : Operand} (h : s.TargetExecutes o) : s.targetAllowed o = true := by
  rcases h with h | ⟨h2, h4, h5⟩
  · simp [targetAllowed, h]
  · refine s.targetAllowed_of_hasEffAddr ?_
    cases o <;> simp [hasEffAddr, Operand.mode] at h2 h4 h5 ⊢

theorem withTarget_of_targetExecutes {o : Operand} (h : s.TargetExecutes o) (f : Word → State → State) :
    s.withTarget o f = f (s.effAddr o) s := by
  simp [withTarget, targetAllowed_of_targetExecutes h]

theorem targetExecutes_of_hasEffAddr {o : Operand} (h : hasEffAddr o = true) : s.TargetExecutes o :=
  s.targetExecutes_of_targetAllowed (s.targetAllowed_of_hasEffAddr h)

end State

theorem exec_st {s : State} {rd : Reg} {dst : Operand} (h : s.TargetExecutes dst) :
    exec (.st rd dst) s = .next (storeOperand rd dst (s.effAddr dst) s) :=
  congrArg Host.Outcome.next (State.withTarget_of_targetExecutes h _)

/-! ### ST -/

section StoreOperand

variable (rd : Reg) (dst : Operand) (ea : Word) (s : State)

/-- Only byte register indirect mode stores a byte (41_load_store.md R162). -/
theorem storeOperand_of_mode_ne (h : dst.mode ≠ 7) : storeOperand rd dst ea s = s.writeWord ea (s.readReg rd) := by
  cases dst with
  | byteIndirect _ => exact absurd rfl h
  | direct _ | indexed _ _ | immediate _ | fpRel _ | register _ | shortImm _ | indirect _ => rfl

theorem setMem_storeOperand (m : Memory) : (storeOperand rd dst ea s).setMem m = s.setMem m := by
  cases dst <;> simp [storeOperand, State.setMem_writeByte, State.setMem_writeWord]

/-- ST reaches its address and, where it stores a word, the next one (R162). -/
theorem readByte_storeOperand_ne {c : Word} (h0 : c ≠ ea) (h1 : dst.mode = 7 ∨ c ≠ ea + 1) :
    (storeOperand rd dst ea s).readByte c = s.readByte c := by
  cases dst with
  | byteIndirect rx => exact s.readByte_writeByte_ne _ h0
  | direct _ | indexed _ _ | immediate _ | fpRel _ | register _ | shortImm _ | indirect _ =>
    have hne : c ≠ ea + 1 := h1.resolve_left (by simp [Operand.mode])
    exact s.readByte_writeWord_ne _ h0 hne

end StoreOperand

/-- Settles O21: where ST executes it is one store at its effective address. -/
theorem stStoresRegister : Obligations.StStoresRegister := by
  unfold Obligations.StStoresRegister
  intro s rd rx dst hdst
  refine ⟨exec_st (State.targetExecutes_of_hasEffAddr rfl), fun hmode => ?_, fun t ht => ?_⟩
  · rw [exec_st hdst, storeOperand_of_mode_ne rd dst _ s hmode]
  · rw [exec_st hdst] at ht
    cases ht
    refine ⟨setMem_storeOperand rd dst _ s s.mem, ?_⟩
    rintro a c rfl h0 h1
    exact readByte_storeOperand_ne rd dst _ s h0 h1

/-! ### PUSH, CALL, POP, RET and RETI -/

/-- What a move of the active stack leaves alone: everything but memory, pc and the active bank (44_stack.md R270, R271). -/
structure StackFrame (s t : State) : Prop where
  g       : t.g = s.g
  fp      : t.fp = s.fp
  usp     : s.flag .p = true → t.usp = s.usp
  ssp     : s.flag .p = false → t.ssp = s.ssp
  flags   : t.flags = s.flags
  iplMode : t.iplMode = s.iplMode
  pend    : t.pend = s.pend
  halted  : t.halted = s.halted
  cfg     : t.cfg = s.cfg
  env     : t.env = s.env

namespace StackFrame

theorem flag {s t : State} (h : StackFrame s t) (f : Flag) : t.flag f = s.flag f := by
  rw [State.flag_def, h.flags, State.flag_def]

theorem trans {s t u : State} (h : StackFrame s t) (h' : StackFrame t u) : StackFrame s u where
  g := h'.g.trans h.g
  fp := h'.fp.trans h.fp
  usp hp := (h'.usp (by rwa [h.flag])).trans (h.usp hp)
  ssp hp := (h'.ssp (by rwa [h.flag])).trans (h.ssp hp)
  flags := h'.flags.trans h.flags
  iplMode := h'.iplMode.trans h.iplMode
  pend := h'.pend.trans h.pend
  halted := h'.halted.trans h.halted
  cfg := h'.cfg.trans h.cfg
  env := h'.env.trans h.env

theorem setSp (s : State) (v : Word) : StackFrame s (s.writeReg .sp v) where
  g := by simp only [State.writeReg]; split <;> rfl
  fp := s.writeReg_fp_ne .sp v (by simp)
  usp hp := s.writeReg_usp_ne .sp v (by simp) (by simp [hp])
  ssp hp := s.writeReg_ssp_ne .sp v (by simp [hp])
  flags := s.writeReg_flags .sp v (by simp)
  iplMode := s.writeReg_iplMode .sp v
  pend := s.writeReg_pend .sp v
  halted := s.writeReg_halted .sp v
  cfg := s.writeReg_cfg .sp v
  env := s.writeReg_env .sp v

theorem storeWord (s : State) (a v : Word) : StackFrame s (s.writeWord a v) where
  g := s.writeWord_g a v
  fp := s.writeWord_fp a v
  usp _ := s.writeWord_usp a v
  ssp _ := s.writeWord_ssp a v
  flags := s.writeWord_flags a v
  iplMode := s.writeWord_iplMode a v
  pend := s.writeWord_pend a v
  halted := s.writeWord_halted a v
  cfg := s.writeWord_cfg a v
  env := s.writeWord_env a v

theorem pushWord (s : State) (v : Word) : StackFrame s (s.pushWord v) := (setSp s _).trans (storeWord _ _ _)

theorem popWord (s : State) : StackFrame s s.popWord.2 := setSp s _

section WriteReg

variable {s u : State} (h : StackFrame s u) {rd : Reg} (v : Word)
include h

/-! What POP's register write leaves of the frame. -/

theorem writeReg_g {n : Fin 12} (hr : rd ≠ .g n) : (u.writeReg rd v).g[n.val] = s.g[n.val] := by
  rw [u.writeReg_g_ne n rd v hr]; simp only [h.g]

theorem writeReg_fp (hr : rd ≠ .fp) : (u.writeReg rd v).fp = s.fp := (u.writeReg_fp_ne rd v hr).trans h.fp

theorem writeReg_usp (hp : s.flag .p = true) (hr : rd ≠ .usp) : (u.writeReg rd v).usp = s.usp :=
  (u.writeReg_usp_ne rd v hr (by simp [h.flag, hp])).trans (h.usp hp)

theorem writeReg_ssp (rd : Reg) (hp : s.flag .p = false) : (u.writeReg rd v).ssp = s.ssp :=
  (u.writeReg_ssp_ne rd v (by simp [h.flag, hp])).trans (h.ssp hp)

theorem writeReg_flags (hr : rd ≠ .flag) : (u.writeReg rd v).flags = s.flags :=
  (u.writeReg_flags rd v hr).trans h.flags

end WriteReg

end StackFrame

namespace State

variable (s : State)

/-- A push reaches the two bytes at the decremented stack pointer and no other (R72, R270). -/
theorem readByte_pushWord_ne (v a c : Word) (ha : a = s.readReg .sp - 2) (h0 : c ≠ a) (h1 : c ≠ a + 1) :
    (s.pushWord v).readByte c = s.readByte c :=
  (readByte_writeWord_ne _ v (ha ▸ h0) (ha ▸ h1)).trans (readByte_congr (s.writeReg_mem .sp _) c)

/-- The state after both pops of a return from a trap has the memory and, with the flags, the frame of the start (R252). -/
theorem returnFromTrap_frame : ∃ u, StackFrame s u ∧ u.mem = s.mem ∧
    ∃ pc b, s.returnFromTrap = (u.setPc pc).writeFlags b :=
  ⟨_, (StackFrame.popWord s).trans (StackFrame.popWord _), by simp, _, _, rfl⟩

end State

/-- Settles O40: a push is a move of the stack pointer and one store, a pop only a move; CALL and RET then set pc, POP writes
its register, RETI the flags. -/
theorem stackInstructionFrame : Obligations.StackInstructionFrame := by
  unfold Obligations.StackInstructionFrame
  refine fun s t rd dst => ⟨fun i hi ht => ?_, fun i hi ht => ?_⟩
  · simp only [List.mem_cons, List.not_mem_nil, or_false] at hi
    rcases hi with rfl | rfl <;> cases ht
    · obtain ⟨hg, hfp, husp, hssp, hfl, hipl, hpend, hh, hc, he⟩ := StackFrame.pushWord s (s.readReg rd)
      exact ⟨s.readByte_pushWord_ne _, hg, hfp, hfl, husp, hssp, fun _ => hpend, fun _ => s.pushWord_pc _, hipl, hh, hc, he⟩
    · rcases s.withTarget_cases dst (fun ea u => (u.pushWord u.pc).setPc ea) with ⟨-, e⟩ | ⟨hno, e⟩ <;> rw [e]
      · obtain ⟨hg, hfp, husp, hssp, hfl, hipl, hpend, hh, hc, he⟩ := StackFrame.pushWord s s.pc
        exact ⟨s.readByte_pushWord_ne _, hg, hfp, hfl, husp, hssp, fun _ => hpend, by simp, hipl, hh, hc, he⟩
      · refine ⟨fun _ _ _ _ _ => rfl, rfl, rfl, rfl, fun _ => rfl, fun _ => rfl, fun h => ?_, by simp, rfl, rfl, rfl, rfl⟩
        have hex : s.TargetExecutes dst := h.resolve_left (by simp)
        simp [State.targetAllowed_of_targetExecutes hex] at hno
  · simp only [List.mem_cons, List.not_mem_nil, or_false] at hi
    have hpop := StackFrame.popWord s
    rcases hi with rfl | rfl | rfl <;> cases ht
    · exact ⟨State.readByte_congr (by simp), fun n hn => hpop.writeReg_g _ (fun h => hn ⟨rfl, h⟩),
        fun hn => hpop.writeReg_fp _ (fun h => hn ⟨rfl, h⟩), fun hp hn => hpop.writeReg_usp _ hp (fun h => hn ⟨rfl, h⟩),
        hpop.writeReg_ssp _ rd, fun _ hn => hpop.writeReg_flags _ (fun h => hn ⟨rfl, h⟩), by simp, by simp, by simp,
        by simp, by simp, by simp⟩
    · obtain ⟨hg, hfp, husp, hssp, hfl, hipl, hpend, hh, hc, he⟩ := hpop
      exact ⟨State.readByte_congr s.popWord_mem, fun n _ => congrArg (·[n.val]) hg, fun _ => hfp, fun hp _ => husp hp,
        hssp, fun _ _ => hfl, by simp, hipl, hpend, hh, hc, he⟩
    · obtain ⟨u, ⟨hg, hfp, husp, hssp, -, hipl, hpend, hh, hc, he⟩, hm, pc, b, e⟩ := s.returnFromTrap_frame
      rw [e]
      exact ⟨State.readByte_congr hm, fun n _ => congrArg (·[n.val]) hg, fun _ => hfp, fun hp _ => husp hp, hssp,
        by simp, by simp, hipl, hpend, hh, hc, he⟩

/-! ### The I/O space -/

namespace State

variable {s : State}

/-- IN and OUT are not refused where they may run (45_system_io.md R290, R291). -/
theorem ioForbidden_of_ioAllowed (h : s.IoAllowed) : s.ioForbidden = false := by
  rcases h with h | h | h <;> simp [ioForbidden, h]

/-- At an even address below 0x100 the slot is the row of the map (20_memory.md R81). -/
theorem ioSlot_of_find {a : Word} {r : IoSlot} (heven : a.toNat % 2 = 0) (hlow : a.toNat < 0x100)
    (hfind : s.cfg.ioMap.find? (fun r => r.addr == a) = some r) : s.ioSlot a = some r := by
  simp [ioSlot, Config.isSlotAddress, heven, hlow, hfind]

/-- No operation is bound at an odd address, at one at or above 0x100, or where the rows of the address have none (R84). -/
theorem ioSlot_bind_eq_none {α : Type} (field : IoSlot → Option α) {a : Word}
    (h : a.toNat % 2 = 1 ∨ 0x100 ≤ a.toNat ∨ ∀ r ∈ s.cfg.ioMap, r.addr = a → field r = none) :
    (s.ioSlot a).bind field = none := by
  cases hslot : s.ioSlot a with
  | none => rfl
  | some r =>
    unfold ioSlot at hslot
    split at hslot
    · next ha =>
      simp only [Config.isSlotAddress, Bool.and_eq_true, decide_eq_true_eq, beq_iff_eq] at ha
      have hrow := (h.resolve_left (by omega)).resolve_left (by omega)
      exact hrow r (List.mem_of_find?_eq_some hslot) (by simpa using List.find?_some hslot)
    · simp at hslot

theorem boundRead_of_find {a : Word} {r : IoSlot} {op : DeviceRead} (heven : a.toNat % 2 = 0) (hlow : a.toNat < 0x100)
    (hfind : s.cfg.ioMap.find? (fun r => r.addr == a) = some r) (hop : r.read = some op) :
    s.boundRead a = some op := by
  rw [boundRead, ioSlot_of_find heven hlow hfind]; exact hop

theorem boundWrite_of_find {a : Word} {r : IoSlot} {op : DeviceWrite} (heven : a.toNat % 2 = 0) (hlow : a.toNat < 0x100)
    (hfind : s.cfg.ioMap.find? (fun r => r.addr == a) = some r) (hop : r.write = some op) :
    s.boundWrite a = some op := by
  rw [boundWrite, ioSlot_of_find heven hlow hfind]; exact hop

theorem ioRead_unbound {a : Word} (h : s.boundRead a = none) : s.ioRead a = (0, s) := by
  simp [ioRead, h]

theorem ioRead_bound {a : Word} {op : DeviceRead} (h : s.boundRead a = some op) : s.ioRead a =
    (deviceValue op s.env.draws, s.setEnv { s.env with
      draws := s.env.draws + 1
      ioTrace := .read a op (deviceValue op s.env.draws) :: s.env.ioTrace }) := by
  simp [ioRead, h]

/-- The serial receive operation gives a byte (R89). -/
theorem deviceValue_serialReceive_lt (n : Nat) : (deviceValue .serialReceive n).toNat < 0x100 := by
  have := (Config.serialByte n).isLt
  simp [deviceValue]; omega

theorem deviceWrite_unbound {a : Word} (v : Word) (h : s.boundWrite a = none) : s.deviceWrite a v = s := by
  simp [deviceWrite, h]

theorem deviceWrite_bound {a : Word} {op : DeviceWrite} (v : Word) (h : s.boundWrite a = some op) :
    s.deviceWrite a v = (s.recordWrite a op v).sectorEffect op := by
  simp [deviceWrite, h]

/-- A write that is not the storage controller's is recorded and does nothing else to the core (R83). -/
theorem deviceWrite_not_storage {a : Word} {op : DeviceWrite} (v : Word) (h : s.boundWrite a = some op)
    (hop : isStorageWrite op = false) :
    s.deviceWrite a v = s.setEnv { s.env with ioTrace := .write a op v :: s.env.ioTrace } := by
  have hne : op ≠ .storageBufferAddress := by rintro rfl; simp [isStorageWrite] at hop
  simp [deviceWrite_bound v h, sectorEffect, recordWrite, hop, hne]

/-- A sector transfer counts a draw and changes nothing of the environment beside it (log 8). -/
theorem sectorEffect_env {op : DeviceWrite} (hop : isStorageWrite op = true) (u : State) :
    (u.sectorEffect op).env = { u.env with draws := u.env.draws + 1 } := by
  simp only [sectorEffect, hop, if_true]
  split <;> simp

@[simp] theorem sectorEffect_ioTrace (op : DeviceWrite) (u : State) :
    (u.sectorEffect op).env.ioTrace = u.env.ioTrace := by
  cases hop : isStorageWrite op with
  | true => rw [sectorEffect_env hop]
  | false => simp [sectorEffect, hop]

/-- A sector transfer changes memory and the environment only (R88). -/
theorem sectorEffect_frame (op : DeviceWrite) (u : State) (m : Memory) (e : Env) :
    ((u.sectorEffect op).setMem m).setEnv e = (u.setMem m).setEnv e := by
  unfold sectorEffect
  split
  · dsimp only
    split
    · rw [setMem_writeBytes]; rfl
    · rfl
  · rfl

/-- A sector written under the overlay: 512 bytes from its address on (R63, R88). -/
theorem readByte_writeSector (u : State) (a c : Word) (x : Vector Byte 512) : (u.writeBytes a x.toList).readByte c =
    if h : (c - a).toNat < 512 then
      if u.iplMode = true ∧ 0xE000 ≤ c.toNat then u.readByte c else x[(c - a).toNat]
    else u.readByte c := by
  rw [readByte_writeBytes _ _ _ _ (by simp), Vector.length_toList]
  simp only [writeRejected_eq_false_iff]
  generalize (c - a).toNat = k
  by_cases hk : k < 512 <;> by_cases hr : u.iplMode = true ∧ 0xE000 ≤ c.toNat <;> simp [hk, hr]

/-- Memory after a sector transfer: the sector's bytes from the buffer address on, where the overlay lets them through
(R63, R88). -/
theorem readByte_sectorEffect {op : DeviceWrite} (hop : isStorageWrite op = true) (u : State) (c : Word) :
    (u.sectorEffect op).readByte c = match Config.sectorTransfer u.env.draws with
      | none => u.readByte c
      | some x => if h : (c - u.env.storageBuffer).toNat < 512 then
          if u.iplMode = true ∧ 0xE000 ≤ c.toNat then u.readByte c else x[(c - u.env.storageBuffer).toNat]
        else u.readByte c := by
  simp only [sectorEffect, hop, if_true]
  cases Config.sectorTransfer u.env.draws with
  | none => rfl
  | some x => exact readByte_writeSector (u.setEnv _) u.env.storageBuffer c x

/-- At `IPL_DETACH` the detach follows the device write (R87; log 14). -/
theorem ioWrite_eq (a v : Word) : s.ioWrite a v =
    if s.cfg.iplDetach = some a then (s.deviceWrite a v).detachIpl else s.deviceWrite a v := rfl

/-- The detach changes no environment, so the record of the device write stands (R87). -/
theorem ioWrite_env (a v : Word) : (s.ioWrite a v).env = (s.deviceWrite a v).env := by
  rw [ioWrite_eq]; split <;> rfl

end State

theorem exec_ioIn {s : State} {rd : Reg} {port : Operand} (hport : s.TargetExecutes port) (hio : s.IoAllowed) :
    exec (.ioIn rd port) s = .next ((s.ioRead (s.effAddr port)).2.writeReg rd (s.ioRead (s.effAddr port)).1) := by
  have he : exec (.ioIn rd port) s = .next (s.withTarget port (inEffect rd)) := rfl
  rw [he, State.withTarget_of_targetExecutes hport, inEffect, State.ioForbidden_of_ioAllowed hio]
  rfl

theorem exec_ioOut {s : State} {rd : Reg} {port : Operand} (hport : s.TargetExecutes port) (hio : s.IoAllowed) :
    exec (.ioOut rd port) s = .next (s.ioWrite (s.effAddr port) (s.readReg rd)) := by
  have he : exec (.ioOut rd port) s = .next (s.withTarget port (outEffect rd)) := rfl
  rw [he, State.withTarget_of_targetExecutes hport, outEffect, State.ioForbidden_of_ioAllowed hio]
  rfl

/-- Settles O41: an I/O read of an unbound slot is 0 and no access; of a bound one it is a draw, a byte for serial
receive. -/
theorem inReadsSlot : Obligations.InReadsSlot := by
  unfold Obligations.InReadsSlot
  rintro s rd port a hport hio rfl
  rw [exec_ioIn hport hio]
  refine ⟨fun h => ?_, fun r op heven hlow hfind hop => ?_⟩
  · rw [State.ioRead_unbound (State.ioSlot_bind_eq_none IoSlot.read h)]
  · rw [State.ioRead_bound (State.boundRead_of_find heven hlow hfind hop)]
    exact ⟨_, fun hserial => hserial ▸ State.deviceValue_serialReceive_lt s.env.draws, rfl⟩

/-- Settles O42: the device write is none, or recorded, and the detach follows it at `IPL_DETACH`. -/
theorem outWritesSlot : Obligations.OutWritesSlot := by
  unfold Obligations.OutWritesSlot
  rintro s rd port a hport hio rfl
  rw [exec_ioOut hport hio]
  refine ⟨fun h => ?_, ?_, fun r op heven hlow hfind hop => ?_, fun hdetach => ?_⟩
  · rw [State.ioWrite_eq, State.deviceWrite_unbound _ (State.ioSlot_bind_eq_none IoSlot.write h)]
  · rintro r op w heven hlow hfind hop hstorage rfl
    rw [State.ioWrite_eq, State.deviceWrite_not_storage _ (State.boundWrite_of_find heven hlow hfind hop) hstorage]
  · refine ⟨_, rfl, ?_⟩
    rw [State.ioWrite_env, State.deviceWrite_bound _ (State.boundWrite_of_find heven hlow hfind hop),
      State.sectorEffect_ioTrace]
    rfl
  · rw [State.ioWrite_eq, if_pos hdetach]
    exact ⟨_, rfl, rfl, fun c hc => by rw [State.readByte_detachIpl, if_neg (Nat.not_lt.2 hc)]⟩

/-- Settles O43: a storage write is recorded, which may set the buffer address, then a sector may move to that address. -/
theorem outToStorageMovesAtMostASector : Obligations.OutToStorageMovesAtMostASector := by
  unfold Obligations.OutToStorageMovesAtMostASector
  rintro s rd port a base r op hport hio rfl heven hlow hfind hop hstorage rfl
  refine ⟨(s.recordWrite (s.effAddr port) op (s.readReg rd)).sectorEffect op, ?_, State.sectorEffect_frame op _ _ _,
    State.sectorEffect_env hstorage _, State.readByte_sectorEffect hstorage _⟩
  rw [exec_ioOut hport hio, State.ioWrite_eq,
    State.deviceWrite_bound _ (State.boundWrite_of_find heven hlow hfind hop)]

/-! ### What a step keeps of memory -/

/-- A property of memory, overlay and parameters that a byte write and the detach keep is kept by every update an instruction
is made of: the others leave these three fields alone. -/
theorem closedUnderExec_of_memory {P : State → Prop}
    (congr : ∀ s t : State, t.mem = s.mem → t.iplMode = s.iplMode → t.cfg = s.cfg → P s → P t)
    (writeByte : ∀ s a b, P s → P (s.writeByte a b)) (detachIpl : ∀ s : State, P s → P s.detachIpl) :
    ClosedUnderExec P where
  writeReg s r v := congr _ _ (s.writeReg_mem r v) (s.writeReg_iplMode r v) (s.writeReg_cfg r v)
  writeFlags _ _ := congr _ _ rfl rfl rfl
  aluFlags _ _ _ _ _ := congr _ _ rfl rfl rfl
  setPc _ _ := congr _ _ rfl rfl rfl
  writeByte := writeByte
  raise _ _ _ := congr _ _ rfl rfl rfl
  halt _ _ := congr _ _ rfl rfl rfl
  setEnv _ _ _ := congr _ _ rfl rfl rfl
  detachIpl s _ := detachIpl s

/-- A property every instruction keeps is kept by a step, when requests and interrupt check keep it. -/
theorem step_closed {P : State → Prop} (h : ClosedUnderExec P) {s t : State} (hs : P s.takeArrivals.interruptCheck)
    (ht : step s = .next t) : P t := by
  obtain ⟨-, i, pc, -, hx⟩ := step_cases ht
  exact exec_closed h i _ t (h.setPc _ pc hs) hx

/-- The canonical form is kept by a write and, a filter of the list, by the detach. -/
theorem closedUnderExec_memoryWf : ClosedUnderExec (fun u => u.mem.wf = true) :=
  closedUnderExec_of_memory (fun _ _ hm _ _ h => by rwa [hm]) State.wf_writeByte (fun s => Memory.wf_zeroFrom s.mem _)

/-- Settles O53: requests leave memory alone, entry pushes two words, and the instruction is made of updates that keep the
canonical form. -/
theorem stepKeepsMemoryCanonical : Obligations.StepKeepsMemoryCanonical := by
  unfold Obligations.StepKeepsMemoryCanonical
  intro s t hs ht
  exact step_closed closedUnderExec_memoryWf (State.wf_interruptCheck _ (by simpa using hs)) ht

/-- The window clause depends on memory, overlay and image; memory only where the overlay protects it. -/
theorem State.windowHoldsImage_congr {s t : State} (hi : t.iplMode = s.iplMode) (hc : t.cfg = s.cfg)
    (hr : s.iplMode = true → ∀ k, Memory.windowBase ≤ k → t.mem.read k = s.mem.read k) (h : s.windowHoldsImage) :
    t.windowHoldsImage := by
  intro ht k hk hlt
  have hs : s.iplMode = true := hi ▸ ht
  rw [hr hs k hk, h hs k hk hlt, hc]

/-- A write under the overlay does not reach the window, and after the detach nothing is claimed (20_memory.md R63, R65). -/
theorem closedUnderExec_windowHoldsImage : ClosedUnderExec State.windowHoldsImage := by
  refine closedUnderExec_of_memory (fun s t hm hi hc => ?_) (fun s a b => ?_) (fun s _ hi => ?_)
  · exact State.windowHoldsImage_congr hi hc (fun _ _ _ => by rw [hm])
  · exact State.windowHoldsImage_congr (s.writeByte_iplMode a b) (s.writeByte_cfg a b)
      (fun hi _ hk => s.read_writeByte_window a b hi hk)
  · exact absurd (show false = true from hi) Bool.false_ne_true

theorem interruptCheck_windowHoldsImage {s : State} (h : s.windowHoldsImage) : s.interruptCheck.windowHoldsImage := by
  rcases s.interruptCheck_cases with e | ⟨n, -, -, e⟩ <;> rw [e]
  · exact h
  · exact State.windowHoldsImage_congr (by simp) (by simp) (fun hi _ hk => State.read_enter_window _ n hi hk) h

/-- Settles O54: the pushes of entry and every write of an instruction leave the protected window alone. -/
theorem stepKeepsBootWindow : Obligations.StepKeepsBootWindow := by
  unfold Obligations.StepKeepsBootWindow
  intro s t hs ht
  have ha : s.takeArrivals.windowHoldsImage := State.windowHoldsImage_congr (by simp) (by simp) (by simp) hs
  exact step_closed closedUnderExec_windowHoldsImage (interruptCheck_windowHoldsImage ha) ht

/-! ### At most one exception is pending -/

namespace State

/-- At most one exception slot is pending when any two that are pending are the same (60_exceptions.md R325). -/
theorem pendingExceptions_le_one_iff (s : State) : s.pendingExceptions ≤ 1 ↔ ∀ m n : IntrNum, s.cfg.excFirst ≤ m →
    s.pend[m.val] = true → s.cfg.excFirst ≤ n → s.pend[n.val] = true → m = n := by
  have hnodup : slots.Nodup := by decide
  rw [pendingExceptions, ← List.toFinset_card_of_nodup (hnodup.filter _), Finset.card_le_one]
  simp only [List.mem_toFinset, List.mem_filter, mem_slots, true_and, Bool.and_eq_true, decide_eq_true_eq]
  exact ⟨fun h m n hm hpm hn hpn => h m ⟨hm, hpm⟩ n ⟨hn, hpn⟩, fun h m hm n hn => h m n hm.1 hm.2 hn.1 hn.2⟩

/-- The exception slots are looked at first (R313). -/
theorem nextIntr_of_exceptionPending {s : State} (h : s.exceptionPending = true) :
    ∃ n, s.nextIntr = some n ∧ s.cfg.excFirst ≤ n := by
  obtain ⟨m, hm, hp⟩ := s.exceptionPending_iff.1 h
  have hfind : ((slots.filter fun n => decide (s.cfg.excFirst ≤ n)).find? fun n => s.pend[n.val]).isSome = true :=
    List.find?_isSome.2 ⟨m, by simp [mem_slots, hm], hp⟩
  obtain ⟨n, hn⟩ := Option.isSome_iff_exists.1 hfind
  refine ⟨n, by rw [nextIntr, scanOrder, List.find?_append, hn]; rfl, ?_⟩
  simpa using (List.mem_filter.1 (List.mem_of_find?_eq_some hn)).2

/-- The check takes a pending exception whatever E is (R316). -/
theorem interruptCheck_of_exceptionPending {s : State} (h : s.exceptionPending = true) : ∃ n, s.cfg.excFirst ≤ n ∧
    s.pend[n.val] = true ∧ s.interruptCheck = (s.setPend (s.pend.set n.val false)).enter n := by
  obtain ⟨n, hn, hexc⟩ := nextIntr_of_exceptionPending h
  exact ⟨n, hexc, s.nextIntr_pending hn, by simp [interruptCheck, checkIntrNum, h, hn]⟩

/-- Without an exception pending, whatever the check does sets no slot. -/
theorem interruptCheck_pend_of_not_pending (s : State) {n : IntrNum} (h : s.pend[n.val] = false) :
    s.interruptCheck.pend[n.val] = false := by
  rcases s.interruptCheck_cases with e | ⟨m, -, -, e⟩ <;> rw [e]
  · exact h
  · simp only [enter_pend, setPend_pend, Vector.getElem_set]
    split
    · rfl
    · exact h

/-- After the check no exception is pending: the one that was has been taken (R316, R325). -/
theorem interruptCheck_no_exception {s : State} (h : s.pendingExceptions ≤ 1) {m : IntrNum} (hm : s.cfg.excFirst ≤ m) :
    s.interruptCheck.pend[m.val] = false := by
  cases hp : s.pend[m.val] with
  | false => exact s.interruptCheck_pend_of_not_pending hp
  | true =>
    obtain ⟨n, hn, hpn, e⟩ := interruptCheck_of_exceptionPending (s.exceptionPending_iff.2 ⟨m, hm, hp⟩)
    have hmn : m = n := s.pendingExceptions_le_one_iff.1 h m n hm hp hn hpn
    rw [e, hmn]
    simp

theorem takeArrivals_pendingExceptions {s : State} (h : s.pendingExceptions ≤ 1) :
    s.takeArrivals.pendingExceptions ≤ 1 := by
  rw [pendingExceptions_le_one_iff] at h ⊢
  rw [takeArrivals_cfg]
  intro m n hm hpm hn hpn
  rw [s.takeArrivals_exception _ hm] at hpm
  rw [s.takeArrivals_exception _ hn] at hpn
  exact h m n hm hpm hn hpn

end State

/-- From a state with no exception pending an instruction leaves at most one (R325). -/
theorem exec_pendingExceptions {i : Instr} {s t : State} (ht : exec i s = .next t)
    (h : ∀ m : IntrNum, s.cfg.excFirst ≤ m → s.pend[m.val] = false) : t.pendingExceptions ≤ 1 := by
  rw [State.pendingExceptions_le_one_iff, exec_cfg ht]
  intro m n hm hpm hn hpn
  rcases exec_pend ht with hp | ⟨k, -, hp⟩
  · simp [hp, h m hm] at hpm
  · have only : ∀ j : IntrNum, s.cfg.excFirst ≤ j → t.pend[j.val] = true → j = k := by
      intro j hj hpj
      by_contra hne
      have hv : k.val ≠ j.val := fun hv => hne (Fin.ext hv.symm)
      simp [hp, Vector.getElem_set_ne _ _ hv, h j hj] at hpj
    rw [only m hm hpm, only n hn hpn]

/-- A step takes the exception that is pending before its instruction can raise another (R325). -/
theorem step_pendingExceptions {s t : State} (h : s.pendingExceptions ≤ 1) (ht : step s = .next t) :
    t.pendingExceptions ≤ 1 := by
  obtain ⟨-, i, pc, -, hx⟩ := step_cases ht
  refine exec_pendingExceptions hx (fun m hm => ?_)
  exact State.interruptCheck_no_exception (State.takeArrivals_pendingExceptions h) (by simpa using hm)

/-! ### The invariant of every reachable state -/

theorem step_inv {s t : State} (h : s.Inv) (ht : step s = .next t) : t.Inv where
  config := by rw [(stepKeepsConfiguration s t ht).1]; exact h.config
  memory := stepKeepsMemoryCanonical s t h.memory ht
  exception := step_pendingExceptions h.exception ht
  window := stepKeepsBootWindow s t h.window ht

/-- Reset clears every slot and loads the image (70_reset_and_hazards.md R350, 20_memory.md R64). -/
theorem performReset_inv {s : State} (hc : s.cfg.wf = true) (hm : s.mem.wf = true) : s.performReset.Inv where
  config := hc
  memory := Memory.wf_loadIpl s.mem s.cfg.iplImage hm
  exception := (State.pendingExceptions_le_one_iff _).2 (fun m _ _ hp => by simp [State.performReset] at hp)
  window := performReset_windowHoldsImage s

/-- Settles O56: reset establishes the invariant and every step keeps it. -/
theorem reachableStatesSatisfyInvariant : Obligations.ReachableStatesSatisfyInvariant := by
  unfold Obligations.ReachableStatesSatisfyInvariant
  refine ⟨fun s t => step_inv, fun s hs => ?_⟩
  induction hs with
  | reset s hc hm => exact performReset_inv hc hm
  | step s t _ ht ih => exact step_inv ih ht

end Sys2Proof.Machine
end

section
/-! PROOFS of the family 30_encoding.md: the round trip of encoder and decoder, the length of an instruction, the fields a
decoder ignores, and the undefined rows. -/

namespace Sys2Proof

/-! ### The decoder, by operation (R104, R107, R108) -/

section OneOperation

variable {w : Word} (e : Word)

theorem decodeWords_nop (h : opField w = 0) : decodeWords w e = .nop := by simp [decodeWords, h]

theorem decodeWords_svc (h : opField w = 30) : decodeWords w e = .svc := by simp [decodeWords, h]

theorem decodeWords_halt (h : opField w = 31) : decodeWords w e = .halt := by simp [decodeWords, h]

theorem decodeWords_call (h : opField w = 21) :
    decodeWords w e = .call (.ofFields (modeField w) (rxField w) e) := by simp [decodeWords, h]

theorem decodeWords_jump (h : opField w = 20) :
    decodeWords w e = decodeJump (rdField w) (.ofFields (modeField w) (rxField w) e) := by simp [decodeWords, h]

theorem decodeWords_stack (h : opField w = 24) :
    decodeWords w e = decodeStack (modeField w) (.ofBits (rdField w)) (.ofBits (rxField w)) := by simp [decodeWords, h]

theorem decodeWords_return (h : opField w = 26) :
    decodeWords w e = decodeReturn (modeField w) (.ofBits (rdField w)) (.ofBits (rxField w)) := by simp [decodeWords, h]

end OneOperation

/-! ### Decoding an encoding -/

section RoundTrip

variable {i : Instr} {op : BitVec 5} {mode : BitVec 3} {rd rx : BitVec 4} {o : Operand}

/-- An operation with an operand decodes from its bytes when its fields decode to it; `hfields` is told that the operand's
own fields give the operand back (R101, R104, R111). -/
theorem decode_encodeBytes_operand (henc : encode i = operandWords op rd o) (hop : isOneWordOp op = false)
    (hfields : ∀ e, Operand.ofFields o.mode o.rxBits e = o → decodeWords (firstWord op o.mode rd o.rxBits) e = i)
    (hwf : o.wellFormed = true) (rest : List Byte) : decode (encodeBytes i ++ rest) = .ok (i, rest) := by
  rw [encodeBytes, henc]
  exact decode_operandWords op rd o i rest hop fun e he => hfields e (o.ofFields_mode e hwf he)

/-- A one-word operation decodes from its two bytes when its fields decode to it (R109, R110). -/
theorem decode_encodeBytes_oneWord (henc : encode i = [firstWord op mode rd rx]) (hop : isOneWordOp op = true)
    (hfields : decodeWords (firstWord op mode rd rx) 0 = i) (rest : List Byte) :
    decode (encodeBytes i ++ rest) = .ok (i, rest) := by
  rw [encodeBytes, henc, List.flatMap_singleton, decode_oneWord, hfields]
  simp [hasExtension, hop]

end RoundTrip

/-- Settles O2: each instruction is encoded as an operation with an operand or as one word, and its fields decode to it. -/
theorem decodeEncodeRoundTrip : Obligations.DecodeEncodeRoundTrip := by
  unfold Obligations.DecodeEncodeRoundTrip
  intro i rest hwf
  cases i
  case nop => exact decode_encodeBytes_oneWord rfl rfl (decodeWords_nop 0 (by simp)) rest
  case svc => exact decode_encodeBytes_oneWord rfl rfl (decodeWords_svc 0 (by simp)) rest
  case halt => exact decode_encodeBytes_oneWord rfl rfl (decodeWords_halt 0 (by simp)) rest
  case push | pop | undefStack1 | undefStack2 | undefStack3 | undefStack5 | undefStack6 | undefStack7 =>
    exact decode_encodeBytes_oneWord rfl rfl (by simp [decodeWords_stack, decodeStack]) rest
  case ret | reti | undefReturn1 | undefReturn2 | undefReturn3 | undefReturn5 | undefReturn6 | undefReturn7 =>
    exact decode_encodeBytes_oneWord rfl rfl (by simp [decodeWords_return, decodeReturn]) rest
  case jz | jc | jm | jo | jgt | jge | jle | jlt | jnz | jnc | jnm | jno | jhi | jls | jmp | undefJump14 =>
    exact decode_encodeBytes_operand rfl rfl (fun e ho => by simp [decodeWords_jump, decodeJump, ho]) hwf rest
  all_goals exact decode_encodeBytes_operand rfl rfl (fun e ho => by simp [decodeWords, ho]) hwf rest

/-! ### The length of an instruction -/

/-- A decoded instruction is well formed, whatever the words (R115). Case `h_n` of the split is op n - 1. -/
theorem wellFormed_decodeWords (w e : Word) : (decodeWords w e).wellFormed = true := by
  have ho := Operand.wellFormed_ofFields (modeField w) (rxField w) e
  unfold decodeWords
  dsimp only
  split
  case h_21 => exact wellFormed_decodeJump _ _ ho
  case h_25 => exact wellFormed_decodeStack _ _ _
  case h_27 => exact wellFormed_decodeReturn _ _ _
  case h_1 | h_31 | h_32 => rfl
  all_goals exact ho

/-- Four bytes hold the first word and its extension, if it has one (R101, R110). -/
theorem decode_fourBytes (b0 b1 b2 b3 : Byte) (rest : List Byte) : decode (b0 :: b1 :: b2 :: b3 :: rest) =
    if hasExtension (wordOfBytes b0 b1) then .ok (decodeWords (wordOfBytes b0 b1) (wordOfBytes b2 b3), rest)
    else .ok (decodeWords (wordOfBytes b0 b1) 0, b2 :: b3 :: rest) := rfl

/-- The first byte alone says whether an extension word follows (R100, R110). -/
theorem hasExtension_wordOfBytes (b0 b1 : Byte) : hasExtension (wordOfBytes b0 b1) = true ↔
    ¬(b0.toNat / 8 = 0 ∨ b0.toNat / 8 = 24 ∨ b0.toNat / 8 = 26 ∨ b0.toNat / 8 = 30 ∨ b0.toNat / 8 = 31) ∧
      (b0.toNat % 8 = 0 ∨ b0.toNat % 8 = 1 ∨ b0.toNat % 8 = 2) := by
  simp only [hasExtension, isOneWordOp, opField_wordOfBytes, modeField_wordOfBytes, Bool.and_eq_true, Bool.not_eq_true',
    Bool.or_eq_false_iff, beq_eq_false_iff_ne, decide_eq_true_eq]
  omega

/-- Settles O3: four bytes are always enough, and the first of them decides how many are used. -/
theorem everyWordDecodesWithItsLength : Obligations.EveryWordDecodesWithItsLength := by
  unfold Obligations.EveryWordDecodesWithItsLength
  intro b0 b1 b2 b3 rest
  have hext := hasExtension_wordOfBytes b0 b1
  rw [decode_fourBytes]
  cases h : hasExtension (wordOfBytes b0 b1) with
  | true =>
    obtain ⟨hop, hmode⟩ := hext.1 h
    exact ⟨_, _, rfl, wellFormed_decodeWords _ _, by rw [if_neg hop, if_pos hmode]⟩
  | false =>
    have hone := mt hext.2 (Bool.eq_false_iff.1 h)
    refine ⟨_, _, rfl, wellFormed_decodeWords _ _, ?_⟩
    split
    · rfl
    · next hop => rw [if_neg fun hmode => hone ⟨hop, hmode⟩]

/-! ### Ignored fields -/

/-- PUSH and POP do not read rx (R108, R109). -/
theorem decodeStack_ignores_rx {m : BitVec 3} (hm : m = 0 ∨ m = 4) (rd rx rx' : Reg) :
    decodeStack m rd rx = decodeStack m rd rx' := by
  rcases hm with rfl | rfl <;> rfl

/-- RET and RETI read no register field (R108, R109). -/
theorem decodeReturn_ignores_registers {m : BitVec 3} (hm : m = 0 ∨ m = 4) (rd rd' rx rx' : Reg) :
    decodeReturn m rd rx = decodeReturn m rd' rx' := by
  rcases hm with rfl | rfl <;> rfl

/-- Direct and immediate modes do not read rx (R106). -/
theorem Operand.ofFields_ignores_rx {m : BitVec 3} (hm : m = 0 ∨ m = 2) (rx rx' : BitVec 4) (e : Word) :
    Operand.ofFields m rx e = Operand.ofFields m rx' e := by
  rcases hm with rfl | rfl <;> rfl

/-- But for ops 24 and 26, rx counts through the operand only (R104, R106). Case `h_n` of the split is op
n - 1. -/
theorem decodeWords_congr {w w' e e' : Word} (hop : opField w = opField w') (h24 : opField w ≠ 24) (h26 : opField w ≠ 26)
    (hrd : rdField w = rdField w')
    (ho : Operand.ofFields (modeField w) (rxField w) e = Operand.ofFields (modeField w') (rxField w') e') :
    decodeWords w e = decodeWords w' e' := by
  unfold decodeWords
  rw [← hop, ← hrd, ← ho]
  dsimp only
  split
  case h_25 h => exact absurd (BitVec.eq_of_toNat_eq h) h24
  case h_27 h => exact absurd (BitVec.eq_of_toNat_eq h) h26
  all_goals rfl

/-- Settles O4: each operation by its own equation, and the two modes by the operand that does not read rx. -/
theorem ignoredFieldsDoNotMatter : Obligations.IgnoredFieldsDoNotMatter := by
  unfold Obligations.IgnoredFieldsDoNotMatter
  intro w w' e e' hop
  refine ⟨?_, fun h hm hmode hrd => ?_, fun h hm hmode => ?_, fun h hmode hrx => ?_, fun h24 h26 hm hmode hrd => ?_⟩
  · rintro (h | h | h)
    · rw [decodeWords_nop e h, decodeWords_nop e' (hop ▸ h)]
    · rw [decodeWords_svc e h, decodeWords_svc e' (hop ▸ h)]
    · rw [decodeWords_halt e h, decodeWords_halt e' (hop ▸ h)]
  · rw [decodeWords_stack e h, decodeWords_stack e' (hop ▸ h), ← hmode, ← hrd]
    exact decodeStack_ignores_rx hm _ _ _
  · rw [decodeWords_return e h, decodeWords_return e' (hop ▸ h), ← hmode]
    exact decodeReturn_ignores_registers hm _ _ _ _
  · rw [decodeWords_call e h, decodeWords_call e (hop ▸ h), hmode, hrx]
  · refine decodeWords_congr hop h24 h26 hrd ?_
    rw [← hmode]
    exact Operand.ofFields_ignores_rx hm _ _ e

/-! ### Words written out -/

/-- Settles O1: the decoder runs on each word. -/
theorem writtenOutWordsDecode : Obligations.WrittenOutWordsDecode := by
  unfold Obligations.WrittenOutWordsDecode
  decide

end Sys2Proof

namespace Sys2Proof.Machine

open Sys2Proof

/-! ### Undefined operations -/

/-- The condition no jump has (R113). -/
theorem exec_decodeJump_undefined {c : BitVec 4} (h : c.toNat = 14) (dst : Operand) (s : State) :
    exec (decodeJump c dst) s = .next (undefinedEffect s) := by
  simp only [decodeJump, h]; rfl

/-- The modes neither PUSH nor POP has (R113); case `h_n` of the split is mode n - 1. -/
theorem exec_decodeStack_reserved {m : BitVec 3} (h0 : m.toNat ≠ 0) (h4 : m.toNat ≠ 4) (rd rx : Reg) (s : State) :
    exec (decodeStack m rd rx) s = .next (undefinedEffect s) := by
  unfold decodeStack
  split
  case h_1 h => exact absurd h h0
  case h_5 h => exact absurd h h4
  all_goals rfl

/-- The modes neither RET nor RETI has (R113); case `h_n` of the split is mode n - 1. -/
theorem exec_decodeReturn_reserved {m : BitVec 3} (h0 : m.toNat ≠ 0) (h4 : m.toNat ≠ 4) (rd rx : Reg) (s : State) :
    exec (decodeReturn m rd rx) s = .next (undefinedEffect s) := by
  unfold decodeReturn
  split
  case h_1 h => exact absurd h h0
  case h_5 h => exact absurd h h4
  all_goals rfl

/-- The undefined opcodes, in every mode (R112). -/
theorem exec_decodeWords_undefinedOp {w : Word} (h : (opField w).toNat ∈ [13, 14, 15, 25, 27, 28, 29]) (e : Word)
    (s : State) : exec (decodeWords w e) s = .next (undefinedEffect s) := by
  unfold decodeWords
  generalize (opField w).toNat = n at h
  fin_cases h <;> rfl

/-- Settles O5: every undefined row has the one effect, and every undefined word decodes to such a row. -/
theorem undefinedOperationsRaise : Obligations.UndefinedOperationsRaise := by
  unfold Obligations.UndefinedOperationsRaise
  refine ⟨fun s rd rx o i hi => ?_, fun w e s h => ?_⟩
  · fin_cases hi <;> rfl
  · rcases h with h | ⟨h, hrd⟩ | ⟨h | h, h0, h4⟩
    · exact exec_decodeWords_undefinedOp h e s
    · rw [decodeWords_jump e (BitVec.eq_of_toNat_eq h)]
      exact exec_decodeJump_undefined hrd _ s
    · rw [decodeWords_stack e (BitVec.eq_of_toNat_eq h)]
      exact exec_decodeStack_reserved h0 h4 _ _ s
    · rw [decodeWords_return e (BitVec.eq_of_toNat_eq h)]
      exact exec_decodeReturn_reserved h0 h4 _ _ s

end Sys2Proof.Machine
end

section
/-! PROOFS of the family 40_cycle.md: the instruction a step runs, the completion of every instruction, and the operand of
each addressing mode. -/

namespace Sys2Proof.Machine

open Sys2Proof

/-! ### Fetch and step -/

/-- pc advances where the policy wraps it or it stays inside (10_state.md R35). -/
theorem nextPc_ok {policy : PcOverflow} {p : Word} (h : policy = .wrap ∨ p.toNat + 2 < 0x10000) :
    nextPc policy p = .ok (p + 2) := by
  rcases h with rfl | h
  · rfl
  · cases policy with
    | wrap => rfl
    | fault => exact nextPc_inside h

namespace State

variable {s : State}

/-- Without an extension word pc advances once (40_cycle.md R131, 30_encoding.md R110). -/
theorem fetch_oneWord (hext : hasExtension (s.readWord s.pc) = false)
    (hpc : s.cfg.pcOverflow = .wrap ∨ s.pc.toNat + 2 < 0x10000) :
    s.fetch = .ok (decodeWords (s.readWord s.pc) 0, s.setPc (s.pc + 2)) := by
  simp [fetch, nextPc_ok hpc, hext]

/-- With an extension word pc advances twice, and the second word counts (R131, R139). -/
theorem fetch_twoWords (hext : hasExtension (s.readWord s.pc) = true)
    (hpc : s.cfg.pcOverflow = .wrap ∨ s.pc.toNat + 4 < 0x10000) :
    s.fetch = .ok (decodeWords (s.readWord s.pc) (s.readWord (s.pc + 2)), s.setPc (s.pc + 4)) := by
  have hfirst : s.cfg.pcOverflow = .wrap ∨ s.pc.toNat + 2 < 0x10000 := hpc.imp_right fun h => by omega
  have hsecond : s.cfg.pcOverflow = .wrap ∨ (s.pc + 2).toNat + 2 < 0x10000 := hpc.imp_right fun h => by bv_omega
  have hsum : s.pc + 2 + 2 = s.pc + 4 := by rw [BitVec.add_assoc]; rfl
  simp only [fetch, nextPc_ok hfirst, nextPc_ok hsecond, hext, hsum, if_true]

/-- The fetch gives what the four bytes at pc decode to, with pc after the bytes used (R130, R131, R139). -/
theorem fetch_of_decode {i : Instr} {rest : List Byte}
    (hd : decode [s.readByte s.pc, s.readByte (s.pc + 1), s.readByte (s.pc + 2), s.readByte (s.pc + 3)] = .ok (i, rest))
    (hpc : s.cfg.pcOverflow = .wrap ∨ s.pc.toNat + (4 - rest.length) < 0x10000) :
    s.fetch = .ok (i, s.setPc (s.pc + BitVec.ofNat 16 (4 - rest.length))) := by
  have hw : wordOfBytes (s.readByte s.pc) (s.readByte (s.pc + 1)) = s.readWord s.pc := rfl
  have he : wordOfBytes (s.readByte (s.pc + 2)) (s.readByte (s.pc + 3)) = s.readWord (s.pc + 2) := by
    rw [readWord, BitVec.add_assoc]; rfl
  rw [decode_fourBytes, hw, he] at hd
  cases hext : hasExtension (s.readWord s.pc) with
  | true =>
    rw [if_pos hext] at hd
    cases hd
    exact fetch_twoWords hext hpc
  | false =>
    rw [if_neg (by simp [hext])] at hd
    cases hd
    exact fetch_oneWord hext hpc

end State

theorem step_of_fetch {s t : State} {i : Instr} (hs : s.halted = false)
    (hf : s.takeArrivals.interruptCheck.fetch = .ok (i, t)) : step s = exec i t := by
  simp [step, hs, hf]

/-- Settles O6: the fetch of the state the check left decodes the bytes at its pc. -/
theorem stepRunsDecodedInstruction : Obligations.StepRunsDecodedInstruction := by
  unfold Obligations.StepRunsDecodedInstruction
  rintro s t i rest hs rfl hd hpc
  exact step_of_fetch hs (State.fetch_of_decode hd hpc)

/-- Every instruction completes (40_cycle.md R144, 60_exceptions.md R310). -/
theorem exec_next (i : Instr) (s : State) : ∃ t, exec i s = .next t := by
  cases instrGroup i with
  | alu op rd src => exact ⟨_, exec_aluInstr op rd src s⟩
  | jump i dst h => obtain ⟨taken, h⟩ := h s; exact ⟨_, h⟩
  | undefined i h => exact ⟨_, h s⟩
  | nop | ld | st | call | ioIn | ioOut | push | pop | ret | reti | svc | halt => exact ⟨_, rfl⟩

/-- Settles O8: four bytes always decode, a wrapping pc never stops the fetch, and every instruction completes. -/
theorem runningCoreHasNextState : Obligations.RunningCoreHasNextState := by
  unfold Obligations.RunningCoreHasNextState
  refine ⟨exec_next, fun s hs hwrap => ?_, fun s r => ?_⟩
  · obtain ⟨i, rest, hd, -, -⟩ := everyWordDecodesWithItsLength _ _ _ _ []
    have hpc : s.takeArrivals.interruptCheck.cfg.pcOverflow = .wrap := by simpa using hwrap
    rw [stepRunsDecodedInstruction s _ i rest hs rfl hd (.inl hpc)]
    exact exec_next i _
  · unfold step
    split
    · exact nofun
    · split
      · exact nofun
      · next i t _ =>
        obtain ⟨u, hu⟩ := exec_next i t
        rw [hu]
        exact nofun

/-! ### Operands -/

namespace State

variable (s : State)

/-- Indexed mode adds modulo 2^16 (40_cycle.md R133). -/
theorem effAddr_indexed_toNat (ext : Word) (rx : Reg) :
    (s.effAddr (.indexed ext rx)).toNat = (ext.toNat + (s.readReg rx).toNat) % 0x10000 :=
  BitVec.toNat_add ext (s.readReg rx)

/-- The FP-relative displacement is signed, and the sum is modulo 2^16 (R134). -/
theorem effAddr_fpRel_toNat (d : Int) : ((s.effAddr (.fpRel d)).toNat : Int) = ((s.fp.toNat : Int) + d) % 0x10000 := by
  have he : s.effAddr (.fpRel d) = s.fp + BitVec.ofInt 16 d := rfl
  rw [he, BitVec.toNat_add, BitVec.toNat_ofInt]
  omega

/-- A short immediate is sign-extended (R138). -/
theorem loadOperand_shortImm_toInt {v : Int} (hlo : -8 ≤ v) (hhi : v ≤ 7) : (s.loadOperand (.shortImm v)).toInt = v := by
  have hv : s.loadOperand (.shortImm v) = BitVec.ofInt 16 v := rfl
  rw [hv]
  exact BitVec.toInt_ofInt_eq_self (by omega) (by omega) (by omega)

/-- A byte operand is zero-extended (R138). -/
theorem loadOperand_byteIndirect_toNat (rx : Reg) :
    (s.loadOperand (.byteIndirect rx)).toNat = (s.readByte (s.effAddr (.byteIndirect rx))).toNat :=
  BitVec.toNat_setWidth_of_le (by decide)

end State

/-- Settles O18: the sums, the sign and the zero extension by their own lemmas, the other modes by definition. -/
theorem operandAddressing : Obligations.OperandAddressing := by
  unfold Obligations.OperandAddressing
  exact fun s ext rx d v => ⟨rfl, s.effAddr_indexed_toNat ext rx, s.effAddr_fpRel_toNat d, rfl, rfl, rfl, rfl, rfl, rfl,
    rfl, rfl, rfl, rfl, rfl, s.loadOperand_shortImm_toInt, s.loadOperand_byteIndirect_toNat rx⟩

/-! ### Targets without an effective address -/

/-- Immediate, register and short immediate are modes 2, 4 and 5 (40_cycle.md R136). -/
theorem hasEffAddr_eq_false {o : Operand} (h : o.mode = 2 ∨ o.mode = 4 ∨ o.mode = 5) : hasEffAddr o = false := by
  cases o with
  | immediate _ | register _ | shortImm _ => rfl
  | direct _ | indexed _ _ | fpRel _ | indirect _ | byteIndirect _ => simp [Operand.mode] at h

namespace State

variable {s : State} {o : Operand}

theorem effAddr_of_not_hasEffAddr (h : hasEffAddr o = false) : s.effAddr o = 0 := by
  cases o with
  | immediate _ | register _ | shortImm _ => rfl
  | direct _ | indexed _ _ | fpRel _ | indirect _ | byteIndirect _ => simp [hasEffAddr] at h

/-- Under `undefined_trap` the undefined operation takes the operation's place (R140). -/
theorem withTarget_undefinedTrap (hp : s.cfg.noEaPolicy = .undefinedTrap) (h : hasEffAddr o = false)
    (f : Word → State → State) : s.withTarget o f = s.raise s.cfg.intrUndef := by
  simp [withTarget, targetAllowed, hp, h]

end State

/-- ST, the jumps, CALL, IN and OUT: the instructions that use their operand as a target (R140). -/
def targetInstrs (rd : Reg) (o : Operand) : List Instr :=
  [.st rd o, .jz o, .jc o, .jm o, .jo o, .jgt o, .jge o, .jle o, .jlt o, .jnz o, .jnc o, .jnm o, .jno o, .jhi o, .jls o,
    .jmp o, .call o, .ioIn rd o, .ioOut rd o]

theorem exec_targetInstr {rd : Reg} {o : Operand} {i : Instr} (hi : i ∈ targetInstrs rd o) (s : State) :
    ∃ f, exec i s = .next (s.withTarget o f) := by
  unfold targetInstrs at hi
  fin_cases hi <;> exact ⟨_, rfl⟩

/-- Settles O19: each of the instructions is one operation on its target, which the policy replaces. -/
theorem targetWithoutAddress : Obligations.TargetWithoutAddress := by
  unfold Obligations.TargetWithoutAddress
  intro s rd o hmode
  have hno := hasEffAddr_eq_false hmode
  refine ⟨State.effAddr_of_not_hasEffAddr hno, fun hp i hi => ?_⟩
  obtain ⟨f, hf⟩ := exec_targetInstr (rd := rd) hi s
  rw [hf, State.withTarget_undefinedTrap hp hno]
  rfl

end Sys2Proof.Machine
end

section
/-! PROOFS of the family 41_load_store.md: what NOP and LD do. -/

namespace Sys2Proof.Machine

open Sys2Proof

/-- NOP ends in the state it starts in (R160). -/
@[simp] theorem exec_nop (s : State) : exec .nop s = .next s := rfl

/-- LD is one register write of its operand; for index 15 `writeReg` masks it (R161, R33). -/
@[simp] theorem exec_ld (s : State) (rd : Reg) (src : Operand) :
    exec (.ld rd src) s = .next (s.writeReg rd (s.loadOperand src)) := rfl

/-- Settles O20: the two equations of the executor. -/
theorem nopAndLd : Obligations.NopAndLd := by
  unfold Obligations.NopAndLd
  exact fun s rd src => ⟨exec_nop s, exec_ld s rd src⟩

end Sys2Proof.Machine
end

section
/-! PROOFS of the family 42_alu.md: the result and the flags of each ALU operation, what V says of signed numbers, and what
the jumps after CMP compare. -/

namespace Sys2Proof.Machine

open Sys2Proof

/-! ### One equation for the ALU group -/

/-- The flag byte of an operation, from its truncated result and its V and C (42_alu.md R200). -/
theorem flagUpdate_eq {cfg : Config} {op : AluOp} {v1 v2 t : Word} {r : Int} {v c : Bool} (b : Byte) (ht : trunc16 r = t)
    (hv : overflowOf cfg.subVRule op v1 v2 t = v) (hc : carryOf cfg.shiftCTest op v2 r = c) :
    flagUpdate cfg op v1 v2 r b = withVCSZ b v c (t.getLsbD 15) (decide (t = 0)) := by
  subst ht hv hc
  simp only [flagUpdate, BitVec.msb_eq_getLsbD_last]
  rfl

section AluStored

variable {op : AluOp} {rd : Reg} {src : Operand} {s : State} {t : Word} {v c : Bool}

/-- Where the divisor is not zero, the flags before the store are the only change (R184, R185). -/
theorem aluFlagged_of_not_dividesByZero (hz : dividesByZero op (s.loadOperand src) = false)
    (ht : trunc16 (aluResult op (s.readReg rd) (s.loadOperand src)) = t)
    (hv : overflowOf s.cfg.subVRule op (s.readReg rd) (s.loadOperand src) t = v)
    (hc : carryOf s.cfg.shiftCTest op (s.loadOperand src) (aluResult op (s.readReg rd) (s.loadOperand src)) = c) :
    aluFlagged op rd src s = s.setFlags (withVCSZ s.flags v c (t.getLsbD 15) (decide (t = 0))) := by
  rw [aluFlagged, hz, flagUpdate_eq s.flags ht hv hc]
  rfl

/-- An operation that stores its result, with a divisor that is not zero: the flag update, then the store (R185, R200). -/
theorem exec_aluInstr_store (hop : op ≠ .cmp) (hz : dividesByZero op (s.loadOperand src) = false)
    (ht : trunc16 (aluResult op (s.readReg rd) (s.loadOperand src)) = t)
    (hv : overflowOf s.cfg.subVRule op (s.readReg rd) (s.loadOperand src) t = v)
    (hc : carryOf s.cfg.shiftCTest op (s.loadOperand src) (aluResult op (s.readReg rd) (s.loadOperand src)) = c) :
    exec (aluInstr op rd src) s =
      .next ((s.setFlags (withVCSZ s.flags v c (t.getLsbD 15) (decide (t = 0)))).writeReg rd t) := by
  rw [exec_aluInstr, aluEffect_eq_aluFlagged, if_neg hop, aluFlagged_of_not_dividesByZero hz ht hv hc, ht]

end AluStored

/-! ### SUB and CMP -/

/-- The V of a difference, whose rule is a parameter (R201). -/
theorem overflowOf_sub (rule : SubVRule) (v1 v2 t : Word) : overflowOf rule .sub v1 v2 t =
    ((if rule = .standard then v1.getLsbD 15 != v2.getLsbD 15 else v1.getLsbD 15 == v2.getLsbD 15) &&
      t.getLsbD 15 != v1.getLsbD 15) := by
  cases rule <;> simp only [overflowOf, BitVec.msb_eq_getLsbD_last] <;> rfl

/-- Settles O23: CMP is the flag update of SUB without its store, and C of a difference is the borrow. -/
theorem subAndCmpCompute : Obligations.SubAndCmpCompute := by
  unfold Obligations.SubAndCmpCompute
  rintro s rd src v1 v2 t v rfl rfl rfl rfl
  have ht := trunc16_sub (s.readReg rd) (s.loadOperand src)
  have hv := overflowOf_sub s.cfg.subVRule (s.readReg rd) (s.loadOperand src) (s.readReg rd - s.loadOperand src)
  have hc := bit16_sub (s.readReg rd) (s.loadOperand src)
  exact ⟨congrArg Host.Outcome.next (aluFlagged_of_not_dividesByZero (op := .cmp) rfl ht hv hc),
    exec_aluInstr_store (op := .sub) nofun rfl ht hv hc⟩

/-! ### AND, OR, XOR, ADDS and MUL -/

/-- Settles O24: the result is a word already, and these operations clear V and C. -/
theorem logicComputes : Obligations.LogicComputes := by
  unfold Obligations.LogicComputes
  rintro s rd src v1 v2 rfl rfl
  exact ⟨exec_aluInstr_store (op := .and) nofun rfl (trunc16_toNat _) rfl rfl,
    exec_aluInstr_store (op := .or) nofun rfl (trunc16_toNat _) rfl rfl,
    exec_aluInstr_store (op := .xor) nofun rfl (trunc16_toNat _) rfl rfl⟩

/-- Settles O25: the result is a natural number, truncated, and these operations clear V and C. -/
theorem addsAndMulCompute : Obligations.AddsAndMulCompute := by
  unfold Obligations.AddsAndMulCompute
  rintro s rd src v1 v2 a m rfl rfl ha hm
  exact ⟨exec_aluInstr_store (op := .adds) nofun rfl (trunc16_natCast _ a ha) rfl rfl,
    exec_aluInstr_store (op := .mul) nofun rfl (trunc16_natCast _ m hm) rfl rfl⟩

/-! ### DIV and MOD -/

/-- A divisor other than zero raises nothing (R184). -/
theorem dividesByZero_eq_false (op : AluOp) {v2 : Word} (h : v2 ≠ 0) : dividesByZero op v2 = false := by
  cases op with
  | div | mod => exact beq_false_of_ne h
  | add | sub | cmp | and | or | xor | adds | mul | shla | shll | shra | shrl => rfl

/-- DIV is the quotient of natural numbers (R218). -/
theorem aluResult_div {v1 v2 q : Word} (h : v2 ≠ 0) (hq : q.toNat = v1.toNat / v2.toNat) :
    aluResult .div v1 v2 = q.toNat := by
  rw [aluResult, if_neg h, hq, Int.natCast_div]

/-- MOD is the remainder of natural numbers (R219). -/
theorem aluResult_mod {v1 v2 m : Word} (h : v2 ≠ 0) (hm : m.toNat = v1.toNat % v2.toNat) :
    aluResult .mod v1 v2 = m.toNat := by
  rw [aluResult, if_neg h, hm, Int.natCast_emod, Int.emod_def]

/-- A zero divisor gives 0 (R186). -/
theorem aluResult_of_dividesByZero {op : AluOp} {v2 : Word} (v1 : Word) (h : dividesByZero op v2 = true) :
    aluResult op v1 v2 = 0 := by
  rcases div_or_mod_of_dividesByZero h with rfl | rfl
  · exact if_pos (eq_of_beq h)
  · exact if_pos (eq_of_beq h)

/-- Division by zero raises its exception, gives 0 and sets Z only (R184, R186). -/
theorem exec_aluInstr_dividesByZero {op : AluOp} {s : State} {src : Operand} (rd : Reg)
    (hz : dividesByZero op (s.loadOperand src) = true) : exec (aluInstr op rd src) s =
      .next (((s.setPend (s.pend.set s.cfg.intrZdiv true)).setFlags
        (withVCSZ s.flags false false false true)).writeReg rd 0) := by
  rw [exec_aluInstr, aluEffect_eq_aluFlagged, aluFlagged, hz, aluResult_of_dividesByZero _ hz]
  rcases div_or_mod_of_dividesByZero hz with rfl | rfl <;> rfl

/-- Settles O26: a nonzero divisor gives the quotient and the remainder of natural numbers, zero the exception. -/
theorem divAndModCompute : Obligations.DivAndModCompute := by
  unfold Obligations.DivAndModCompute
  rintro s rd src v1 v2 q m rfl rfl
  refine ⟨fun hne hq => ?_, fun hne hm => ?_, fun hz i hi => ?_⟩
  · refine exec_aluInstr_store (op := .div) nofun (dividesByZero_eq_false _ hne) ?_ rfl rfl
    rw [aluResult_div hne hq, trunc16_toNat]
  · refine exec_aluInstr_store (op := .mod) nofun (dividesByZero_eq_false _ hne) ?_ rfl rfl
    rw [aluResult_mod hne hm, trunc16_toNat]
  · obtain rfl | rfl : i = .div rd src ∨ i = .mod rd src := by simpa using hi
    · exact exec_aluInstr_dividesByZero (op := .div) rd (beq_of_eq hz)
    · exact exec_aluInstr_dividesByZero (op := .mod) rd (beq_of_eq hz)

/-! ### The shifts -/

/-- The test for a count of one, in arithmetic (R203). -/
theorem shiftCountIsOne_eq (s : State) (v2 : Word) : shiftCountIsOne s.cfg.shiftCTest v2 = s.shiftsByOne v2 := by
  unfold State.shiftsByOne
  cases s.cfg.shiftCTest with
  | count => simp [shiftCountIsOne, shiftCount_eq, Bool.beq_eq_decide_eq]
  | operand => simp [shiftCountIsOne, BitVec.toNat_eq, Bool.beq_eq_decide_eq]

/-- Under either test a shift that passes it is by one. -/
theorem shiftCount_of_shiftsByOne {s : State} {v2 : Word} (h : s.shiftsByOne v2 = true) : shiftCount v2 = 1 := by
  rw [shiftCount_eq]
  unfold State.shiftsByOne at h
  split at h <;> simp at h <;> omega

/-- The bit a left shift by one moves out (R202). -/
theorem bit16_mul_two (v : Word) : bit16 (v.toNat * 2 ^ 1) = v.getLsbD 15 := by
  have := v.isLt
  rw [← BitVec.msb_eq_getLsbD_last, BitVec.msb_eq_decide, Bool.eq_iff_iff]
  simp [bit16]; omega

/-- Bit 16 of a signed word is its sign (00_scope.md R9). -/
theorem bit16_toInt (v : Word) : bit16 v.toInt = v.msb := by
  have := v.le_toInt; have := v.toInt_lt
  rw [BitVec.msb_eq_toInt, Bool.eq_iff_iff]
  simp [bit16]; omega

/-- An unsigned word has no bit 16 (R9). -/
theorem bit16_toNat (v : Word) : bit16 v.toNat = false := by
  have := v.isLt
  simp [bit16]; omega

/-- An arithmetic right shift keeps the sign (R202, R222). -/
theorem msb_of_toInt_div {v a : Word} {n : Nat} (h : a.toInt = v.toInt / 2 ^ n) : a.msb = v.msb := by
  have ha : a = v.sshiftRight n := by
    apply BitVec.eq_of_toInt_eq
    rw [h, BitVec.toInt_sshiftRight, Int.shiftRight_eq_div_pow, Nat.cast_pow, Nat.cast_ofNat]
  rw [ha, BitVec.msb_sshiftRight]

/-- Settles O27: bit 16 is looked at only where the count is one, and is then the bit moved out. -/
theorem leftShiftsCompute : Obligations.LeftShiftsCompute := by
  unfold Obligations.LeftShiftsCompute
  rintro s rd src v1 v2 t rfl rfl ht i hi
  rw [← shiftCount_eq] at ht
  have hr : trunc16 ((s.readReg rd).toNat * 2 ^ shiftCount (s.loadOperand src)) = t := by
    exact_mod_cast trunc16_natCast _ t ht
  have hc : (shiftCountIsOne s.cfg.shiftCTest (s.loadOperand src) &&
      bit16 ((s.readReg rd).toNat * 2 ^ shiftCount (s.loadOperand src))) =
      (s.shiftsByOne (s.loadOperand src) && (s.readReg rd).getLsbD 15) := by
    rw [shiftCountIsOne_eq]
    cases h : s.shiftsByOne (s.loadOperand src) with
    | false => rfl
    | true => rw [shiftCount_of_shiftsByOne h, bit16_mul_two]
  obtain rfl | rfl : i = .shla rd src ∨ i = .shll rd src := by simpa using hi
  · exact exec_aluInstr_store (op := .shla) nofun rfl hr rfl hc
  · exact exec_aluInstr_store (op := .shll) nofun rfl hr rfl hc

/-- Settles O28: both quotients are words already, and bit 16 is the sign or 0. -/
theorem rightShiftsCompute : Obligations.RightShiftsCompute := by
  unfold Obligations.RightShiftsCompute
  rintro s rd src v1 v2 a l rfl rfl ha hl
  rw [← shiftCount_eq] at ha hl
  have hra : aluResult .shra (s.readReg rd) (s.loadOperand src) = a.toInt := ha.symm
  have hrl : aluResult .shrl (s.readReg rd) (s.loadOperand src) = l.toNat := by rw [hl]; simp [aluResult]
  refine ⟨exec_aluInstr_store (op := .shra) nofun rfl ?_ rfl ?_, exec_aluInstr_store (op := .shrl) nofun rfl ?_ rfl ?_⟩
  · rw [hra, trunc16_toInt]
  · rw [hra, carryOf, shiftCountIsOne_eq, bit16_toInt, msb_of_toInt_div ha, BitVec.msb_eq_getLsbD_last]
  · rw [hrl, trunc16_toNat]
  · rw [hrl, carryOf, bit16_toNat, Bool.and_false]

/-! ### V as signed overflow -/

/-- The V of a sum says that the signed sum does not fit (R201). -/
theorem overflow_add_iff (a b : Word) :
    (a.getLsbD 15 == b.getLsbD 15 && (a + b).getLsbD 15 != a.getLsbD 15) = true ↔
      ¬(-32768 ≤ a.toInt + b.toInt ∧ a.toInt + b.toInt ≤ 32767) := by
  have h := BitVec.saddOverflow_eq a b
  simp only [BitVec.msb_eq_getLsbD_last] at h
  rw [bne, ← h]
  simp [BitVec.saddOverflow]; omega

/-- The V of a difference under `standard` says that the signed difference does not fit (R201). -/
theorem overflow_sub_iff (a b : Word) :
    (a.getLsbD 15 != b.getLsbD 15 && (a - b).getLsbD 15 != a.getLsbD 15) = true ↔
      ¬(-32768 ≤ a.toInt - b.toInt ∧ a.toInt - b.toInt ≤ 32767) := by
  have hform : ∀ x y z : Bool, (x != y && z != x) = (!x && y && z || x && !y && !z) := by decide
  have h := BitVec.ssubOverflow_eq a b
  simp only [BitVec.msb_eq_getLsbD_last] at h
  rw [hform, ← h]
  simp [BitVec.ssubOverflow]; omega

/-- A store to another register than index 15 keeps the V of the flag update before it. -/
theorem flag_v_writeReg_setFlags {rd : Reg} (h : rd ≠ .flag) (s : State) (b : Byte) (v c x z : Bool) (t : Word) :
    ((s.setFlags (withVCSZ b v c x z)).writeReg rd t).flag .v = v := by
  rw [State.flag_def, State.writeReg_flags _ _ _ h, State.setFlags_flags, flagIn_withVCSZ]

/-- The state after CMP under `standard`: its flags, and nothing else (R200, R212). -/
theorem exec_cmp_standard {s t : State} {rd : Reg} {src : Operand} (hrule : s.cfg.subVRule = .standard)
    (h : exec (.cmp rd src) s = .next t) : t = s.setFlags (withVCSZ s.flags
      ((s.readReg rd).getLsbD 15 != (s.loadOperand src).getLsbD 15 &&
        (s.readReg rd - s.loadOperand src).getLsbD 15 != (s.readReg rd).getLsbD 15)
      (decide ((s.readReg rd).toNat < (s.loadOperand src).toNat)) ((s.readReg rd - s.loadOperand src).getLsbD 15)
      (decide (s.readReg rd - s.loadOperand src = 0))) := by
  rw [(subAndCmpCompute s rd src _ _ _ _ rfl rfl rfl rfl).1, if_pos hrule] at h
  cases h
  rfl

/-- Settles O30: V is the formula of ADD or of the difference, and each formula says that its exact result does not fit. -/
theorem overflowIsSigned : Obligations.OverflowIsSigned := by
  unfold Obligations.OverflowIsSigned
  rintro s t u w rd src v1 v2 rfl rfl hadd hsub hcmp
  refine ⟨fun hrd => ?_, fun hrule hrd => ?_, fun hrule => ?_⟩
  · rw [addComputes s rd src _ _ _ rfl rfl rfl] at hadd
    cases hadd
    rw [flag_v_writeReg_setFlags hrd, overflow_add_iff]
  · rw [(subAndCmpCompute s rd src _ _ _ _ rfl rfl rfl rfl).2, if_pos hrule] at hsub
    cases hsub
    rw [flag_v_writeReg_setFlags hrd, overflow_sub_iff]
  · rw [exec_cmp_standard hrule hcmp, State.flag_setFlags, flagIn_withVCSZ, overflow_sub_iff]

/-! ### The jumps after CMP -/

/-- The flags a comparison of `a` with `b` leaves, as the jumps read them (43_control.md R230). -/
structure Compared (a b : Word) (t : State) : Prop where
  zero     : t.flag .z = decide (a = b)
  carry    : t.flag .c = decide (a.toNat < b.toNat)
  negative : (t.flag .s != t.flag .v) = decide (a.toInt < b.toInt)

/-- The sign of a difference, corrected by its overflow, is the sign of the exact difference (R230). -/
theorem sign_ne_overflow_sub (a b : Word) : ((a - b).getLsbD 15 !=
    (a.getLsbD 15 != b.getLsbD 15 && (a - b).getLsbD 15 != a.getLsbD 15)) = decide (a.toInt < b.toInt) := by
  have hsign : (a - b).getLsbD 15 = decide ((a - b).toInt < 0) := by
    rw [← BitVec.msb_eq_toInt, BitVec.msb_eq_getLsbD_last]
  have hover := overflow_sub_iff a b
  have hdiff : (a - b).toInt = (a.toInt - b.toInt).bmod 0x10000 := BitVec.toInt_sub
  have := a.le_toInt; have := a.toInt_lt; have := b.le_toInt; have := b.toInt_lt
  generalize (a.getLsbD 15 != b.getLsbD 15 && (a - b).getLsbD 15 != a.getLsbD 15) = v at hover ⊢
  rw [Int.bmod_def] at hdiff
  cases v with
  | false =>
    have hfits : -32768 ≤ a.toInt - b.toInt ∧ a.toInt - b.toInt ≤ 32767 := by simpa using hover
    have hexact : (a - b).toInt < 0 ↔ a.toInt < b.toInt := by omega
    rw [hsign, Bool.bne_false, decide_eq_decide, hexact]
  | true =>
    have hmiss := hover.1 rfl
    have hflip : ¬(a - b).toInt < 0 ↔ a.toInt < b.toInt := by omega
    rw [hsign, Bool.bne_true, ← decide_not, decide_eq_decide, hflip]

/-- CMP under `standard` leaves the comparison of its operands in the flags (R212, R230). -/
theorem compared_of_exec_cmp {s t : State} {rd : Reg} {src : Operand} (hrule : s.cfg.subVRule = .standard)
    (h : exec (.cmp rd src) s = .next t) : Compared (s.readReg rd) (s.loadOperand src) t := by
  rw [exec_cmp_standard hrule h]
  constructor
  · simp only [State.flag_setFlags, flagIn_withVCSZ, sub_eq_zero]
  · simp only [State.flag_setFlags, flagIn_withVCSZ]
  · simp only [State.flag_setFlags, flagIn_withVCSZ, sign_ne_overflow_sub]

/-- A jump whose target executes goes there where its condition holds (R140, R230). -/
theorem exec_of_jumpEffect {i : Instr} {t : State} {dst : Operand} {taken : Bool} {p : Prop} [Decidable p]
    (hdst : t.TargetExecutes dst) (hi : exec i t = .next (jumpEffect taken dst t)) (hp : taken = true ↔ p) :
    exec i t = .next (if p then t.setPc (t.effAddr dst) else t) := by
  rw [hi, jumpEffect, State.withTarget_of_targetExecutes hdst]
  simp only [hp]

/-- Settles O34: each condition is a Boolean of the three comparisons that CMP leaves in the flags. -/
theorem jumpsAfterCompare : Obligations.JumpsAfterCompare := by
  unfold Obligations.JumpsAfterCompare
  intro s t rd src dst a b ha hb hrule hdst hcmp
  have hcfg : t.cfg = s.cfg := by rw [exec_cmp_standard hrule hcmp]; rfl
  obtain ⟨hz, hc, hlt⟩ : Compared a b t := ha ▸ hb ▸ compared_of_exec_cmp hrule hcmp
  have hge : (t.flag .s == t.flag .v) = !decide (a.toInt < b.toInt) := by rw [← hlt, bne, Bool.not_not]
  have hint : a = b ↔ a.toInt = b.toInt := BitVec.toInt_inj.symm
  have hnat : a = b ↔ a.toNat = b.toNat := BitVec.toNat_inj.symm
  replace hdst : t.TargetExecutes dst := by rwa [State.TargetExecutes, hcfg]
  refine ⟨exec_of_jumpEffect hdst rfl ?_, exec_of_jumpEffect hdst rfl ?_, exec_of_jumpEffect hdst rfl ?_,
    exec_of_jumpEffect hdst rfl ?_, exec_of_jumpEffect hdst rfl ?_, exec_of_jumpEffect hdst rfl ?_,
    exec_of_jumpEffect hdst rfl ?_, exec_of_jumpEffect hdst rfl ?_, exec_of_jumpEffect hdst rfl ?_,
    exec_of_jumpEffect hdst rfl ?_⟩
  · simp [hz, hge, hint]; omega
  · simp [hge]
  · simp [hz, hlt, hint]; omega
  · simp [hlt]
  · simp [hz, hc, hnat]; omega
  · simp [hz, hc, hnat]; omega
  · simp [hc]
  · simp [hc]
  · simp [hz]
  · simp [hz]

end Sys2Proof.Machine
end

section
/-! PROOFS of the family 43_control.md: the jumps, CALL and RET, and that the two returns undo CALL and interrupt entry. -/

namespace Sys2Proof.Machine

open Sys2Proof

/-! ### The jumps -/

/-- Settles O32: each jump is `jumpEffect` on its flag, and JMP is always taken. -/
theorem simpleJumps : Obligations.SimpleJumps := by
  unfold Obligations.SimpleJumps
  intro s dst hdst
  have hclear : ∀ f, (!s.flag f) = true ↔ s.flag f = false := fun f => iff_of_eq (Bool.not_eq_true' (s.flag f))
  exact ⟨exec_of_jumpEffect hdst rfl Iff.rfl, exec_of_jumpEffect hdst rfl Iff.rfl,
    exec_of_jumpEffect hdst rfl Iff.rfl, exec_of_jumpEffect hdst rfl Iff.rfl,
    exec_of_jumpEffect hdst rfl (hclear .z), exec_of_jumpEffect hdst rfl (hclear .c),
    exec_of_jumpEffect hdst rfl (hclear .s), exec_of_jumpEffect hdst rfl (hclear .v),
    congrArg Host.Outcome.next (State.withTarget_of_targetExecutes hdst _)⟩

/-- Settles O33: the Boolean of each condition says the proposition of its rule. -/
theorem compoundJumps : Obligations.CompoundJumps := by
  unfold Obligations.CompoundJumps
  intro s dst hdst
  refine ⟨exec_of_jumpEffect hdst rfl ?jgt, exec_of_jumpEffect hdst rfl ?jge, exec_of_jumpEffect hdst rfl ?jle,
    exec_of_jumpEffect hdst rfl ?jlt, exec_of_jumpEffect hdst rfl ?jhi, exec_of_jumpEffect hdst rfl ?jls⟩
  case jgt => rw [Bool.and_eq_true, Bool.not_eq_true', beq_iff_eq]
  case jge => exact beq_iff_eq
  case jle => rw [Bool.or_eq_true, bne_iff_ne]
  case jlt => exact bne_iff_ne
  case jhi => rw [Bool.and_eq_true, Bool.not_eq_true', Bool.not_eq_true']
  case jls => rw [Bool.or_eq_true]

/-! ### CALL and RET -/

/-- CALL is a push of pc, then the jump to the address computed before it (43_control.md R250). -/
theorem exec_call {s : State} {dst : Operand} (h : s.TargetExecutes dst) :
    exec (.call dst) s = .next ((s.pushWord s.pc).setPc (s.effAddr dst)) :=
  congrArg Host.Outcome.next (State.withTarget_of_targetExecutes h _)

/-- RET is a pop into pc (R251). -/
theorem exec_ret (s : State) : exec .ret s = .next (s.popWord.2.setPc s.popWord.1) := rfl

/-- Settles O35: the push and the pop are those of R270 and R271. -/
theorem callAndRet : Obligations.CallAndRet := by
  unfold Obligations.CallAndRet
  rintro s dst sp rfl
  exact ⟨exec_call, exec_ret s⟩

/-! ### A pop undoes a push -/

namespace State

variable (s : State)

@[simp] theorem popWord_fst : s.popWord.1 = s.readWord (s.readReg .sp) := rfl

@[simp] theorem readReg_sp_popWord : s.popWord.2.readReg .sp = s.readReg .sp + 2 :=
  s.readReg_writeReg_same .sp _ (by simp)

@[simp] theorem readReg_sp_pushWord (v : Word) : (s.pushWord v).readReg .sp = s.readReg .sp - 2 :=
  (readReg_writeWord _ _ _ _).trans (s.readReg_writeReg_same .sp _ (by simp))

/-- The pushed word is on top of the stack when the overlay drops neither of its bytes (44_stack.md R270, 20_memory.md
R63). -/
theorem readWord_pushWord {sp : Word} (v : Word) (hsp : sp = s.readReg .sp - 2)
    (h : s.iplMode = false ∨ (sp.toNat < 0xE000 ∧ (sp + 1).toNat < 0xE000)) : (s.pushWord v).readWord sp = v := by
  subst hsp
  refine readWord_writeWord_same _ _ _ ?_ ?_ <;> refine writeRejected_eq_false _ _ ?_ <;> rw [writeReg_iplMode]
  · exact h.imp_right And.left
  · exact h.imp_right And.right

end State

namespace StackFrame

theorem setPc (s : State) (v : Word) : StackFrame s (s.setPc v) where
  g := rfl
  fp := rfl
  usp _ := rfl
  ssp _ := rfl
  flags := rfl
  iplMode := rfl
  pend := rfl
  halted := rfl
  cfg := rfl
  env := rfl

/-- When the active stack pointer and pc come back too, nothing but memory has changed. -/
theorem setMem_eq {s u : State} (h : StackFrame s u) (hsp : u.readReg .sp = s.readReg .sp) (hpc : u.pc = s.pc) :
    u.setMem s.mem = s := by
  have hbanks : u.ssp = s.ssp ∧ u.usp = s.usp := by
    cases hp : s.flag .p with
    | true =>
      rw [s.readReg_sp_privileged hp, u.readReg_sp_privileged (by rwa [h.flag])] at hsp
      exact ⟨hsp, h.usp hp⟩
    | false =>
      rw [s.readReg_sp_user hp, u.readReg_sp_user (by rwa [h.flag])] at hsp
      exact ⟨h.ssp hp, hsp⟩
  exact State.ext_fields h.g h.fp hbanks.1 hbanks.2 hpc h.flags rfl h.iplMode h.pend h.halted h.cfg h.env

/-- RET gives `s` back, all but memory, from a state of its frame that has the pc of `s` pushed below its stack pointer. -/
theorem setMem_ret {s t : State} {sp : Word} (h : StackFrame s t) (hsp : sp = s.readReg .sp - 2) (htop : t.readReg .sp = sp)
    (hret : t.readWord sp = s.pc) :
    (t.popWord.2.setPc t.popWord.1).pc = s.pc ∧ (t.popWord.2.setPc t.popWord.1).setMem s.mem = s := by
  have hpc : t.popWord.1 = s.pc := by rw [State.popWord_fst, htop, hret]
  have hback : t.popWord.2.readReg .sp = s.readReg .sp := by
    rw [State.readReg_sp_popWord, htop, hsp, BitVec.sub_add_cancel]
  have hframe : StackFrame s (t.popWord.2.setPc t.popWord.1) := (h.trans (.popWord t)).trans (.setPc _ _)
  exact ⟨hpc, hframe.setMem_eq ((State.readReg_setPc _ _ _).trans hback) hpc⟩

end StackFrame

/-- Settles O37: RET pops what CALL pushed, and moves the stack pointer back; the two moves keep every other field. -/
theorem retUndoesCall : Obligations.RetUndoesCall := by
  unfold Obligations.RetUndoesCall
  intro s t dst sp hdst hsp hstored ht
  rw [exec_call hdst] at ht
  cases ht
  have hframe : StackFrame s ((s.pushWord s.pc).setPc (s.effAddr dst)) := (StackFrame.pushWord s s.pc).trans (.setPc _ _)
  have htop : ((s.pushWord s.pc).setPc (s.effAddr dst)).readReg .sp = sp := by
    rw [State.readReg_setPc, State.readReg_sp_pushWord, hsp]
  exact ⟨_, exec_ret _, hframe.setMem_ret hsp htop (s.readWord_pushWord s.pc hsp hstored)⟩

/-! ### RETI undoes entry -/

namespace State

variable (s : State)

/-- A word that shares no byte with the written one reads as before (20_memory.md R61, R67). -/
theorem readWord_writeWord_ne {a c : Word} (v : Word) (h0 : c ≠ a) (h1 : c ≠ a + 1) (h2 : c + 1 ≠ a) :
    (s.writeWord a v).readWord c = s.readWord c := by
  have h3 : c + 1 ≠ a + 1 := fun h => h0 ((BitVec.add_left_inj 1).1 h)
  simp only [readWord, s.readByte_writeWord_ne v h0 h1, s.readByte_writeWord_ne v h2 h3]

/-- Memory after entry, from the lower end of the frame: pc, and the flags word above it (60_exceptions.md R320, R322). -/
theorem enter_mem_frame {sp : Word} (n : IntrNum) (hsp : sp = s.ssp - 4) : (s.enter n).mem =
    ((s.writeWord (sp + 2) (s.flags.setWidth 16)).writeWord sp s.pc).mem := by
  have hflags : s.ssp - 2 = sp + 2 := by subst hsp; bv_omega
  have hpc : sp + 2 - 2 = sp := BitVec.add_sub_cancel sp 2
  rw [enter_mem, hflags, hpc]

/-- Entry leaves pc on top of the supervisor stack, when the overlay drops neither of its bytes (R320). -/
theorem readWord_enter_pc {sp : Word} (n : IntrNum) (hsp : sp = s.ssp - 4) (h0 : s.writeRejected sp = false)
    (h1 : s.writeRejected (sp + 1) = false) : (s.enter n).readWord sp = s.pc := by
  rw [readWord_congr (s.enter_mem_frame n hsp)]
  exact readWord_writeWord_same _ _ _ (by rwa [writeRejected_writeWord]) (by rwa [writeRejected_writeWord])

/-- Entry leaves the flags word above pc, when the overlay drops neither of its bytes (R320). -/
theorem readWord_enter_flags {sp : Word} (n : IntrNum) (hsp : sp = s.ssp - 4) (h2 : s.writeRejected (sp + 2) = false)
    (h3 : s.writeRejected (sp + 3) = false) : (s.enter n).readWord (sp + 2) = s.flags.setWidth 16 := by
  have hnext : sp + 2 + 1 = sp + 3 := BitVec.add_assoc sp 2 1
  rw [readWord_congr (s.enter_mem_frame n hsp), readWord_writeWord_ne _ _ (by bv_omega) (by bv_omega) (by bv_omega)]
  exact s.readWord_writeWord_same _ _ h2 (hnext ▸ h3)

/-- A handler runs in privileged mode (R320). -/
theorem flag_p_enter (n : IntrNum) : (s.enter n).flag .p = true := by
  rw [flag_def, enter_flags, flagIn_entryFlags]

/-- The frame read back restores pc, the flags and SSP; entry changed nothing else but memory (R331). -/
theorem setMem_returnFromTrap_enter {sp : Word} (n : IntrNum) (hsp : sp = s.ssp - 4)
    (hpc : (s.enter n).readWord sp = s.pc) (hflags : (s.enter n).readWord (sp + 2) = s.flags.setWidth 16) :
    (s.enter n).returnFromTrap.setMem s.mem = s := by
  have htop : (s.enter n).ssp = sp := by rw [enter_ssp, hsp]; bv_omega
  have hback : sp + 4 = s.ssp := by rw [hsp, BitVec.sub_add_cancel]
  have hlow : (s.flags.setWidth 16).extractLsb' 0 8 = s.flags := by
    rw [BitVec.extractLsb'_setWidth_of_le (by decide), BitVec.extractLsb'_eq_self]
  rw [returnFromTrap_privileged _ (s.flag_p_enter n), htop, hpc, hflags, hback, hlow]
  apply ext_fields <;> simp

end State

/-- Settles O50: RETI reads back the frame that entry stored. -/
theorem retiUndoesEntry : Obligations.RetiUndoesEntry := by
  unfold Obligations.RetiUndoesEntry
  intro s n sp hsp hstored
  have h0 := s.writeRejected_eq_false sp (hstored.imp_right fun ⟨h, _, _, _⟩ => h)
  have h1 := s.writeRejected_eq_false (sp + 1) (hstored.imp_right fun ⟨_, h, _, _⟩ => h)
  have h2 := s.writeRejected_eq_false (sp + 2) (hstored.imp_right fun ⟨_, _, h, _⟩ => h)
  have h3 := s.writeRejected_eq_false (sp + 3) (hstored.imp_right fun ⟨_, _, _, h⟩ => h)
  exact ⟨_, rfl, s.setMem_returnFromTrap_enter n hsp (s.readWord_enter_pc n hsp h0 h1)
    (s.readWord_enter_flags n hsp h2 h3)⟩

end Sys2Proof.Machine
end

section
/-! PROOFS of the family 44_stack.md: PUSH and POP, and that a pop undoes a push. -/

namespace Sys2Proof.Machine

open Sys2Proof

/-- Settles O38: PUSH is the push of R270 and POP the pop of R271 before its register write, by definition. -/
theorem pushAndPop : Obligations.PushAndPop := by
  unfold Obligations.PushAndPop
  rintro s rd sp rfl
  exact ⟨rfl, rfl⟩

/-- POP leaves the active stack pointer 2 higher unless its destination names that stack pointer too (44_stack.md R271,
10_state.md R28). -/
theorem State.readReg_sp_popWord_writeReg (s : State) {rd : Reg} (v : Word) (hsp : rd ≠ .sp) (hflag : rd ≠ .flag)
    (husp : ¬(s.flag .p = false ∧ rd = .usp)) : (s.popWord.2.writeReg rd v).readReg .sp = s.readReg .sp + 2 := by
  have hother : ¬(s.popWord.2.flag .p = false ∧ (rd = .sp ∨ rd = .usp) ∧ (Reg.sp = .sp ∨ Reg.sp = .usp)) := by
    rw [(StackFrame.popWord s).flag]
    exact fun ⟨hp, hname, _⟩ => husp ⟨hp, hname.resolve_left hsp⟩
  rw [State.readReg_writeReg_ne _ v hflag hsp.symm hother, State.readReg_sp_popWord]

/-- Settles O39: POP finds the pushed word on top of the stack, and its move of the stack pointer undoes PUSH's. -/
theorem popUndoesPush : Obligations.PopUndoesPush := by
  unfold Obligations.PopUndoesPush
  intro s t r r' sp hsp hr'sp hr'flag hr'usp hstored ht
  cases ht
  have htop : (s.pushWord (s.readReg r)).readReg .sp = sp := (s.readReg_sp_pushWord _).trans hsp.symm
  have husp : ¬((s.pushWord (s.readReg r)).flag .p = false ∧ r' = .usp) := by rwa [(StackFrame.pushWord s _).flag]
  refine ⟨_, rfl, ?value, ?pointer⟩
  case value =>
    rw [State.readReg_writeReg_same _ r' _ hr'flag, State.popWord_fst, htop, s.readWord_pushWord _ hsp hstored]
  case pointer =>
    rw [State.readReg_sp_popWord_writeReg _ _ hr'sp hr'flag husp, htop, hsp, BitVec.sub_add_cancel]

end Sys2Proof.Machine
end

section
/-! PROOFS of the family 45_system_io.md: the refusal of IN and OUT, SVC and HALT. -/

namespace Sys2Proof.Machine

open Sys2Proof

/-! ### IN and OUT without the privilege -/

/-- IN and OUT are refused when the check is on and neither P nor I is set (45_system_io.md R290, R291). -/
theorem State.ioForbidden_of_unprivileged {s : State} (hcheck : s.cfg.ioPrivCheck = true) (hp : s.flag .p = false)
    (hi : s.flag .i = false) : s.ioForbidden = true := by
  simp [State.ioForbidden, hcheck, hp, hi]

/-- A refused IN is the privilege violation alone (R290). -/
theorem exec_ioIn_forbidden {s : State} {rd : Reg} {port : Operand} (hport : s.TargetExecutes port)
    (hio : s.ioForbidden = true) : exec (.ioIn rd port) s = .next (s.raise s.cfg.intrPriv) :=
  congrArg Host.Outcome.next ((State.withTarget_of_targetExecutes hport _).trans (if_pos hio))

/-- A refused OUT is the privilege violation alone (R291). -/
theorem exec_ioOut_forbidden {s : State} {rd : Reg} {port : Operand} (hport : s.TargetExecutes port)
    (hio : s.ioForbidden = true) : exec (.ioOut rd port) s = .next (s.raise s.cfg.intrPriv) :=
  congrArg Host.Outcome.next ((State.withTarget_of_targetExecutes hport _).trans (if_pos hio))

/-- Settles O44: both instructions test the privilege before they touch a register or a device. -/
theorem ioWithoutPrivilegeRaises : Obligations.IoWithoutPrivilegeRaises := by
  unfold Obligations.IoWithoutPrivilegeRaises
  intro s rd port hport hcheck hp hi
  have hio : s.ioForbidden = true := State.ioForbidden_of_unprivileged hcheck hp hi
  rw [List.forall_mem_cons, List.forall_mem_singleton]
  exact ⟨exec_ioIn_forbidden hport hio, exec_ioOut_forbidden hport hio⟩

/-! ### SVC and HALT -/

/-- In privileged mode HALT stops the core (R294). -/
theorem exec_halt_privileged {s : State} (hp : s.flag .p = true) : exec .halt s = .next (s.setHalted true) :=
  congrArg Host.Outcome.next (if_pos hp)

/-- In user mode HALT is the privilege violation (R294). -/
theorem exec_halt_user {s : State} (hp : s.flag .p = false) : exec .halt s = .next (s.raise s.cfg.intrPriv) :=
  congrArg Host.Outcome.next (if_neg (Bool.eq_false_iff.1 hp))

/-- Settles O45: SVC is a raise by definition, and P selects the branch of HALT. -/
theorem svcAndHalt : Obligations.SvcAndHalt := by
  unfold Obligations.SvcAndHalt
  exact fun s => ⟨rfl, exec_halt_privileged, exec_halt_user⟩

end Sys2Proof.Machine
end

section
/-! PROOFS of the family 60_exceptions.md: raising, device requests, the order in which the slots are looked at, the
interrupt check, entry, and which slots instructions and steps leave pending. -/

namespace Sys2Proof.Machine

open Sys2Proof

/-! ### At most one exception -/

/-- Settles O55: a step takes the pending exception before its instruction can raise another. -/
theorem stepKeepsOneException : Obligations.StepKeepsOneException := by
  unfold Obligations.StepKeepsOneException
  exact fun _ _ => step_pendingExceptions

/-- Settles O52: an instruction leaves the slots as they are or sets one of the four exceptions'. -/
theorem instructionsOnlySetExceptionSlots : Obligations.InstructionsOnlySetExceptionSlots := by
  unfold Obligations.InstructionsOnlySetExceptionSlots
  intro i s t n ht hchanged
  rcases exec_pend ht with hp | ⟨m, hm, hp⟩
  · exact absurd (by rw [hp]) hchanged
  · have hmn : m = n := by
      by_contra hne
      exact hchanged (by rw [hp, Vector.getElem_set_ne _ _ (Fin.val_ne_of_ne hne)])
    subst hmn
    exact ⟨by rw [hp, Vector.getElem_set_self], hm⟩

/-! ### Raising and device requests -/

namespace State

variable (s : State)

/-- Raising a slot that is pending is no second event (R311). -/
theorem raise_of_pending {n : IntrNum} (h : s.pend[n.val] = true) : s.raise n = s := by
  have hset : s.pend.set n.val true = s.pend := by rw [← h, Vector.set_getElem_self]
  rw [raise, hset]
  rfl

/-- A device sets an ordinary slot (R341). -/
theorem deviceRequest_ordinary {n : IntrNum} (h : n < s.cfg.excFirst) : s.deviceRequest n = s.raise n := if_pos h

/-- A device's request for an exception slot is ignored (R341). -/
theorem deviceRequest_exception {n : IntrNum} (h : s.cfg.excFirst ≤ n) : s.deviceRequest n = s := if_neg (not_lt.2 h)

end State

/-- Settles O46: a raise is the update of one slot. -/
theorem raiseSetsOneSlot : Obligations.RaiseSetsOneSlot := by
  unfold Obligations.RaiseSetsOneSlot
  refine fun s n => ⟨rfl, ?set, fun k hk => ?others, s.raise_of_pending⟩
  case set => simp [State.raise_pend]
  case others => simp [State.raise_pend, hk]

/-- Settles O51: a request for an ordinary slot is a raise, and any other request is ignored. -/
theorem deviceRequestsSetOrdinarySlots : Obligations.DeviceRequestsSetOrdinarySlots := by
  unfold Obligations.DeviceRequestsSetOrdinarySlots
  refine fun s n => ⟨s.deviceRequest_ordinary, s.deviceRequest_exception, ?_⟩
  rcases lt_or_ge n s.cfg.excFirst with h | h
  · rw [s.deviceRequest_ordinary h, State.deviceRequest_ordinary (s.raise n) h,
      State.raise_of_pending _ (by simp [State.raise_pend])]
  · rw [s.deviceRequest_exception h, s.deviceRequest_exception h]

/-! ### The slot the controller returns -/

/-- Slot `m` is looked at before slot `n`: exceptions come first, and slots of one kind in ascending order (R313). -/
def ScannedBefore (cfg : Config) (m n : IntrNum) : Prop :=
  cfg.excFirst ≤ m ∧ n < cfg.excFirst ∨ (cfg.excFirst ≤ m ↔ cfg.excFirst ≤ n) ∧ m < n

namespace State

variable {s : State} {n : IntrNum}

theorem scanOrder_pairwise (cfg : Config) : (scanOrder cfg).Pairwise (ScannedBefore cfg) := by
  have hslots : slots.Pairwise (· < ·) := by decide
  have hexc : ∀ m ∈ slots.filter (fun n => decide (cfg.excFirst ≤ n)), cfg.excFirst ≤ m := by simp
  have hord : ∀ m ∈ slots.filter (fun n => decide (n < cfg.excFirst)), m < cfg.excFirst := by simp
  refine List.pairwise_append.2 ⟨?exceptions, ?ordinary, fun m hm n hn => .inl ⟨hexc m hm, hord n hn⟩⟩
  case exceptions =>
    exact (hslots.filter _).imp_of_mem fun hm hn hlt => .inr ⟨iff_of_true (hexc _ hm) (hexc _ hn), hlt⟩
  case ordinary =>
    exact (hslots.filter _).imp_of_mem fun hm hn hlt =>
      .inr ⟨iff_of_false (not_le.2 (hord _ hm)) (not_le.2 (hord _ hn)), hlt⟩

/-- Every other pending slot comes after the one that is returned (R313). -/
theorem nextIntr_first (h : s.nextIntr = some n) {k : IntrNum} (hk : s.pend[k.val] = true) :
    k = n ∨ ScannedBefore s.cfg n k := by
  obtain ⟨-, before, after, hscan, hbefore⟩ := List.find?_eq_some_iff_append.1 h
  have hsorted := scanOrder_pairwise s.cfg
  have hmem := mem_scanOrder s.cfg k
  rw [hscan] at hsorted hmem
  rcases List.mem_append.1 hmem with hb | ha
  · simpa [hk] using hbefore k hb
  · obtain ⟨-, hafter, -⟩ := List.pairwise_append.1 hsorted
    exact (List.mem_cons.1 ha).imp_right (List.rel_of_pairwise_cons hafter)

/-- Of the exceptions the lowest pending one is returned; no slot below a returned ordinary slot is pending (R313). -/
theorem nextIntr_lowest (h : s.nextIntr = some n) {k : IntrNum} (hkind : s.cfg.excFirst ≤ n → s.cfg.excFirst ≤ k)
    (hlt : k < n) : s.pend[k.val] = false := by
  by_contra hp
  rcases nextIntr_first h (Bool.eq_true_of_not_eq_false hp) with rfl | ⟨hexc, hord⟩ | ⟨-, hgt⟩
  · exact lt_irrefl _ hlt
  · exact not_lt.2 (hkind hexc) hord
  · exact lt_asymm hlt hgt

/-- An ordinary slot is returned only when no exception is pending (R313). -/
theorem nextIntr_ordinary_no_exception (h : s.nextIntr = some n) (hn : n < s.cfg.excFirst) {k : IntrNum}
    (hk : s.cfg.excFirst ≤ k) : s.pend[k.val] = false := by
  by_contra hp
  rcases nextIntr_first h (Bool.eq_true_of_not_eq_false hp) with rfl | ⟨hexc, -⟩ | ⟨hkind, -⟩
  · exact not_lt.2 hk hn
  · exact not_lt.2 hexc hn
  · exact not_lt.2 (hkind.2 hk) hn

theorem nextIntr_eq_none_iff : s.nextIntr = none ↔ ∀ k : IntrNum, s.pend[k.val] = false := by
  refine ⟨s.nextIntr_none, fun h => List.find?_eq_none.2 fun k _ => ?_⟩
  simp [h k]

@[simp] theorem checkIntrNum_fst (s : State) : s.checkIntrNum.1 = s.nextIntr := by
  cases h : s.nextIntr <;> simp [checkIntrNum, h]

theorem checkIntrNum_snd_of_some (h : s.nextIntr = some n) : s.checkIntrNum.2 = s.setPend (s.pend.set n.val false) := by
  rw [checkIntrNum, h]

theorem checkIntrNum_snd_of_none (h : s.nextIntr = none) : s.checkIntrNum.2 = s := by
  rw [checkIntrNum, h]

end State

/-- Settles O47: the controller returns the first pending slot of its scan, and clears it. -/
theorem interruptPriority : Obligations.InterruptPriority := by
  unfold Obligations.InterruptPriority
  intro s n _
  rw [s.checkIntrNum_fst]
  refine ⟨State.nextIntr_eq_none_iff, fun h => ⟨s.nextIntr_pending h, fun hn k hk => ?exception,
    fun hn => ⟨fun _ => State.nextIntr_ordinary_no_exception h hn, fun k => ?ordinary⟩, State.checkIntrNum_snd_of_some h⟩,
    State.checkIntrNum_snd_of_none⟩
  case exception => exact State.nextIntr_lowest h fun _ => hk
  case ordinary => exact State.nextIntr_lowest h fun hexc => absurd hn (not_lt.2 hexc)

/-! ### The interrupt check -/

namespace State

variable {s : State}

/-- With E = 0 the ordinary slots are masked (R316). -/
theorem interruptCheck_of_masked (he : s.flag .e = false) (hexc : s.exceptionPending = false) : s.interruptCheck = s := by
  simp [interruptCheck, he, hexc]

/-- With nothing pending the check does nothing (R316). -/
theorem interruptCheck_of_none (h : s.nextIntr = none) : s.interruptCheck = s := by
  rcases s.interruptCheck_cases with e | ⟨n, hn, -, -⟩
  · exact e
  · simp [h] at hn

/-- With E = 1 or an exception pending the check enters the handler of the slot it is given (R316). -/
theorem interruptCheck_of_some {n : IntrNum} (hopen : s.flag .e = true ∨ s.exceptionPending = true)
    (hn : s.nextIntr = some n) : s.interruptCheck = s.checkIntrNum.2.enter n := by
  rw [interruptCheck, if_pos (Bool.or_eq_true_iff.2 hopen), checkIntrNum_fst, hn]

/-- Taking one slot leaves every other slot as it is (R313, R320). -/
theorem pend_enter_clear_ne {k m : IntrNum} (h : k ≠ m) :
    ((s.setPend (s.pend.set m.val false)).enter m).pend[k.val] = s.pend[k.val] := by
  simp [Vector.getElem_set_ne _ _ (Fin.val_ne_of_ne h.symm)]

end State

/-- Settles O48: E and the pending exceptions decide whether the check looks at the slots, and an exception is what it takes
where one is pending. -/
theorem interruptCheckMasksOrdinarySlots : Obligations.InterruptCheckMasksOrdinarySlots := by
  unfold Obligations.InterruptCheckMasksOrdinarySlots
  intro s n
  rw [s.checkIntrNum_fst]
  refine ⟨fun he hnone => ?masked, fun hopen => ?taken, State.interruptCheck_of_none, fun _ hn hp => ?exception⟩
  case masked =>
    refine State.interruptCheck_of_masked he (Bool.eq_false_iff.2 fun hexc => ?_)
    obtain ⟨k, hk, hpk⟩ := s.exceptionPending_iff.1 hexc
    simp [hnone k hk] at hpk
  case taken => exact State.interruptCheck_of_some (hopen.imp_right s.exceptionPending_iff.2)
  case exception =>
    obtain ⟨m, hm, hpm, e⟩ := State.interruptCheck_of_exceptionPending (s.exceptionPending_iff.2 ⟨n, hn, hp⟩)
    refine ⟨m, hm, hpm, e, fun k hk => ?_⟩
    rw [e, State.pend_enter_clear_ne (hk.trans_le hm).ne]

/-! ### Entry -/

namespace State

variable (s : State)

/-- A slot's vector in the table at 0xFFE0 (R321). -/
theorem vectorAddress_eq (n : IntrNum) : vectorAddress n = BitVec.ofNat 16 (0xFFE0 + 2 * n.val) :=
  (BitVec.ofNat_add _ _).symm

/-- Entry goes where the vector points after the pushes (R320). -/
theorem enter_pc (n : IntrNum) : (s.enter n).pc = (s.enter n).readWord (vectorAddress n) := rfl

/-- Entry writes no byte outside its frame (R320, R322). -/
theorem readByte_enter_ne {sp c : Word} (n : IntrNum) (hsp : sp = s.ssp - 4) (h0 : c ≠ sp) (h1 : c ≠ sp + 1)
    (h2 : c ≠ sp + 2) (h3 : c ≠ sp + 3) : (s.enter n).readByte c = s.readByte c := by
  have hnext : sp + 2 + 1 = sp + 3 := BitVec.add_assoc sp 2 1
  rw [readByte_congr (s.enter_mem_frame n hsp), readByte_writeWord_ne _ _ h0 h1,
    readByte_writeWord_ne _ _ h2 (hnext.symm ▸ h3)]

/-- The frame entry leaves on the supervisor stack: pc and, above it, the flags word (R320, R322). -/
theorem enter_frame {sp : Word} (n : IntrNum) (hsp : sp = s.ssp - 4) (hstored : s.iplMode = false ∨ (sp.toNat < 0xE000 ∧
    (sp + 1).toNat < 0xE000 ∧ (sp + 2).toNat < 0xE000 ∧ (sp + 3).toNat < 0xE000)) :
    (s.enter n).readWord sp = s.pc ∧ (s.enter n).readWord (sp + 2) = s.flags.setWidth 16 := by
  have h0 := s.writeRejected_eq_false sp (hstored.imp_right fun ⟨h, _, _, _⟩ => h)
  have h1 := s.writeRejected_eq_false (sp + 1) (hstored.imp_right fun ⟨_, h, _, _⟩ => h)
  have h2 := s.writeRejected_eq_false (sp + 2) (hstored.imp_right fun ⟨_, _, h, _⟩ => h)
  have h3 := s.writeRejected_eq_false (sp + 3) (hstored.imp_right fun ⟨_, _, _, h⟩ => h)
  exact ⟨s.readWord_enter_pc n hsp h0 h1, s.readWord_enter_flags n hsp h2 h3⟩

end State

/-- Settles O49: entry is two pushes on the supervisor stack, a flag write and a jump through the vector. -/
theorem entrySavesFlagsAndPc : Obligations.EntrySavesFlagsAndPc := by
  unfold Obligations.EntrySavesFlagsAndPc
  intro s n sp c hsp
  have hssp : (s.enter n).ssp = sp := by rw [State.enter_ssp, hsp]; bv_omega
  exact ⟨hssp, s.enter_usp n, s.enter_g n, s.enter_fp n, s.enter_flags n, State.vectorAddress_eq n ▸ s.enter_pc n,
    s.enter_frame n hsp, s.readByte_enter_ne n hsp, s.enter_pend n, s.enter_iplMode n, s.enter_halted n, s.enter_cfg n,
    s.enter_env n⟩

end Sys2Proof.Machine
end

section
/-! PROOFS of the family 70_reset_and_hazards.md: the host's loop as a count of steps of the machine. -/

namespace Sys2Proof.Machine

open Sys2Proof

/-! ### What the controls let run -/

/-- The tests at the top of a pass let the machine in state `u` take a cycle, `k` cycles after the call (R370, R371). -/
def HostControls.LetsRun (h : HostControls) (k : Nat) (u : State) : Prop :=
  u.halted = false ∧ h.breakAt ≠ some u.pc ∧ h.stopAt ≠ some k

/-- A later cycle is let run by the controls as the first cycle leaves them. -/
theorem HostControls.letsRun_succ {h : HostControls} {k : Nat} {u : State} (hk : h.afterCycle.LetsRun k u) :
    h.LetsRun (k + 1) u := by
  obtain ⟨hhalted, hbreak, hstop⟩ := hk
  exact ⟨hhalted, hbreak, fun e => hstop (by simp [afterCycle, e])⟩

/-- Only a request for the coming cycle is taken up before it: one seen after it was for a cycle later. -/
theorem HostControls.stopAt_eq_succ {h : HostControls} {j : Nat} (hnow : h.stopAt ≠ some 0)
    (hlater : h.afterCycle.stopAt = some j) : h.stopAt = some (j + 1) := by
  obtain ⟨n, hn, rfl⟩ := Option.map_eq_some_iff.1 hlater
  simp only [hn, ne_eq, Option.some_inj] at hnow ⊢
  omega

/-- Without a stop request the controls stay as they are. -/
theorem HostControls.afterCycle_of_stopAt_none {h : HostControls} (hn : h.stopAt = none) : h.afterCycle = h := by
  rw [afterCycle, hn, Option.map_none, ← hn]

/-- `j` steps lead from `s` to `t`, each one let run by the controls (R370). -/
def HostControls.RunsTo (h : HostControls) (s : State) (j : Nat) (t : State) : Prop :=
  core.run j s = .next t ∧ ∀ k < j, ∃ u, core.run k s = .next u ∧ h.LetsRun k u

/-- A run goes on from the state its first step leaves. -/
theorem run_succ_of_next {M : Host.Core} {s u : M.State} (hu : M.step s = .next u) (j : Nat) :
    M.run (j + 1) s = M.run j u := by
  rw [Host.Core.run, hu]

theorem HostControls.runsTo_zero (h : HostControls) (s : State) : h.RunsTo s 0 s := ⟨rfl, by simp⟩

theorem HostControls.runsTo_succ {h : HostControls} {s u t : State} {j : Nat} (hs : h.LetsRun 0 s) (hu : step s = .next u)
    (ht : h.afterCycle.RunsTo u j t) : h.RunsTo s (j + 1) t := by
  obtain ⟨hrun, hbefore⟩ := ht
  refine ⟨(run_succ_of_next (M := core) hu j).trans hrun, fun k hk => ?_⟩
  cases k with
  | zero => exact ⟨s, rfl, hs⟩
  | succ k =>
    obtain ⟨v, hv, hlets⟩ := hbefore k (Nat.lt_of_succ_lt_succ hk)
    exact ⟨v, (run_succ_of_next (M := core) hu k).trans hv, HostControls.letsRun_succ hlets⟩

/-! ### What a call reports -/

/-- The reason a call of the loop gives, true of the state `t` it left after `j` of the `budget` cycles it had
(R370, R371). -/
def HostControls.EndsWith (h : HostControls) (budget j : Nat) (t : State) : RunEnd → Prop
  | .stopped => h.stopAt = some j
  | .halted => t.halted = true
  | .breakpoint => h.breakAt = some t.pc
  | .stepped => j = 1 ∧ h.stepMode = true
  | .yielded => j = budget ∧ h.stepMode = false
  | .faulted f => step t = .fault f
  | .refused r => step t = .refused r

/-- One cycle before, without step mode, the same reason is true of one more cycle out of one more. -/
theorem HostControls.endsWith_succ {h : HostControls} {budget j : Nat} {t : State} {e : RunEnd} (hnow : h.stopAt ≠ some 0)
    (hmode : h.stepMode = false) (he : h.afterCycle.EndsWith budget j t e) : h.EndsWith (budget + 1) (j + 1) t e := by
  cases e with
  | stopped => exact HostControls.stopAt_eq_succ hnow he
  | stepped => exact absurd (hmode.symm.trans he.2) (by decide)
  | yielded => exact ⟨congrArg (· + 1) he.1, hmode⟩
  | halted | breakpoint | faulted | refused => exact he

/-- What a call with a budget of cycles answered is accounted for by the steps that its controls let run. -/
def HostControls.Accounts (h : HostControls) (budget : Nat) (s : State) (r : RunEnd × State) : Prop :=
  ∃ j ≤ budget, h.RunsTo s j r.2 ∧ (h.stepMode = true → j ≤ 1) ∧ h.EndsWith budget j r.2 r.1

/-- An answer given before the first cycle. -/
theorem HostControls.accounts_of_no_step {h : HostControls} {budget : Nat} {s : State} {e : RunEnd}
    (he : h.EndsWith budget 0 s e) : h.Accounts budget s (e, s) :=
  ⟨0, Nat.zero_le _, h.runsTo_zero s, fun _ => Nat.zero_le _, he⟩

/-- An answer step mode gives after the first cycle. -/
theorem HostControls.accounts_of_stepMode {h : HostControls} {budget : Nat} {s u : State} (hs : h.LetsRun 0 s)
    (hu : step s = .next u) (hmode : h.stepMode = true) : h.Accounts (budget + 1) s (.stepped, u) :=
  ⟨1, Nat.le_add_left _ _, HostControls.runsTo_succ hs hu (h.afterCycle.runsTo_zero u), fun _ => le_rfl, rfl, hmode⟩

/-- An answer given after the first cycle and the ones that follow it. -/
theorem HostControls.accounts_succ {h : HostControls} {budget : Nat} {s u : State} {r : RunEnd × State} (hs : h.LetsRun 0 s)
    (hu : step s = .next u) (hmode : h.stepMode = false) (hr : h.afterCycle.Accounts budget u r) :
    h.Accounts (budget + 1) s r := by
  obtain ⟨j, hj, hruns, -, hend⟩ := hr
  have ⟨_, _, hnow⟩ := hs
  exact ⟨j + 1, Nat.succ_le_succ hj, HostControls.runsTo_succ hs hu hruns, by simp [hmode],
    HostControls.endsWith_succ hnow hmode hend⟩

/-! ### The loop -/

/-- A pass whose tests let the machine run, and whose cycle has a next state, goes on from it or stops for step mode. -/
theorem runPass_of_letsRun {h : HostControls} {s u : State} (hs : h.LetsRun 0 s) (hu : step s = .next u)
    (onward : State → RunEnd × State) : runPass h s onward = if h.stepMode then (.stepped, u) else onward u := by
  obtain ⟨hhalted, hbreak, hstop⟩ := hs
  simp [runPass, hstop, hhalted, hbreak, hu]

/-- What a pass can do: take its cycle, or answer where it stands, for a reason true there, whatever would follow. -/
theorem runPass_cases (h : HostControls) (s : State) : (h.LetsRun 0 s ∧ ∃ u, step s = .next u) ∨
    ∃ e ≠ RunEnd.yielded, (∀ budget, h.EndsWith budget 0 s e) ∧ ∀ onward, runPass h s onward = (e, s) := by
  by_cases hstop : h.stopAt = some 0
  · exact .inr ⟨.stopped, by decide, fun _ => hstop, fun _ => if_pos hstop⟩
  by_cases hhalted : s.halted = true
  · exact .inr ⟨.halted, by decide, fun _ => hhalted, by simp [runPass, hstop, hhalted]⟩
  by_cases hbreak : h.breakAt = some s.pc
  · exact .inr ⟨.breakpoint, by decide, fun _ => hbreak, by simp [runPass, hstop, hhalted, hbreak]⟩
  cases hstep : step s with
  | next u => exact .inl ⟨⟨Bool.eq_false_iff.2 hhalted, hbreak, hstop⟩, u, rfl⟩
  | fault f => exact .inr ⟨.faulted f, by simp, fun _ => hstep, by simp [runPass, hstop, hhalted, hbreak, hstep]⟩
  | refused r => exact .inr ⟨.refused r, by simp, fun _ => hstep, by simp [runPass, hstop, hhalted, hbreak, hstep]⟩

/-- A pass accounts for its answer when what follows its cycle does. -/
theorem accounts_runPass {h : HostControls} {budget : Nat} {onward : State → RunEnd × State} (s : State)
    (honward : ∀ u, h.stepMode = false → h.afterCycle.Accounts budget u (onward u)) :
    h.Accounts (budget + 1) s (runPass h s onward) := by
  obtain ⟨hs, u, hu⟩ | ⟨e, -, he, hpass⟩ := runPass_cases h s
  · rw [runPass_of_letsRun hs hu]
    split
    · next hmode => exact HostControls.accounts_of_stepMode hs hu hmode
    · next hmode =>
      have hmode := Bool.eq_false_iff.2 hmode
      exact HostControls.accounts_succ hs hu hmode (honward u hmode)
  · rw [hpass]
    exact HostControls.accounts_of_no_step (he _)

/-- A call accounts for its answer, by induction on the cycles its budget leaves after the first. -/
theorem accounts_runLoop (more : Nat) (h : HostControls) (s : State) : h.Accounts (more + 1) s (runLoop more h s) := by
  induction more generalizing h s with
  | zero => exact accounts_runPass s fun _ hmode => HostControls.accounts_of_no_step ⟨rfl, hmode⟩
  | succ more ih => exact accounts_runPass s fun u _ => ih h.afterCycle u

/-- A pass that yields took its cycle, and so it would have whatever follows the cycle. -/
theorem runPass_yielded {h : HostControls} {s t : State} {onward : State → RunEnd × State}
    (hy : runPass h s onward = (.yielded, t)) :
    ∃ u, onward u = (.yielded, t) ∧ ∀ onward', runPass h s onward' = onward' u := by
  obtain ⟨hs, u, hu⟩ | ⟨e, hne, -, hpass⟩ := runPass_cases h s
  · rw [runPass_of_letsRun hs hu] at hy
    split at hy
    · cases hy
    · next hmode => exact ⟨u, hy, fun onward' => by rw [runPass_of_letsRun hs hu, if_neg hmode]⟩
  · exact absurd (congrArg Prod.fst ((hpass onward).symm.trans hy)) hne

/-- A call that yields splits a call with a larger budget in two (R370): the host gets back to the same run. -/
theorem runLoop_add_of_yielded {h : HostControls} (hn : h.stopAt = none) {k : Nat} (m : Nat) {s t : State}
    (hy : runLoop k h s = (.yielded, t)) : runLoop (k + m + 1) h s = runLoop m h t := by
  induction k generalizing s with
  | zero =>
    obtain ⟨u, hu, hpass⟩ := runPass_yielded hy
    cases hu
    rw [Nat.zero_add, runLoop, hpass, HostControls.afterCycle_of_stopAt_none hn]
  | succ k ih =>
    obtain ⟨u, hu, hpass⟩ := runPass_yielded hy
    rw [HostControls.afterCycle_of_stopAt_none hn] at hu
    rw [Nat.add_right_comm k 1 m, runLoop, hpass, HostControls.afterCycle_of_stopAt_none hn, ih hu]

/-- Settles O60: each call accounts for its answer by the steps its controls let run, and a yield changes nothing. -/
theorem runLoopOnlyCountsSteps : Obligations.RunLoopOnlyCountsSteps := by
  unfold Obligations.RunLoopOnlyCountsSteps
  refine ⟨fun more h s t e hcall => ?accounts, fun _ m _ _ _ => runLoop_add_of_yielded rfl m⟩
  obtain ⟨j, hj, ⟨hrun, hbefore⟩, hmode, hend⟩ := hcall ▸ accounts_runLoop more h s
  refine ⟨j, hj, hrun, hbefore, hmode, ?_, ?_, ?_, ?_, ?_, fun f => ?_, fun r => ?_⟩ <;> (rintro rfl; exact hend)

end Sys2Proof.Machine
end
